-- ==== Sys2Proof/Word.lean ====
section
/-! DEFINITION. The fixed widths of the block (00_scope.md rule R10): a Register Value is a byte, a register
address is the 7 bits under the marker bit, a Delta Sample component and an integrity code are 16 bits. -/

namespace Sys2Proof

/-- A Register Value, "an 8-bit unsigned quantity" (R10). -/
abbrev Byte := BitVec 8

/-- A device register address: the 7 bits under the marker bit (R10, R75). -/
abbrev Addr := BitVec 7

/-- A 16-bit quantity: a delta component or an integrity code (R10). -/
abbrev Half := BitVec 16

end Sys2Proof
end

