-- ==== Sys2Proof/Config.lean ====
section
/-! DEFINITION. What an implementation fixes: the parameters of 00_scope.md rule R8 with the rule's defaults, the
well-formedness of a parameter assignment (rule R9), and the free values the spec leaves open: the DIN samples and
the edges of the motion-available signal. -/

namespace Sys2Proof

/-- The thirteen duration parameters of R8, by name: the model records `Dly(P)` by name and uses no number (D13, R216). -/
inductive DelayName where
  | tSelPreA | tSelPostA | tSelPreD | tSelPostD | tClkLow | tClkHigh | tWrPhase | tRdAddrData | tInterTxn
  | tLoadSettle | tBurstByte | tVerifySettle | tPowerUp
  deriving DecidableEq, Repr

/-- An edge of the motion-available signal (R8 `MOT_EDGE`, R208). -/
inductive Edge where
  | falling | rising
  deriving DecidableEq, Repr

/-- A parameter assignment (R8). Every address is 7-bit by type (R75). `fw` is the firmware image: `FW_LEN` is its
length and `FW(i)` its byte `i` (R63). -/
structure Params where
  writeMarker : Bool
  dummyByte : Byte
  addrProductId : Addr
  addrRevisionId : Addr
  addrMotion : Addr
  addrDeltaXL : Addr
  addrDeltaXH : Addr
  addrDeltaYL : Addr
  addrDeltaYH : Addr
  addrConfigA : Addr
  addrConfigB : Addr
  addrConfigC : Addr
  addrConfigD : Addr
  addrSromEnable : Addr
  addrLaserCtrl : Addr
  addrObservation : Addr
  addrCodeLo : Addr
  addrCodeHi : Addr
  addrSromId : Addr
  addrPowerUpReset : Addr
  addrInvProductId : Addr
  addrSromBurst : Addr
  cmdReset : Byte
  cmdSromLoad : Byte
  cmdSromVerify : Byte
  productIdExpected : Byte
  expectedCode : Half
  maskMot : Byte
  maskFault : Byte
  maskLpValid : Byte
  fw : List Byte
  dumpEnable : Bool
  motEdge : Edge
  deriving DecidableEq, Repr

/-- The defaults of R8. R8 gives the image no default (OPEN, D12): DESIGN CHOICE, the empty image, which R63 calls
legal (log entry 4). Claims quantify over the assignment and rest on no default. -/
def Params.defaults : Params where
  writeMarker := true
  dummyByte := 0x00#8
  addrProductId := 0x00#7
  addrRevisionId := 0x01#7
  addrMotion := 0x02#7
  addrDeltaXL := 0x03#7
  addrDeltaXH := 0x04#7
  addrDeltaYL := 0x05#7
  addrDeltaYH := 0x06#7
  addrConfigA := 0x0F#7
  addrConfigB := 0x10#7
  addrConfigC := 0x39#7
  addrConfigD := 0x2F#7
  addrSromEnable := 0x13#7
  addrLaserCtrl := 0x20#7
  addrObservation := 0x24#7
  addrCodeLo := 0x25#7
  addrCodeHi := 0x26#7
  addrSromId := 0x2A#7
  addrPowerUpReset := 0x3A#7
  addrInvProductId := 0x3F#7
  addrSromBurst := 0x62#7
  cmdReset := 0x5A#8
  cmdSromLoad := 0x18#8
  cmdSromVerify := 0x15#8
  productIdExpected := 0x33#8
  expectedCode := 0xBEEF#16
  maskMot := 0x80#8
  maskFault := 0x40#8
  maskLpValid := 0x20#8
  fw := []
  dumpEnable := true
  motEdge := .falling

/-- A free value: the `n`-th sample of `DIN`, where the state's own queue of samples is used up (R24, R126: a draw
under no law). It has no body, so a claim that holds for it holds for every device. -/
opaque Config.dinSample : Nat → Bool

/-- A free value: the edge of the motion-available signal, if any, that follows the `n`-th step, where the state's own
queue of edges is used up (R38, R208: the times and the number of edges are open). -/
opaque Config.motSignal : Nat → Option Edge

end Sys2Proof
end

