-- ==== Sys2Proof/Syntax.lean ====
section
/-! DEFINITION. The block's operations and frames, one constructor per row of spec/opcode_table.json: the four generic
frame formats (30_encoding.md R91 to R94), the 23 frames the block sends (R98) and the 24 operations (R100); the word
an operation is given as; the names of the decoder's rejections. -/

namespace Sys2Proof

/-- One constructor per row of the table. -/
inductive Instr where
  /-- FRAME_W: a register write frame with address `a` and data byte `d` (R91). -/
  | frameW (a : Addr) (d : Byte)
  /-- FRAME_R: a register read frame of address `a` with the byte `d` on DOUT in the data phase (R92, R99). -/
  | frameR (a : Addr) (d : Byte)
  /-- FRAME_B: a burst frame to `ADDR_SROM_BURST` with the data bytes `bytes` (R93). -/
  | frameB (bytes : List Byte)
  /-- FRAME_Z: the empty select cycle (R94). -/
  | frameZ
  | wrPowerUpReset
  | rdMotion
  | rdDeltaXL
  | rdDeltaXH
  | rdDeltaYL
  | rdDeltaYH
  | wrSromLoad
  | burstSrom
  | rdProductId
  | rdInvProductId
  | wrSromVerify
  | rdCodeLo
  | rdCodeHi
  | rdLaserCtrl
  /-- WR_LASER_CTRL: the frame whose data byte is `h ++ 0000` (R98); `h` is any nibble, from the word (log entry 25). -/
  | wrLaserCtrl (h : BitVec 4)
  | rdRevisionId
  | rdObservation
  | rdSromId
  | rdConfigA
  | rdConfigB
  | rdConfigC
  | rdConfigD
  | selCycle
  | init
  | selAssert
  | selDeassert
  | xfer (out : Byte)
  | delay (p : DelayName)
  | wrreg (a : Addr) (v : Byte)
  | rdreg (a : Addr)
  | upload
  | verify
  | stReset
  | stPowerup
  | stDrain
  | stFwupload
  | stPidcheck
  | stIpidcheck
  | stIntegrity
  | stLasercfg
  | stReady
  | stFailed
  | dump
  | testclr
  | poll
  | statusDecode (s : Byte)
  | delta16 (lo hi : Byte)
  deriving DecidableEq, Repr

/-- A word that names an operation: either the bytes a frame puts on DOUT between the edges of SEL, in order of
transmission (R90), or an operation id with two operand bytes. The spec gives the operands of an operation id no bits
(R100): DESIGN CHOICE, one byte each, in the order of R100's syntax (log entry 10). -/
inductive CodeWord where
  | frame (bytes : List Byte)
  | op (id x y : Byte)
  deriving DecidableEq, Repr

/-- Why a word decodes to nothing. -/
inductive DecodeError where
  /-- A byte string of no frame format: neither empty, nor two bytes, nor the burst's length (R97). -/
  | frameLength (n : Nat)
  /-- An operation id above 23, or with one of the three bits above the id set (R100). -/
  | operationId (id : Byte)
  /-- An operand byte out of its operand's range, or set where the operation takes no such operand (R75, R100). -/
  | operand (id : Byte)
  deriving DecidableEq, Repr

end Sys2Proof
end

