-- ==== Sys2Proof/Decode.lean ====
section
/-! DEFINITION. Decoding and encoding. Frames: 30_encoding.md R90 to R99; operation ids: R100. The decoder is total and
rejects by name. Where the table has two rows for one word, the decoder answers the named row (log entry 11). -/

namespace Sys2Proof

/-- The address byte of a write: `WRITE_MARKER ++ a` (R95). -/
def markW (p : Params) (a : Addr) : Byte := BitVec.ofBool p.writeMarker ++ a

/-- The address byte of a read: `~WRITE_MARKER ++ a` (R95). -/
def markR (p : Params) (a : Addr) : Byte := BitVec.ofBool (!p.writeMarker) ++ a

/-- The marker of an address byte: its top bit (R90). -/
def markerOf (b : Byte) : Bool := b.msb

/-- The address of an address byte: its low 7 bits (R91). -/
def addrOf (b : Byte) : Addr := b.extractLsb' 0 7

/-- The data byte of WR_LASER_CTRL: the high nibble as given, the low nibble zero (R98, R169). -/
def laserData (h : BitVec 4) : Byte := h ++ 0#4

/-- The row of a write frame (R98): a named row where the table has one, else FRAME_W. -/
def nameWrite (p : Params) (a : Addr) (d : Byte) : Instr :=
  if a = p.addrPowerUpReset ∧ d = p.cmdReset then .wrPowerUpReset
  else if a = p.addrSromEnable ∧ d = p.cmdSromLoad then .wrSromLoad
  else if a = p.addrSromEnable ∧ d = p.cmdSromVerify then .wrSromVerify
  else if a = p.addrLaserCtrl ∧ d.extractLsb' 0 4 = 0#4 then .wrLaserCtrl (d.extractLsb' 4 4)
  else .frameW a d

/-- The row of a read frame (R98): a named row where the table has one, else FRAME_R. -/
def nameRead (p : Params) (a : Addr) (d : Byte) : Instr :=
  if d ≠ p.dummyByte then .frameR a d
  else if a = p.addrMotion then .rdMotion
  else if a = p.addrDeltaXL then .rdDeltaXL
  else if a = p.addrDeltaXH then .rdDeltaXH
  else if a = p.addrDeltaYL then .rdDeltaYL
  else if a = p.addrDeltaYH then .rdDeltaYH
  else if a = p.addrProductId then .rdProductId
  else if a = p.addrInvProductId then .rdInvProductId
  else if a = p.addrCodeLo then .rdCodeLo
  else if a = p.addrCodeHi then .rdCodeHi
  else if a = p.addrLaserCtrl then .rdLaserCtrl
  else if a = p.addrRevisionId then .rdRevisionId
  else if a = p.addrObservation then .rdObservation
  else if a = p.addrSromId then .rdSromId
  else if a = p.addrConfigA then .rdConfigA
  else if a = p.addrConfigB then .rdConfigB
  else if a = p.addrConfigC then .rdConfigC
  else if a = p.addrConfigD then .rdConfigD
  else .frameR a d

/-- The row of a burst frame (R93, R98): BURST_SROM where the data bytes are the image, else FRAME_B. -/
def nameBurst (p : Params) (bytes : List Byte) : Instr :=
  if bytes = p.fw then .burstSrom else .frameB bytes

/-- A frame's row. A frame is told from its length and its marker; the burst from W by its length, or, where the image
is one byte long, by the address `ADDR_SROM_BURST` (R97). -/
def decodeFrame (p : Params) (bytes : List Byte) : Except DecodeError Instr :=
  match bytes with
  | [] => .ok .selCycle
  | b :: rest =>
    if b = markW p p.addrSromBurst ∧ rest.length = p.fw.length then .ok (nameBurst p rest)
    else match rest with
      | [d] =>
        if markerOf b = p.writeMarker then .ok (nameWrite p (addrOf b) d) else .ok (nameRead p (addrOf b) d)
      | _ => .error (.frameLength bytes.length)

/-- The code of a delay parameter in an operand byte: its place in R8's list (DESIGN CHOICE, log entry 10). -/
def delayCode : DelayName → Byte
  | .tSelPreA => 0#8 | .tSelPostA => 1#8 | .tSelPreD => 2#8 | .tSelPostD => 3#8 | .tClkLow => 4#8 | .tClkHigh => 5#8
  | .tWrPhase => 6#8 | .tRdAddrData => 7#8 | .tInterTxn => 8#8 | .tLoadSettle => 9#8 | .tBurstByte => 10#8
  | .tVerifySettle => 11#8 | .tPowerUp => 12#8

/-- The delay parameter of a code. -/
def delayOfCode (c : Byte) : Option DelayName :=
  match c.toNat with
  | 0 => some .tSelPreA | 1 => some .tSelPostA | 2 => some .tSelPreD | 3 => some .tSelPostD | 4 => some .tClkLow
  | 5 => some .tClkHigh | 6 => some .tWrPhase | 7 => some .tRdAddrData | 8 => some .tInterTxn | 9 => some .tLoadSettle
  | 10 => some .tBurstByte | 11 => some .tVerifySettle | 12 => some .tPowerUp
  | _ => none

/-- An operation without operands: both operand bytes are zero. -/
def noOperand (i : Instr) (id x y : Byte) : Except DecodeError Instr :=
  if x = 0#8 ∧ y = 0#8 then .ok i else .error (.operand id)

/-- An operation with one operand byte: the second is zero. -/
def oneOperand (i : Instr) (id y : Byte) : Except DecodeError Instr :=
  if y = 0#8 then .ok i else .error (.operand id)

/-- An operation whose first operand is a 7-bit address: bit 7 of its byte is zero (R75). -/
def addrOperand (i : Instr) (id x : Byte) : Except DecodeError Instr :=
  if markerOf x = false then .ok i else .error (.operand id)

/-- An operation's row by its id (R100). -/
def decodeOp (id x y : Byte) : Except DecodeError Instr :=
  match id.toNat with
  | 0 => noOperand .init id x y
  | 1 => noOperand .selAssert id x y
  | 2 => noOperand .selDeassert id x y
  | 3 => oneOperand (.xfer x) id y
  | 4 => match delayOfCode x with
    | some d => oneOperand (.delay d) id y
    | none => .error (.operand id)
  | 5 => addrOperand (.wrreg (addrOf x) y) id x
  | 6 => if y = 0#8 then addrOperand (.rdreg (addrOf x)) id x else .error (.operand id)
  | 7 => noOperand .upload id x y
  | 8 => noOperand .verify id x y
  | 9 => noOperand .stReset id x y
  | 10 => noOperand .stPowerup id x y
  | 11 => noOperand .stDrain id x y
  | 12 => noOperand .stFwupload id x y
  | 13 => noOperand .stPidcheck id x y
  | 14 => noOperand .stIpidcheck id x y
  | 15 => noOperand .stIntegrity id x y
  | 16 => noOperand .stLasercfg id x y
  | 17 => noOperand .stReady id x y
  | 18 => noOperand .stFailed id x y
  | 19 => noOperand .dump id x y
  | 20 => noOperand .testclr id x y
  | 21 => noOperand .poll id x y
  | 22 => oneOperand (.statusDecode x) id y
  | 23 => .ok (.delta16 x y)
  | _ => .error (.operationId id)

/-- The decoder, total on words. -/
def decode (p : Params) : CodeWord → Except DecodeError Instr
  | .frame bytes => decodeFrame p bytes
  | .op id x y => decodeOp id x y

/-- The two bytes of a write frame (R91). -/
def writeBytes (p : Params) (a : Addr) (d : Byte) : CodeWord := .frame [markW p a, d]

/-- The two bytes of a read frame with the dummy byte (R92). -/
def readBytes (p : Params) (a : Addr) : CodeWord := .frame [markR p a, p.dummyByte]

/-- A 7-bit address in an operand byte. -/
def addrByte (a : Addr) : Byte := 0#1 ++ a

/-- The encoder: the word of an instruction, from the frame table of R98 and the id table of R100. -/
def encode (p : Params) : Instr → CodeWord
  | .frameW a d => writeBytes p a d
  | .frameR a d => .frame [markR p a, d]
  | .frameB bytes => .frame (markW p p.addrSromBurst :: bytes)
  | .frameZ => .frame []
  | .wrPowerUpReset => writeBytes p p.addrPowerUpReset p.cmdReset
  | .rdMotion => readBytes p p.addrMotion
  | .rdDeltaXL => readBytes p p.addrDeltaXL
  | .rdDeltaXH => readBytes p p.addrDeltaXH
  | .rdDeltaYL => readBytes p p.addrDeltaYL
  | .rdDeltaYH => readBytes p p.addrDeltaYH
  | .wrSromLoad => writeBytes p p.addrSromEnable p.cmdSromLoad
  | .burstSrom => .frame (markW p p.addrSromBurst :: p.fw)
  | .rdProductId => readBytes p p.addrProductId
  | .rdInvProductId => readBytes p p.addrInvProductId
  | .wrSromVerify => writeBytes p p.addrSromEnable p.cmdSromVerify
  | .rdCodeLo => readBytes p p.addrCodeLo
  | .rdCodeHi => readBytes p p.addrCodeHi
  | .rdLaserCtrl => readBytes p p.addrLaserCtrl
  | .wrLaserCtrl h => writeBytes p p.addrLaserCtrl (laserData h)
  | .rdRevisionId => readBytes p p.addrRevisionId
  | .rdObservation => readBytes p p.addrObservation
  | .rdSromId => readBytes p p.addrSromId
  | .rdConfigA => readBytes p p.addrConfigA
  | .rdConfigB => readBytes p p.addrConfigB
  | .rdConfigC => readBytes p p.addrConfigC
  | .rdConfigD => readBytes p p.addrConfigD
  | .selCycle => .frame []
  | .init => .op 0#8 0#8 0#8
  | .selAssert => .op 1#8 0#8 0#8
  | .selDeassert => .op 2#8 0#8 0#8
  | .xfer out => .op 3#8 out 0#8
  | .delay d => .op 4#8 (delayCode d) 0#8
  | .wrreg a v => .op 5#8 (addrByte a) v
  | .rdreg a => .op 6#8 (addrByte a) 0#8
  | .upload => .op 7#8 0#8 0#8
  | .verify => .op 8#8 0#8 0#8
  | .stReset => .op 9#8 0#8 0#8
  | .stPowerup => .op 10#8 0#8 0#8
  | .stDrain => .op 11#8 0#8 0#8
  | .stFwupload => .op 12#8 0#8 0#8
  | .stPidcheck => .op 13#8 0#8 0#8
  | .stIpidcheck => .op 14#8 0#8 0#8
  | .stIntegrity => .op 15#8 0#8 0#8
  | .stLasercfg => .op 16#8 0#8 0#8
  | .stReady => .op 17#8 0#8 0#8
  | .stFailed => .op 18#8 0#8 0#8
  | .dump => .op 19#8 0#8 0#8
  | .testclr => .op 20#8 0#8 0#8
  | .poll => .op 21#8 0#8 0#8
  | .statusDecode s => .op 22#8 s 0#8
  | .delta16 lo hi => .op 23#8 lo hi

/-- The one spelling of each frame: the first row of the table that its bytes fit. Two rows that are one frame (FRAME_Z
and SEL_CYCLE; a generic frame with the fields of a named one) have one canonical form (R101, log entry 11). -/
def canon (p : Params) : Instr → Instr
  | .frameW a d => nameWrite p a d
  | .frameR a d => nameRead p a d
  | .frameB bytes => nameBurst p bytes
  | .frameZ => .selCycle
  | .wrPowerUpReset => nameWrite p p.addrPowerUpReset p.cmdReset
  | .rdMotion => nameRead p p.addrMotion p.dummyByte
  | .rdDeltaXL => nameRead p p.addrDeltaXL p.dummyByte
  | .rdDeltaXH => nameRead p p.addrDeltaXH p.dummyByte
  | .rdDeltaYL => nameRead p p.addrDeltaYL p.dummyByte
  | .rdDeltaYH => nameRead p p.addrDeltaYH p.dummyByte
  | .wrSromLoad => nameWrite p p.addrSromEnable p.cmdSromLoad
  | .rdProductId => nameRead p p.addrProductId p.dummyByte
  | .rdInvProductId => nameRead p p.addrInvProductId p.dummyByte
  | .wrSromVerify => nameWrite p p.addrSromEnable p.cmdSromVerify
  | .rdCodeLo => nameRead p p.addrCodeLo p.dummyByte
  | .rdCodeHi => nameRead p p.addrCodeHi p.dummyByte
  | .rdLaserCtrl => nameRead p p.addrLaserCtrl p.dummyByte
  | .wrLaserCtrl h => nameWrite p p.addrLaserCtrl (laserData h)
  | .rdRevisionId => nameRead p p.addrRevisionId p.dummyByte
  | .rdObservation => nameRead p p.addrObservation p.dummyByte
  | .rdSromId => nameRead p p.addrSromId p.dummyByte
  | .rdConfigA => nameRead p p.addrConfigA p.dummyByte
  | .rdConfigB => nameRead p p.addrConfigB p.dummyByte
  | .rdConfigC => nameRead p p.addrConfigC p.dummyByte
  | .rdConfigD => nameRead p p.addrConfigD p.dummyByte
  | .burstSrom => .burstSrom
  | .selCycle => .selCycle
  | .init => .init
  | .selAssert => .selAssert
  | .selDeassert => .selDeassert
  | .xfer out => .xfer out
  | .delay d => .delay d
  | .wrreg a v => .wrreg a v
  | .rdreg a => .rdreg a
  | .upload => .upload
  | .verify => .verify
  | .stReset => .stReset
  | .stPowerup => .stPowerup
  | .stDrain => .stDrain
  | .stFwupload => .stFwupload
  | .stPidcheck => .stPidcheck
  | .stIpidcheck => .stIpidcheck
  | .stIntegrity => .stIntegrity
  | .stLasercfg => .stLasercfg
  | .stReady => .stReady
  | .stFailed => .stFailed
  | .dump => .dump
  | .testclr => .testclr
  | .poll => .poll
  | .statusDecode s => .statusDecode s
  | .delta16 lo hi => .delta16 lo hi

/-- The word of a table row whose bits are `w`, numbered as the table numbers them: 16 bits are the two bytes of a W or
R frame, `f[15]` first on the wire (R90); up to 8 bits are an operation id with zero operands where they fit the id's
five bits, else the first byte of a burst with zero data bytes; no bits are the empty frame; a longer row is a burst,
its first byte the lowest. -/
def tableWord (p : Params) (nbits w : Nat) : CodeWord :=
  if nbits = 0 then .frame []
  else if nbits ≤ 8 then
    if w < 32 then .op (BitVec.ofNat 8 w) 0#8 0#8
    else .frame (BitVec.ofNat 8 w :: List.replicate p.fw.length 0#8)
  else if nbits ≤ 16 then .frame [BitVec.ofNat 8 (w / 256), BitVec.ofNat 8 w]
  else .frame ((List.range (p.fw.length + 1)).map fun k => BitVec.ofNat 8 (w / 256 ^ k))

/-- What the decoder reads from a table row's word under the default parameters, which the table's patterns assume. -/
def decodeTableWord (nbits w : Nat) : Option Instr :=
  match decode Params.defaults (tableWord Params.defaults nbits w) with
  | .ok i => some i
  | .error _ => none

end Sys2Proof
end

