-- ==== Sys2Proof/WellFormed.lean ====
section
/-! DEFINITION. Well-formedness: of a parameter assignment (00_scope.md R9) and of an instruction (30_encoding.md R93,
R97, R98). -/

namespace Sys2Proof

/-- Exactly one bit of the mask is set (R9 b). -/
def oneBit (m : Byte) : Bool := (List.range 8).any fun i => m == BitVec.ofNat 8 (2 ^ i)

/-- R9 b: each mask has exactly one bit set and the three are pairwise different. -/
def Params.masksOk (p : Params) : Bool :=
  oneBit p.maskMot && oneBit p.maskFault && oneBit p.maskLpValid &&
    p.maskMot != p.maskFault && p.maskMot != p.maskLpValid && p.maskFault != p.maskLpValid

/-- R9 c: the five addresses the decoder reads are pairwise different. -/
def Params.motionAddrsOk (p : Params) : Bool :=
  decide [p.addrMotion, p.addrDeltaXL, p.addrDeltaXH, p.addrDeltaYL, p.addrDeltaYH].Nodup

/-- R9: a parameter assignment the model accepts. Clause (a) holds by type (R75); the durations of clause (f) are names
only in this model (R216). -/
def Params.wf (p : Params) : Bool :=
  p.masksOk && p.motionAddrsOk && p.addrCodeLo != p.addrCodeHi && p.addrProductId != p.addrInvProductId

/-- The operands fit their frame: a burst has `FW_LEN` data bytes (R93), and a two-byte write frame is no burst (R97:
where `FW_LEN` is one, a W frame to `ADDR_SROM_BURST` would be read as the burst). -/
def Instr.operandsOk (p : Params) : Instr → Bool
  | .frameB bytes => bytes.length == p.fw.length
  | .frameW a _ => !(a == p.addrSromBurst && p.fw.length == 1)
  | .wrPowerUpReset => !(p.addrPowerUpReset == p.addrSromBurst && p.fw.length == 1)
  | .wrSromLoad => !(p.addrSromEnable == p.addrSromBurst && p.fw.length == 1)
  | .wrSromVerify => !(p.addrSromEnable == p.addrSromBurst && p.fw.length == 1)
  | .wrLaserCtrl _ => !(p.addrLaserCtrl == p.addrSromBurst && p.fw.length == 1)
  | _ => true

/-- A well-formed instruction: operands that fit, and the table's own spelling of its frame (R98, R101). -/
def Instr.wellFormed (p : Params) (i : Instr) : Bool := i.operandsOk p && canon p i == i

end Sys2Proof
end

