-- ==== Sys2Proof/Machine/State.lean ====
section
/-! DEFINITION. The state of the block (10_state.md R20 to R44), its traces and output events (R39 to R41), the ways a
step can stop, and the state at the release of reset (R42). -/

namespace Sys2Proof.Machine

/-- The reason of a failed initialization (R30). -/
inductive Reason where
  | productIdMismatch | inverseIdMismatch | integrityMismatch
  deriving DecidableEq, Repr

/-- The Device State (R30). -/
inductive DState where
  | reset | powerUp | drain | firmwareUpload | productIdCheck | inverseIdCheck | integrityCheck | laserConfig | ready
  | failed (r : Reason)
  deriving DecidableEq, Repr

/-- A line event of the trace `T0` (R39). -/
inductive LineEvent where
  | cfg
  | sel (b : Bool)
  | clk (b : Bool)
  | dout (b : Bool)
  | din (b : Bool)
  | dly (p : DelayName)
  deriving DecidableEq, Repr

/-- A call of the trace `T1` (R40). -/
inductive Call where
  | init
  | assert
  | deassert
  | xfer (out inn : Byte)
  | delay (p : DelayName)
  deriving DecidableEq, Repr

/-- A transaction of the trace `T2` (R40). -/
inductive Txn where
  | init
  | selCycle
  | write (a : Addr) (v : Byte)
  | read (a : Addr) (v : Byte)
  | burst (a : Addr) (bytes : List Byte)
  | wait (p : DelayName)
  deriving DecidableEq, Repr

/-- The labels of the register dump (R41). -/
inductive DumpLabel where
  | productId | revisionId | motion | observation | sromId | configA | configB | configC | configD
  deriving DecidableEq, Repr

/-- An output event (R41). -/
inductive OutEvent where
  | motionSample (dx dy : Int)
  | motionFault (rawStatus : Byte)
  | initFailed (reason : Reason) (bytes : List Byte)
  | regDump (label : DumpLabel) (value : Byte)
  deriving DecidableEq, Repr

/-- What an operation hands back to its caller (R100, "-> result"). `none`: an operation without a result. -/
inductive Ret where
  | none
  /-- the in byte of XFER, the value of RDREG and of a read frame (R124, R143) -/
  | byte (v : Byte)
  /-- Verified (true) or Mismatch (false), of VERIFY (R154) -/
  | verified (b : Bool)
  /-- the bit TESTCLR returns (R181) -/
  | bit (t : Bool)
  /-- the three flags of STATUS_DECODE (R183) -/
  | flags (mot fault lpv : Bool)
  /-- the 16 bits of DELTA16 (R186) -/
  | half (v : Half)
  deriving DecidableEq, Repr

/-- The faults of the model. -/
inductive Fault where
  /-- The read of a holding register that nothing has written (R12, U6). No operation raises it: every register holds a
  value at reset (log entry 5), and the one register an operation reads that another wrote, H_PID, is written before it is
  read (R28). Safe: it adds no behaviour. -/
  | unwrittenRead
  deriving DecidableEq, Repr

/-- The refusals of the model. All are safe: the machine stops where the spec gives no effect. -/
inductive Refusal where
  /-- An instruction the model gives no meaning: raised by an arm of `exec` only (none is left). Safe. -/
  | notModelled (mnemonic : String)
  /-- SEL_ASSERT, SEL_DEASSERT or XFER before INIT (R123, R127, D24). Safe. -/
  | linesNotConfigured
  /-- SEL_ASSERT while select is asserted (R123, D24). Safe. -/
  | selectNotHigh
  /-- SEL_DEASSERT or XFER while select is deasserted (R123, R127, D24). Safe. -/
  | selectNotLow
  /-- SEL_ASSERT, SEL_DEASSERT or XFER while the clock is high (R123, R127, D24). Safe. -/
  | clockNotLow
  /-- An ST_ operation called in another Device State than its own: no transition exists that R160 does not list, and
  none leaves Ready or Failed (R160, R204, U9). Safe. -/
  | notInState
  /-- A read called singly of a delta register that is not the next in the fixed order (R67, U1: a model that lets a caller
  reorder must refuse): raised by FRAME_R, RDREG and the named read frames. Safe. -/
  | deltaOrder
  /-- A read called singly of a delta register while the last status byte read is invalid (R68, U2: refuse): raised by
  FRAME_R, RDREG and the named read frames. Safe. -/
  | deltaStatus
  /-- A parameter assignment that fails R9: raised by `step`. Safe. -/
  | parameters
  /-- A word that decodes to nothing: raised by `step`. Safe. -/
  | undecodable (e : DecodeError)
  deriving DecidableEq, Repr

/-- The state. `none` in a line is "not driven" and in FAILINFO "holds no value", both the spec's own (R36, R35, R42); every
other register holds a value, at reset one the model names (log entry 5). The last seven fields are the model's own
(INVENTORY.md). -/
structure State where
  /-- the parameter assignment, constant for a lifetime (R8, R38) -/
  cfg : Params
  /-- `LINES_CFG` (R36) -/
  linesCfg : Bool
  /-- `SEL`: true is high, deasserted (R21) -/
  sel : Option Bool
  /-- `CLK` (R22) -/
  clk : Option Bool
  /-- `DOUT` (R23) -/
  dout : Option Bool
  /-- `SR`, the shift register (R26) -/
  sr : Byte
  /-- `BITCNT` (R27) -/
  bitcnt : BitVec 4
  /-- `FWIDX`, the index of the next firmware byte (R25) -/
  fwidx : Nat
  hPid : Byte
  hIpid : Byte
  hCodeLo : Byte
  hCodeHi : Byte
  hLaser : Byte
  hStatus : Byte
  hDxl : Byte
  hDxh : Byte
  hDyl : Byte
  hDyh : Byte
  hDump : Byte
  /-- `DX`, `DY` (R29) -/
  dx : Half
  dy : Half
  /-- `DSTATE` (R30) -/
  dstate : DState
  /-- `SEQPOS`, counted in this model's steps: 0 at the start of a state's list; in Ready, 1 once the list's dump
  element is behind and the loop is reached (R31, R32; log entry 2) -/
  seqpos : Nat
  /-- `PEND` (R33) -/
  pend : Bool
  /-- `FAILINFO` (R35) -/
  failinfo : Option (List Byte)
  /-- `DUMPED` (R37) -/
  dumped : Bool
  /-- `T0`, `T1`, `T2` (R39, R40) and `OUT` (R41), oldest first -/
  t0 : List LineEvent
  t1 : List Call
  t2 : List Txn
  out : List OutEvent
  /-- model's own: the calls since select was last asserted, from which `T2` is read (log entry 8) -/
  frame : List Call
  /-- model's own: the result of the last operation (log entry 9) -/
  ret : Ret
  /-- model's own: words a test bench calls, first to run first (log entry 3) -/
  bench : List CodeWord
  /-- model's own: the `DIN` samples to come; past its end a sample is `Config.dinSample dinCount` (log entry 6) -/
  din : List Bool
  /-- model's own: how many free samples were taken past the end of `din` (log entry 6) -/
  dinCount : Nat
  /-- model's own: the motion-signal edges to come, one per step; past its end `Config.motSignal edgeCount` (log entry 7) -/
  edges : List (Option Edge)
  /-- model's own: how many steps took a free edge past the end of `edges` (log entry 7) -/
  edgeCount : Nat
  deriving DecidableEq, Repr

/-- The state at the release of reset, for a parameter assignment the integrator has fixed (R42, R222, R230). The holding
registers, SR, FWIDX, DX and DY, to which R42 gives no value, are zero: DESIGN CHOICE, log entry 5. -/
def State.resetWith (p : Params) : State where
  cfg := p
  linesCfg := false
  sel := none
  clk := none
  dout := none
  sr := 0#8
  bitcnt := 0#4
  fwidx := 0
  hPid := 0#8
  hIpid := 0#8
  hCodeLo := 0#8
  hCodeHi := 0#8
  hLaser := 0#8
  hStatus := 0#8
  hDxl := 0#8
  hDxh := 0#8
  hDyl := 0#8
  hDyh := 0#8
  hDump := 0#8
  dx := 0#16
  dy := 0#16
  dstate := .reset
  seqpos := 0
  pend := false
  failinfo := none
  dumped := false
  t0 := []
  t1 := []
  t2 := []
  out := []
  frame := []
  ret := .none
  bench := []
  din := []
  dinCount := 0
  edges := []
  edgeCount := 0

/-- The machine right after reset (R42), with the default parameters of R8. -/
def State.reset : State := State.resetWith Params.defaults

end Sys2Proof.Machine
end

