-- ==== Sys2Proof/Machine/Operands.lean ====
section
/-! DEFINITION. Operand assembly: the byte a clocked-in sequence makes (20_memory.md R71), the laser write-back value
(43_init_state_machine.md R169), the integrity code (42_firmware_loader.md R154), the delta reconstruction
(44_motion_decoder.md R186), and the firmware image by index (20_memory.md R63). -/

namespace Sys2Proof.Machine

/-- `SR <- SR[6:0] ++ s` (R124): shift left, the new bit enters at bit 0. -/
def shiftIn (sr : Byte) (s : Bool) : Byte := sr.extractLsb' 0 7 ++ BitVec.ofBool s

/-- The laser-control byte with its low nibble cleared and its high nibble as read: `v & 0xF0` (R169). -/
def clearLowNibble (v : Byte) : Byte := v &&& 0xF0#8

/-- `hi ++ lo`, the integrity code (R73, R154). -/
def codeOf (hi lo : Byte) : Half := hi ++ lo

/-- DELTA16: `zext_16(lo) | (zext_16(hi) << 8)` (R186). -/
def delta16 (lo hi : Byte) : Half := lo.zeroExtend 16 ||| (hi.zeroExtend 16 <<< 8)

/-- `toInt16` (R12). -/
def toInt16 (v : Half) : Int := if v.toNat < 32768 then (v.toNat : Int) else (v.toNat : Int) - 65536

/-- `FwRead(i)`: byte `i` of the image, for `i < FW_LEN` (R63). -/
def fwRead (p : Params) (i : Nat) : Option Byte := p.fw[i]?

end Sys2Proof.Machine
end

