-- ==== Sys2Proof/Machine/Trace.lean ====
section
/-! DEFINITION. How `T1` and `T2` grow: `T1` by one event per Bus Primitive call, `T2` by one event per frame, read from
`T1` (10_state.md R40; the four formats, 30_encoding.md R90). -/

namespace Sys2Proof.Machine

/-- The data bytes of a burst's body: pairs of a transfer and the inter-byte delay (R93). -/
def burstBody : List Call → Option (List Byte)
  | [] => some []
  | .xfer b _ :: .delay .tBurstByte :: rest => (burstBody rest).map (b :: ·)
  | _ => none

/-- The transaction a closed frame is, by the names of its inner delays and its marker (R40, R90). A frame of no format,
which only a bench can make from single calls, is no event of `T2` (DESIGN CHOICE, log entry 8). -/
def classify (p : Params) : List Call → List Txn
  | [] => [.selCycle]
  | [.xfer b _, .delay .tWrPhase, .xfer d _] =>
    if markerOf b = p.writeMarker then [.write (addrOf b) d] else []
  | [.xfer b _, .delay .tRdAddrData, .xfer _ v] =>
    if markerOf b = p.writeMarker then [] else [.read (addrOf b) v]
  | .xfer b _ :: .delay .tBurstByte :: body =>
    match burstBody body with
    | some bytes => if markerOf b = p.writeMarker then [.burst (addrOf b) bytes] else []
    | none => []
  | _ => []

/-- The last call closed a write or a read frame: the calls of that frame, up to its deassert, end the call trace (R142,
R144). -/
def endsInAccess (p : Params) (cs : List Call) : Bool :=
  match cs.reverse with
  | .deassert :: .xfer _ _ :: .delay .tWrPhase :: .xfer b _ :: .assert :: _ => markerOf b == p.writeMarker
  | .deassert :: .xfer _ _ :: .delay .tRdAddrData :: .xfer b _ :: .assert :: _ => markerOf b != p.writeMarker
  | _ => false

/-- A delay outside a frame is a `Wait`, but the inter-transaction delay right after a write or read frame belongs to
that frame's event (R40, R142). Right after any other frame, one of no format included, it is a `Wait` (DEDUCED, log entry
8). -/
def waitTxn (s : State) (d : DelayName) : List Txn :=
  if d = .tInterTxn ∧ endsInAccess s.cfg s.t1 = true then [] else [.wait d]

/-- A Bus Primitive call is complete: `T1` gains it, and `T2` gains the frame it closes. -/
def State.note (c : Call) (s : State) : State :=
  match c with
  | .init => { s with t1 := s.t1 ++ [c], t2 := s.t2 ++ [.init], frame := [] }
  | .assert => { s with t1 := s.t1 ++ [c], frame := [] }
  | .xfer _ _ => { s with t1 := s.t1 ++ [c], frame := s.frame ++ [c] }
  | .delay d =>
    if s.sel = some false then { s with t1 := s.t1 ++ [c], frame := s.frame ++ [c] }
    else { s with t1 := s.t1 ++ [c], t2 := s.t2 ++ waitTxn s d }
  | .deassert => { s with t1 := s.t1 ++ [c], t2 := s.t2 ++ classify s.cfg s.frame, frame := [] }

end Sys2Proof.Machine
end

