-- ==== Sys2Proof/Machine/Ops.lean ====
section
/-! DEFINITION. The named operations every meaning is built from: driving a line, sampling DIN, a delay, an output event,
the sequencer's moves (00_scope.md R12), and the entry into a failure (60_exceptions.md
R203). A failure has no return (R204), so no operation returns from one. -/

namespace Sys2Proof.Machine

/-- An operation: it changes the state and hands back a value, or it is refused. No operation faults (R28, R201). -/
abbrev Op (α : Type) := StateT State (Except Refusal) α

/-- Change the state by a function. -/
def update (f : State → State) : Op Unit := fun s => .ok ((), f s)

/-- Refuse unless a condition on the state holds. -/
def require (c : State → Bool) (r : Refusal) : Op Unit := fun s => if c s then .ok ((), s) else .error r

/-- Append a line event to `T0` (R39). -/
def State.log (e : LineEvent) (s : State) : State := { s with t0 := s.t0 ++ [e] }

/-- Set the directions of the four lines (R36, R120). -/
def configure : Op Unit := update fun s => { s with linesCfg := true, t0 := s.t0 ++ [.cfg] }

/-- `Line(SEL) <- b` (R12, R21). -/
def driveSel (b : Bool) : Op Unit := update fun s => { s with sel := some b, t0 := s.t0 ++ [.sel b] }

/-- `Line(CLK) <- b` (R12, R22). -/
def driveClk (b : Bool) : Op Unit := update fun s => { s with clk := some b, t0 := s.t0 ++ [.clk b] }

/-- `Line(DOUT) <- b` (R12, R23): logged whether or not the level changes (R39). -/
def driveDout (b : Bool) : Op Unit := update fun s => { s with dout := some b, t0 := s.t0 ++ [.dout b] }

/-- The `k`-th sample of a queue of samples after which the free values from the `c`-th on come. -/
def sampleOf (din : List Bool) (c k : Nat) : Bool := (din[k]?).getD (Config.dinSample (c + (k - din.length)))

/-- The `k`-th sample of DIN from here on: the queue's, or past its end the free value. -/
def State.sampleAt (s : State) (k : Nat) : Bool := sampleOf s.din s.dinCount k

/-- `Sample()`: read DIN; the level is a draw (R12, R24, R126). -/
def sample : Op Bool := fun s =>
  match s.din with
  | b :: rest => .ok (b, { s with din := rest, t0 := s.t0 ++ [.din b] })
  | [] => .ok (Config.dinSample s.dinCount,
      { s with dinCount := s.dinCount + 1, t0 := s.t0 ++ [.din (Config.dinSample s.dinCount)] })

/-- A delay of at least `p` has elapsed (R128, R216): logged by name, and no register changes. -/
def dly (p : DelayName) : Op Unit := update (State.log (.dly p))

/-- A Bus Primitive call is complete (R40). -/
def note (c : Call) : Op Unit := update (State.note c)

/-- `Emit(e)` (R12, R41): the channel never blocks (D26). -/
def State.emit (e : OutEvent) (s : State) : State := { s with out := s.out ++ [e] }

/-- `FWIDX <- k` (R25, R151). -/
def State.setFwidx (k : Nat) (s : State) : State := { s with fwidx := k }

/-- `H_PID <- v` (R28, R165). -/
def State.setPid (v : Byte) (s : State) : State := { s with hPid := v }

/-- `H_IPID <- v` (R28, R166). -/
def State.setIpid (v : Byte) (s : State) : State := { s with hIpid := v }

/-- `H_CODE_LO <- v` (R28, R154). -/
def State.setCodeLo (v : Byte) (s : State) : State := { s with hCodeLo := v }

/-- `H_CODE_HI <- v` (R28, R154). -/
def State.setCodeHi (v : Byte) (s : State) : State := { s with hCodeHi := v }

/-- `H_LASER <- v` (R28, R169). -/
def State.setLaser (v : Byte) (s : State) : State := { s with hLaser := v }

/-- `H_STATUS <- v` (R28, R184). -/
def State.setStatus (v : Byte) (s : State) : State := { s with hStatus := v }

/-- `H_DXL <- v` (R28, R184). -/
def State.setDxl (v : Byte) (s : State) : State := { s with hDxl := v }

/-- `H_DXH <- v` (R28, R184). -/
def State.setDxh (v : Byte) (s : State) : State := { s with hDxh := v }

/-- `H_DYL <- v` (R28, R184). -/
def State.setDyl (v : Byte) (s : State) : State := { s with hDyl := v }

/-- `H_DYH <- v` (R28, R184). -/
def State.setDyh (v : Byte) (s : State) : State := { s with hDyh := v }

/-- `DX, DY <- x, y` (R29, R184). -/
def State.setDeltas (x y : Half) (s : State) : State := { s with dx := x, dy := y }

/-- `H_DUMP <- v` (R28, R172). -/
def State.setDump (v : Byte) (s : State) : State := { s with hDump := v }

/-- `DUMPED <- 1` (R37, R170). -/
def State.setDumped (s : State) : State := { s with dumped := true }

/-- `SEQPOS <- k`, in this model's steps (R31, log entry 2). -/
def State.setSeqpos (k : Nat) (s : State) : State := { s with seqpos := k }

/-- `DSTATE <- d`: the sequencer enters a state at the start of its list (R12, R32). -/
def State.goto (d : DState) (s : State) : State := { s with dstate := d, seqpos := 0 }

/-- `raise Failed(reason)(info)`: the entry into a failure (R203): FAILINFO, one InitFailed, then DSTATE. -/
def State.raiseFailed (reason : Reason) (info : List Byte) (s : State) : State :=
  State.goto (.failed reason) (State.emit (.initFailed reason info) { s with failinfo := some info })

/-- Only in a given Device State (R160). -/
def requireState (ok : DState → Bool) : Op Unit := require (fun s => ok s.dstate) .notInState

/-- The move of the event source after a step (R208, R209): on a `MOT_EDGE` edge PEND becomes 1, whatever it was. -/
def State.eventMove (s : State) : State :=
  match s.edges with
  | e :: rest => { s with pend := s.pend || decide (e = some s.cfg.motEdge), edges := rest }
  | [] => { s with pend := s.pend || decide (Config.motSignal s.edgeCount = some s.cfg.motEdge), edgeCount := s.edgeCount + 1 }

/-- Run an operation to completion and hand its result to the caller (R12 `call`). -/
def finish {α : Type} (op : Op α) (result : α → Ret) (s : State) : Host.Outcome State Fault Refusal :=
  match op s with
  | .ok (v, t) => .next { t with ret := result v }
  | .error r => .refused r

end Sys2Proof.Machine
end

