-- ==== Sys2Proof/Machine/BusPrimitive.lean ====
section
/-! DEFINITION. The Bus Primitive operations (40_bus_primitive.md): INIT, SEL_ASSERT, SEL_DEASSERT, XFER, DELAY. -/

namespace Sys2Proof.Machine

/-- INIT (R120). -/
def busInit : Op Unit := do
  configure
  driveSel true
  driveClk false
  driveDout false
  note .init

/-- The lines are configured (R123, R127). -/
def requireLines : Op Unit := require (fun s => s.linesCfg) .linesNotConfigured

/-- The clock line is low (R123, R127). -/
def requireClockLow : Op Unit := require (fun s => s.clk == some false) .clockNotLow

/-- What SEL_ASSERT requires, and so every frame: the lines configured, select deasserted, the clock low (R121, R123). -/
def requireIdle : Op Unit := do
  requireLines
  require (fun s => s.sel == some true) .selectNotHigh
  requireClockLow

/-- SEL_ASSERT (R121), only with `SEL = 1` (R123). -/
def selAssert : Op Unit := do
  requireIdle
  dly .tSelPreA
  driveSel false
  dly .tSelPostA
  note .assert

/-- SEL_DEASSERT (R122), only with `SEL = 0` (R123). -/
def selDeassert : Op Unit := do
  requireLines
  require (fun s => s.sel == some false) .selectNotLow
  requireClockLow
  dly .tSelPreD
  driveSel true
  dly .tSelPostD
  note .deassert

/-- One clock period of XFER (R124): drive the top bit of `SR` while the clock is low, sample while it is high, shift. -/
def xferBit (sr : Byte) : Op Byte := do
  driveDout sr.msb
  dly .tClkLow
  driveClk true
  let s ← sample
  dly .tClkHigh
  driveClk false
  pure (shiftIn sr s)

/-- The loop of XFER with `n` bits to go: `SR` and `BITCNT` follow each period (R124, R27). -/
def xferBits : Nat → Byte → Op Byte
  | 0, sr => pure sr
  | n + 1, sr => do
    let sr' ← xferBit sr
    update fun s => { s with sr := sr', bitcnt := BitVec.ofNat 4 n }
    xferBits n sr'

/-- XFER (R124), only between an assert and its deassert (R127). -/
def xfer (out : Byte) : Op Byte := do
  requireLines
  require (fun s => s.sel == some false) .selectNotLow
  requireClockLow
  update fun s => { s with sr := out, bitcnt := 8#4 }
  let inn ← xferBits 8 out
  note (.xfer out inn)
  pure inn

/-- DELAY (R128), called directly. -/
def delay (p : DelayName) : Op Unit := do
  dly p
  note (.delay p)

/-- The meaning of INIT. -/
def execInit (s : State) : Host.Outcome State Fault Refusal := finish busInit (fun _ => .none) s

/-- The meaning of SEL_ASSERT. -/
def execSelAssert (s : State) : Host.Outcome State Fault Refusal := finish selAssert (fun _ => .none) s

/-- The meaning of SEL_DEASSERT. -/
def execSelDeassert (s : State) : Host.Outcome State Fault Refusal := finish selDeassert (fun _ => .none) s

/-- The meaning of XFER: the in byte is its result. -/
def execXfer (out : Byte) (s : State) : Host.Outcome State Fault Refusal := finish (xfer out) .byte s

/-- The meaning of DELAY. -/
def execDelay (p : DelayName) (s : State) : Host.Outcome State Fault Refusal := finish (delay p) (fun _ => .none) s

end Sys2Proof.Machine
end

