-- ==== Sys2Proof/Machine/Flags.lean ====
section
/-! DEFINITION. The status flags: the combinational decode of a status byte by the masks of the parameter assignment
(10_state.md R34, 44_motion_decoder.md R183) and the fault test of POLL (60_exceptions.md R200, R211). -/

namespace Sys2Proof.Machine

/-- A flag is true when the mask's bit is 1 in the status byte (R183, D11). -/
def flagOf (mask s : Byte) : Bool := (s &&& mask) != 0#8

/-- "motion-occurred" of a status byte (R183). -/
def motOf (p : Params) (s : Byte) : Bool := flagOf p.maskMot s

/-- "fault" of a status byte (R183). -/
def faultOf (p : Params) (s : Byte) : Bool := flagOf p.maskFault s

/-- "laser-power-valid" of a status byte (R183). -/
def lpvOf (p : Params) (s : Byte) : Bool := flagOf p.maskLpValid s

/-- The fault test of POLL, step 3: laser power not valid, or fault (R184, R211). -/
def faultTest (p : Params) (s : Byte) : Bool := !lpvOf p s || faultOf p s

/-- `F_MOT`, the decode of `H_STATUS` (R34). -/
def State.fMot (s : State) : Bool := motOf s.cfg s.hStatus

/-- `F_FAULT` (R34). -/
def State.fFault (s : State) : Bool := faultOf s.cfg s.hStatus

/-- `F_LPV` (R34). -/
def State.fLpv (s : State) : Bool := lpvOf s.cfg s.hStatus

end Sys2Proof.Machine
end

