-- ==== Sys2Proof/Machine/RegisterAccess.lean ====
section
/-! DEFINITION. The Register Access Protocol (41_register_access.md): WRREG and RDREG, over the W and R frames
(30_encoding.md R91, R92), and what a read called singly must keep: the order of the delta registers and a valid status
(20_memory.md R67, R68; 93_implementation_defined.md U1, U2). -/

namespace Sys2Proof.Machine

/-- WRREG, one W frame (R91, R141): the two in bytes are discarded. -/
def writeReg (a : Addr) (v : Byte) : Op Unit := do
  selAssert
  let s ← get
  let _ ← xfer (markW s.cfg a)
  delay .tWrPhase
  let _ ← xfer v
  selDeassert
  delay .tInterTxn

/-- One R frame with the byte `d` on DOUT in the data phase (R92, R99, R143): the second in byte is the value. -/
def readFrame (a : Addr) (d : Byte) : Op Byte := do
  selAssert
  let s ← get
  let _ ← xfer (markR s.cfg a)
  delay .tRdAddrData
  let v ← xfer d
  selDeassert
  delay .tInterTxn
  pure v

/-- RDREG: the R frame whose data phase carries `DUMMY_BYTE` (R143). -/
def readReg (a : Addr) : Op Byte := do
  let s ← get
  readFrame a s.cfg.dummyByte

/-- The four delta registers in the fixed order of reading (R67). -/
def deltaAddrs (p : Params) : List Addr := [p.addrDeltaXL, p.addrDeltaXH, p.addrDeltaYL, p.addrDeltaYH]

/-- The place of a register in that order, if it is a delta register. -/
def deltaPlace (p : Params) (a : Addr) : Option Nat := (deltaAddrs p).findIdx? (· == a)

/-- The place of the delta register a transaction reads. -/
def deltaRead (p : Params) : Txn → Option Nat
  | .read a _ => deltaPlace p a
  | _ => none

/-- The status byte a transaction reads. -/
def statusRead (p : Params) : Txn → Option Byte
  | .read a v => if a = p.addrMotion then some v else none
  | _ => none

/-- The place of the delta register whose turn it is after the transactions `ts`: the one after the last read, in a cycle,
or the first (R67; log entry 13). -/
def nextDelta (p : Params) (ts : List Txn) : Nat :=
  match ts.reverse.findSome? (deltaRead p) with
  | some k => (k + 1) % 4
  | none => 0

/-- The last status byte read, if one was, is valid (R68; log entry 13). -/
def statusValid (p : Params) (ts : List Txn) : Bool :=
  match ts.reverse.findSome? (statusRead p) with
  | some v => !faultTest p v
  | none => true

/-- Reading `a` keeps the fixed order of the delta registers (R67, R242). -/
def State.inDeltaOrder (a : Addr) (s : State) : Bool :=
  match deltaPlace s.cfg a with
  | some k => k == nextDelta s.cfg s.t2
  | none => true

/-- Reading `a` reads no delta register under an invalid status (R68, R243). -/
def State.underValidStatus (a : Addr) (s : State) : Bool :=
  (deltaPlace s.cfg a).isNone || statusValid s.cfg s.t2

/-- A read frame called singly: refused where it would read a delta register out of the fixed order (U1) or under an
invalid status (U2). The block's own reads, in ST_DRAIN and POLL, keep both by their lists (log entry 13). -/
def singleRead (a : Addr) (d : Byte) : Op Byte := do
  requireIdle
  require (State.inDeltaOrder a) .deltaOrder
  require (State.underValidStatus a) .deltaStatus
  readFrame a d

/-- RDREG called singly. -/
def singleReadReg (a : Addr) : Op Byte := do
  let s ← get
  singleRead a s.cfg.dummyByte

/-- The meaning of WRREG. -/
def execWrreg (a : Addr) (v : Byte) (s : State) : Host.Outcome State Fault Refusal :=
  finish (writeReg a v) (fun _ => .none) s

/-- The meaning of RDREG: the value read is its result. -/
def execRdreg (a : Addr) (s : State) : Host.Outcome State Fault Refusal := finish (singleReadReg a) .byte s

end Sys2Proof.Machine
end

