-- ==== Sys2Proof/Machine/FirmwareLoader.lean ====
section
/-! DEFINITION. The Firmware Loader (42_firmware_loader.md): the burst frame (30_encoding.md R93), UPLOAD and VERIFY. -/

namespace Sys2Proof.Machine

/-- The loop of the burst from index `i` on: each byte, then the inter-byte delay, then `FWIDX` (R151). -/
def burstBytes : List Byte → Nat → Op Unit
  | [], _ => pure ()
  | b :: rest, i => do
    let _ ← xfer b
    delay .tBurstByte
    update (State.setFwidx (i + 1))
    burstBytes rest (i + 1)

/-- The burst frame: one select around the address byte and the data bytes in ascending order (R93, R151, R153). No
inter-transaction delay follows the deassert (R151 c). -/
def burstFrame (bytes : List Byte) : Op Unit := do
  selAssert
  let s ← get
  let _ ← xfer (markW s.cfg s.cfg.addrSromBurst)
  delay .tBurstByte
  update (State.setFwidx 0)
  burstBytes bytes 0
  selDeassert

/-- The burst of the firmware image (R151). -/
def burstImage : Op Unit := do
  let s ← get
  burstFrame s.cfg.fw

/-- UPLOAD (R151). -/
def upload : Op Unit := do
  let s ← get
  writeReg s.cfg.addrSromEnable s.cfg.cmdSromLoad
  delay .tLoadSettle
  burstImage

/-- VERIFY (R154): both reads are made, low first, then all 16 bits are compared. -/
def verify : Op Bool := do
  let s ← get
  writeReg s.cfg.addrSromEnable s.cfg.cmdSromVerify
  delay .tVerifySettle
  let lo ← readReg s.cfg.addrCodeLo
  update (State.setCodeLo lo)
  let hi ← readReg s.cfg.addrCodeHi
  update (State.setCodeHi hi)
  pure (codeOf hi lo == s.cfg.expectedCode)

/-- The meaning of UPLOAD. -/
def execUpload (s : State) : Host.Outcome State Fault Refusal := finish upload (fun _ => .none) s

/-- The meaning of VERIFY: Verified or Mismatch is its result. -/
def execVerify (s : State) : Host.Outcome State Fault Refusal := finish verify .verified s

end Sys2Proof.Machine
end

