-- ==== Sys2Proof/Machine/Frames.lean ====
section
/-! DEFINITION. The frames as operations: the four generic formats (30_encoding.md R91 to R94) and the 23 frames of R98,
each a shorthand for the operation R101 says it stands for. -/

namespace Sys2Proof.Machine

/-- The empty select cycle: select asserted and deasserted with no clock pulse (R94). -/
def selectCycle : Op Unit := do
  selAssert
  selDeassert

/-- The frame of WR_LASER_CTRL: the high nibble given, the low nibble zero (R98). In ST_LASERCFG the byte comes from H_LASER
(R169); called singly the frame carries the nibble of its word, whatever H_LASER holds (DESIGN CHOICE, log entry 25). -/
def writeLaser (h : BitVec 4) : Op Unit := do
  let s ← get
  writeReg s.cfg.addrLaserCtrl (laserData h)

/-- The meaning of FRAME_W. -/
def execFrameW (a : Addr) (d : Byte) (s : State) : Host.Outcome State Fault Refusal :=
  finish (writeReg a d) (fun _ => .none) s

/-- The meaning of FRAME_R. -/
def execFrameR (a : Addr) (d : Byte) (s : State) : Host.Outcome State Fault Refusal := finish (singleRead a d) .byte s

/-- The meaning of FRAME_B. -/
def execFrameB (bytes : List Byte) (s : State) : Host.Outcome State Fault Refusal :=
  finish (burstFrame bytes) (fun _ => .none) s

/-- The meaning of FRAME_Z. -/
def execFrameZ (s : State) : Host.Outcome State Fault Refusal := finish selectCycle (fun _ => .none) s

/-- The meaning of WR_POWER_UP_RESET. -/
def execWrPowerUpReset (s : State) : Host.Outcome State Fault Refusal :=
  finish (writeReg s.cfg.addrPowerUpReset s.cfg.cmdReset) (fun _ => .none) s

/-- The meaning of RD_MOTION. -/
def execRdMotion (s : State) : Host.Outcome State Fault Refusal := finish (singleReadReg s.cfg.addrMotion) .byte s

/-- The meaning of RD_DELTA_X_L. -/
def execRdDeltaXL (s : State) : Host.Outcome State Fault Refusal := finish (singleReadReg s.cfg.addrDeltaXL) .byte s

/-- The meaning of RD_DELTA_X_H. -/
def execRdDeltaXH (s : State) : Host.Outcome State Fault Refusal := finish (singleReadReg s.cfg.addrDeltaXH) .byte s

/-- The meaning of RD_DELTA_Y_L. -/
def execRdDeltaYL (s : State) : Host.Outcome State Fault Refusal := finish (singleReadReg s.cfg.addrDeltaYL) .byte s

/-- The meaning of RD_DELTA_Y_H. -/
def execRdDeltaYH (s : State) : Host.Outcome State Fault Refusal := finish (singleReadReg s.cfg.addrDeltaYH) .byte s

/-- The meaning of WR_SROM_LOAD. -/
def execWrSromLoad (s : State) : Host.Outcome State Fault Refusal :=
  finish (writeReg s.cfg.addrSromEnable s.cfg.cmdSromLoad) (fun _ => .none) s

/-- The meaning of BURST_SROM. -/
def execBurstSrom (s : State) : Host.Outcome State Fault Refusal := finish burstImage (fun _ => .none) s

/-- The meaning of RD_PRODUCT_ID. -/
def execRdProductId (s : State) : Host.Outcome State Fault Refusal := finish (singleReadReg s.cfg.addrProductId) .byte s

/-- The meaning of RD_INV_PRODUCT_ID. -/
def execRdInvProductId (s : State) : Host.Outcome State Fault Refusal :=
  finish (singleReadReg s.cfg.addrInvProductId) .byte s

/-- The meaning of WR_SROM_VERIFY. -/
def execWrSromVerify (s : State) : Host.Outcome State Fault Refusal :=
  finish (writeReg s.cfg.addrSromEnable s.cfg.cmdSromVerify) (fun _ => .none) s

/-- The meaning of RD_CODE_LO. -/
def execRdCodeLo (s : State) : Host.Outcome State Fault Refusal := finish (singleReadReg s.cfg.addrCodeLo) .byte s

/-- The meaning of RD_CODE_HI. -/
def execRdCodeHi (s : State) : Host.Outcome State Fault Refusal := finish (singleReadReg s.cfg.addrCodeHi) .byte s

/-- The meaning of RD_LASER_CTRL. -/
def execRdLaserCtrl (s : State) : Host.Outcome State Fault Refusal := finish (singleReadReg s.cfg.addrLaserCtrl) .byte s

/-- The meaning of WR_LASER_CTRL. -/
def execWrLaserCtrl (h : BitVec 4) (s : State) : Host.Outcome State Fault Refusal :=
  finish (writeLaser h) (fun _ => .none) s

/-- The meaning of RD_REVISION_ID. -/
def execRdRevisionId (s : State) : Host.Outcome State Fault Refusal := finish (singleReadReg s.cfg.addrRevisionId) .byte s

/-- The meaning of RD_OBSERVATION. -/
def execRdObservation (s : State) : Host.Outcome State Fault Refusal := finish (singleReadReg s.cfg.addrObservation) .byte s

/-- The meaning of RD_SROM_ID. -/
def execRdSromId (s : State) : Host.Outcome State Fault Refusal := finish (singleReadReg s.cfg.addrSromId) .byte s

/-- The meaning of RD_CONFIG_A. -/
def execRdConfigA (s : State) : Host.Outcome State Fault Refusal := finish (singleReadReg s.cfg.addrConfigA) .byte s

/-- The meaning of RD_CONFIG_B. -/
def execRdConfigB (s : State) : Host.Outcome State Fault Refusal := finish (singleReadReg s.cfg.addrConfigB) .byte s

/-- The meaning of RD_CONFIG_C. -/
def execRdConfigC (s : State) : Host.Outcome State Fault Refusal := finish (singleReadReg s.cfg.addrConfigC) .byte s

/-- The meaning of RD_CONFIG_D. -/
def execRdConfigD (s : State) : Host.Outcome State Fault Refusal := finish (singleReadReg s.cfg.addrConfigD) .byte s

/-- The meaning of SEL_CYCLE. -/
def execSelCycle (s : State) : Host.Outcome State Fault Refusal := finish selectCycle (fun _ => .none) s

end Sys2Proof.Machine
end

