-- ==== Sys2Proof/Machine/MotionDecoder.lean ====
section
/-! DEFINITION. The Motion Telemetry Decoder (44_motion_decoder.md): TESTCLR, STATUS_DECODE, POLL, DELTA16, and one
iteration of the steady-state loop (R180). -/

namespace Sys2Proof.Machine

/-- TESTCLR: one atomic test and clear of `PEND` (R181). -/
def testClear : Op Bool := fun s => .ok (s.pend, { s with pend := false })

/-- STATUS_DECODE: motion, fault, laser power valid (R183). -/
def statusDecode (v : Byte) : Op (Bool × Bool × Bool) := do
  let s ← get
  pure (motOf s.cfg v, faultOf s.cfg v, lpvOf s.cfg v)

/-- Step 4 of POLL: the four delta reads in the fixed order, then the sample (R184, R67). -/
def readSample : Op Unit := do
  let s ← get
  let xl ← readReg s.cfg.addrDeltaXL
  update (State.setDxl xl)
  let xh ← readReg s.cfg.addrDeltaXH
  update (State.setDxh xh)
  let yl ← readReg s.cfg.addrDeltaYL
  update (State.setDyl yl)
  let yh ← readReg s.cfg.addrDeltaYH
  update (State.setDyh yh)
  update (State.setDeltas (delta16 xl xh) (delta16 yl yh))
  update (State.emit (.motionSample (toInt16 (delta16 xl xh)) (toInt16 (delta16 yl yh))))

/-- Steps 2 to 5 of POLL: the status byte, then a fault, a sample or nothing (R184). -/
def pollReady : Op Unit := do
  let s ← get
  let st ← readReg s.cfg.addrMotion
  update (State.setStatus st)
  let (mot, fault, lpv) ← statusDecode st
  if !lpv || fault then update (State.emit (.motionFault st))
  else if mot then readSample
  else pure ()

/-- POLL: a no-op unless the Device State is Ready (R184 step 1, R214). -/
def poll : Op Unit := do
  let s ← get
  if s.dstate = .ready then pollReady else pure ()

/-- One iteration of the steady-state loop: test and clear, then poll if an event was pending (R180). -/
def loopIteration : Op Unit := do
  let t ← testClear
  if t then poll else pure ()

/-- The meaning of TESTCLR: the bit tested is its result. -/
def execTestclr (s : State) : Host.Outcome State Fault Refusal := finish testClear .bit s

/-- The meaning of POLL. -/
def execPoll (s : State) : Host.Outcome State Fault Refusal := finish poll (fun _ => .none) s

/-- The meaning of STATUS_DECODE: the three flags are its result. -/
def execStatusDecode (v : Byte) (s : State) : Host.Outcome State Fault Refusal :=
  finish (statusDecode v) (fun f => .flags f.1 f.2.1 f.2.2) s

/-- The meaning of DELTA16: the 16 bits are its result. -/
def execDelta16 (lo hi : Byte) (s : State) : Host.Outcome State Fault Refusal :=
  finish (pure (delta16 lo hi)) .half s

end Sys2Proof.Machine
end

