-- ==== Sys2Proof/Machine/InitStateMachine.lean ====
section
/-! DEFINITION. The Initialization State Machine (43_init_state_machine.md): the action of each Device State and the
register dump. Each ST_ operation is the action of one value of DSTATE and is refused in another (R160, log entry 12). -/

namespace Sys2Proof.Machine

/-- The failed states (R30). -/
def DState.isFailed : DState → Bool
  | .failed _ => true
  | _ => false

/-- ST_RESET (R161). -/
def stReset : Op Unit := do
  requireState (· == .reset)
  let s ← get
  busInit
  selAssert
  selDeassert
  writeReg s.cfg.addrPowerUpReset s.cfg.cmdReset
  update (State.goto .powerUp)

/-- ST_POWERUP (R162). -/
def stPowerup : Op Unit := do
  requireState (· == .powerUp)
  delay .tPowerUp
  update (State.goto .drain)

/-- ST_DRAIN (R163): five discard reads, stored nowhere. -/
def stDrain : Op Unit := do
  requireState (· == .drain)
  let s ← get
  let _ ← readReg s.cfg.addrMotion
  let _ ← readReg s.cfg.addrDeltaXL
  let _ ← readReg s.cfg.addrDeltaXH
  let _ ← readReg s.cfg.addrDeltaYL
  let _ ← readReg s.cfg.addrDeltaYH
  update (State.goto .firmwareUpload)

/-- ST_FWUPLOAD (R164). -/
def stFwupload : Op Unit := do
  requireState (· == .firmwareUpload)
  upload
  update (State.goto .productIdCheck)

/-- The outcome of a check: the next state, or the failure with its raw bytes (R165 to R167, R203). -/
def State.check (ok : Bool) (d : DState) (reason : Reason) (info : List Byte) (s : State) : State :=
  if ok then s.goto d else s.raiseFailed reason info

/-- ST_PIDCHECK (R165). -/
def stPidcheck : Op Unit := do
  requireState (· == .productIdCheck)
  let s ← get
  let v ← readReg s.cfg.addrProductId
  update (State.setPid v)
  update (State.check (v == s.cfg.productIdExpected) .inverseIdCheck .productIdMismatch [v])

/-- ST_IPIDCHECK (R166): the product id is H_PID, the byte ST_PIDCHECK read (D32). -/
def stIpidcheck : Op Unit := do
  requireState (· == .inverseIdCheck)
  let s ← get
  let v ← readReg s.cfg.addrInvProductId
  update (State.setIpid v)
  update fun s => s.check ((v ^^^ s.hPid) == 0xFF#8) .integrityCheck .inverseIdMismatch [v]

/-- The two code bytes as VERIFY left them, low first (R167). -/
def State.codeBytes (s : State) : List Byte := [s.hCodeLo, s.hCodeHi]

/-- ST_INTEGRITY (R167). -/
def stIntegrity : Op Unit := do
  requireState (· == .integrityCheck)
  let ok ← verify
  update fun s => s.check ok .laserConfig .integrityMismatch s.codeBytes

/-- ST_LASERCFG (R169): the write-back keeps the high nibble and clears the low one, and is always made. -/
def stLasercfg : Op Unit := do
  requireState (· == .laserConfig)
  let s ← get
  let v ← readReg s.cfg.addrLaserCtrl
  update (State.setLaser v)
  writeReg s.cfg.addrLaserCtrl (clearLowNibble v)
  update (State.goto .ready)

/-- The labels and addresses of the dump, in its order (R172). -/
def dumpList (p : Params) : List (DumpLabel × Addr) :=
  [(.productId, p.addrProductId), (.revisionId, p.addrRevisionId), (.motion, p.addrMotion),
   (.observation, p.addrObservation), (.sromId, p.addrSromId), (.configA, p.addrConfigA), (.configB, p.addrConfigB),
   (.configC, p.addrConfigC), (.configD, p.addrConfigD)]

/-- Read and report each register in turn (R172). -/
def dumpRegs : List (DumpLabel × Addr) → Op Unit
  | [] => pure ()
  | (l, a) :: rest => do
    let v ← readReg a
    update (State.setDump v)
    update (State.emit (.regDump l v))
    dumpRegs rest

/-- DUMP (R172). -/
def dump : Op Unit := do
  let s ← get
  dumpRegs (dumpList s.cfg)

/-- The first element of ST_READY's list: the dump, once, where it is enabled (R170); then the loop is reached. -/
def readyDump : Op Unit := do
  let s ← get
  if s.cfg.dumpEnable && !s.dumped then
    dump
    update State.setDumped
  else pure ()
  update (State.setSeqpos 1)

/-- ST_READY (R170): one element of its endless list a step: the dump element at position 0, a loop iteration after. -/
def stReady : Op Unit := do
  requireState (· == .ready)
  let s ← get
  if s.seqpos = 0 then readyDump else loopIteration

/-- ST_FAILED (R171): one iteration of its endless loop a step. -/
def stFailed : Op Unit := do
  requireState DState.isFailed
  loopIteration

/-- The meaning of ST_RESET. -/
def execStReset (s : State) : Host.Outcome State Fault Refusal := finish stReset (fun _ => .none) s

/-- The meaning of ST_POWERUP. -/
def execStPowerup (s : State) : Host.Outcome State Fault Refusal := finish stPowerup (fun _ => .none) s

/-- The meaning of ST_DRAIN. -/
def execStDrain (s : State) : Host.Outcome State Fault Refusal := finish stDrain (fun _ => .none) s

/-- The meaning of ST_FWUPLOAD. -/
def execStFwupload (s : State) : Host.Outcome State Fault Refusal := finish stFwupload (fun _ => .none) s

/-- The meaning of ST_PIDCHECK. -/
def execStPidcheck (s : State) : Host.Outcome State Fault Refusal := finish stPidcheck (fun _ => .none) s

/-- The meaning of ST_IPIDCHECK. -/
def execStIpidcheck (s : State) : Host.Outcome State Fault Refusal := finish stIpidcheck (fun _ => .none) s

/-- The meaning of ST_INTEGRITY. -/
def execStIntegrity (s : State) : Host.Outcome State Fault Refusal := finish stIntegrity (fun _ => .none) s

/-- The meaning of ST_LASERCFG. -/
def execStLasercfg (s : State) : Host.Outcome State Fault Refusal := finish stLasercfg (fun _ => .none) s

/-- The meaning of ST_READY. -/
def execStReady (s : State) : Host.Outcome State Fault Refusal := finish stReady (fun _ => .none) s

/-- The meaning of ST_FAILED. -/
def execStFailed (s : State) : Host.Outcome State Fault Refusal := finish stFailed (fun _ => .none) s

/-- The meaning of DUMP. -/
def execDump (s : State) : Host.Outcome State Fault Refusal := finish dump (fun _ => .none) s

end Sys2Proof.Machine
end

