-- ==== Sys2Proof/Machine/Dispatch.lean ====
section
/-! DEFINITION. One arm per row of spec/opcode_table.json. -/

namespace Sys2Proof.Machine

/-- The meaning of an instruction. -/
def exec (i : Instr) (s : State) : Host.Outcome State Fault Refusal :=
  match i with
  | .frameW a d => Sys2Proof.Machine.execFrameW a d s
  | .frameR a d => Sys2Proof.Machine.execFrameR a d s
  | .frameB bytes => Sys2Proof.Machine.execFrameB bytes s
  | .frameZ => Sys2Proof.Machine.execFrameZ s
  | .wrPowerUpReset => Sys2Proof.Machine.execWrPowerUpReset s
  | .rdMotion => Sys2Proof.Machine.execRdMotion s
  | .rdDeltaXL => Sys2Proof.Machine.execRdDeltaXL s
  | .rdDeltaXH => Sys2Proof.Machine.execRdDeltaXH s
  | .rdDeltaYL => Sys2Proof.Machine.execRdDeltaYL s
  | .rdDeltaYH => Sys2Proof.Machine.execRdDeltaYH s
  | .wrSromLoad => Sys2Proof.Machine.execWrSromLoad s
  | .burstSrom => Sys2Proof.Machine.execBurstSrom s
  | .rdProductId => Sys2Proof.Machine.execRdProductId s
  | .rdInvProductId => Sys2Proof.Machine.execRdInvProductId s
  | .wrSromVerify => Sys2Proof.Machine.execWrSromVerify s
  | .rdCodeLo => Sys2Proof.Machine.execRdCodeLo s
  | .rdCodeHi => Sys2Proof.Machine.execRdCodeHi s
  | .rdLaserCtrl => Sys2Proof.Machine.execRdLaserCtrl s
  | .wrLaserCtrl h => Sys2Proof.Machine.execWrLaserCtrl h s
  | .rdRevisionId => Sys2Proof.Machine.execRdRevisionId s
  | .rdObservation => Sys2Proof.Machine.execRdObservation s
  | .rdSromId => Sys2Proof.Machine.execRdSromId s
  | .rdConfigA => Sys2Proof.Machine.execRdConfigA s
  | .rdConfigB => Sys2Proof.Machine.execRdConfigB s
  | .rdConfigC => Sys2Proof.Machine.execRdConfigC s
  | .rdConfigD => Sys2Proof.Machine.execRdConfigD s
  | .selCycle => Sys2Proof.Machine.execSelCycle s
  | .init => Sys2Proof.Machine.execInit s
  | .selAssert => Sys2Proof.Machine.execSelAssert s
  | .selDeassert => Sys2Proof.Machine.execSelDeassert s
  | .xfer out => Sys2Proof.Machine.execXfer out s
  | .delay p => Sys2Proof.Machine.execDelay p s
  | .wrreg a v => Sys2Proof.Machine.execWrreg a v s
  | .rdreg a => Sys2Proof.Machine.execRdreg a s
  | .upload => Sys2Proof.Machine.execUpload s
  | .verify => Sys2Proof.Machine.execVerify s
  | .stReset => Sys2Proof.Machine.execStReset s
  | .stPowerup => Sys2Proof.Machine.execStPowerup s
  | .stDrain => Sys2Proof.Machine.execStDrain s
  | .stFwupload => Sys2Proof.Machine.execStFwupload s
  | .stPidcheck => Sys2Proof.Machine.execStPidcheck s
  | .stIpidcheck => Sys2Proof.Machine.execStIpidcheck s
  | .stIntegrity => Sys2Proof.Machine.execStIntegrity s
  | .stLasercfg => Sys2Proof.Machine.execStLasercfg s
  | .stReady => Sys2Proof.Machine.execStReady s
  | .stFailed => Sys2Proof.Machine.execStFailed s
  | .dump => Sys2Proof.Machine.execDump s
  | .testclr => Sys2Proof.Machine.execTestclr s
  | .poll => Sys2Proof.Machine.execPoll s
  | .statusDecode v => Sys2Proof.Machine.execStatusDecode v s
  | .delta16 lo hi => Sys2Proof.Machine.execDelta16 lo hi s

end Sys2Proof.Machine
end

