-- ==== Sys2Proof/Machine/Fetch.lean ====
section
/-! DEFINITION. What runs next (10_state.md R31, R32; 43_init_state_machine.md R160): the hardwired operation of the Device
State, unless a test bench has called a word; and how a word is placed for the next step (log entries 1 and 3). -/

namespace Sys2Proof.Machine

/-- The operation that is the action of a Device State (R160). -/
def hardwired : DState → Instr
  | .reset => .stReset
  | .powerUp => .stPowerup
  | .drain => .stDrain
  | .firmwareUpload => .stFwupload
  | .productIdCheck => .stPidcheck
  | .inverseIdCheck => .stIpidcheck
  | .integrityCheck => .stIntegrity
  | .laserConfig => .stLasercfg
  | .ready => .stReady
  | .failed _ => .stFailed

/-- The next operation and the state it runs in: the bench's first word, taken off its queue, else the hardwired one. -/
def fetch (s : State) : Except Refusal (Instr × State) :=
  match s.bench with
  | [] => .ok (hardwired s.dstate, s)
  | w :: rest =>
    match decode s.cfg w with
    | .ok i => .ok (i, { s with bench := rest })
    | .error e => .error (.undecodable e)

/-- What follows an operation: the event source may move (R208). -/
def environment : Host.Outcome State Fault Refusal → Host.Outcome State Fault Refusal
  | .next t => .next t.eventMove
  | .fault f => .fault f
  | .refused r => .refused r

/-- The lines configured and idle, as INIT leaves them (R120), unless they are so. -/
def State.placeIdle (s : State) : State :=
  if s.linesCfg && s.sel == some true && s.clk == some false then s
  else { s with linesCfg := true, sel := some true, clk := some false, dout := some false }

/-- The same with select asserted, as SEL_ASSERT leaves it (R121), unless it is so. -/
def State.placeSelected (s : State) : State :=
  if s.linesCfg && s.sel == some false && s.clk == some false then s
  else { s with linesCfg := true, sel := some false, clk := some false, dout := some false }

/-- The delta registers before place `k` in the fixed order are read, by at most `n` reads of the block's own, so that the
read of that place is next (R67). -/
def State.placeDelta (k : Nat) : Nat → State → State
  | 0, s => s
  | n + 1, s =>
    if nextDelta s.cfg s.t2 = k then s
    else match readReg ((deltaAddrs s.cfg).getD (nextDelta s.cfg s.t2) s.cfg.addrDeltaXL) s with
      | .ok (_, t) => State.placeDelta k n t
      | .error _ => s

/-- Idle lines, and for a delta register its turn (R67). -/
def State.placeRead (a : Addr) (s : State) : State :=
  match deltaPlace s.cfg a with
  | some k => State.placeDelta k 3 s.placeIdle
  | none => s.placeIdle

/-- The block as the sequencer has it where an operation is next: the Device State whose action it is, and the lines it
needs (P4 starts "after INIT only"); before a delta
register those before it were read (R67). -/
def State.placeFor (i : Instr) (s : State) : State :=
  match i with
  | .init | .delay _ | .testclr | .poll | .statusDecode _ | .delta16 _ _ => s
  | .stReset => { s with dstate := .reset, seqpos := 0 }
  | .stPowerup => { s with dstate := .powerUp, seqpos := 0 }
  | .stFailed => if s.dstate.isFailed then s else { s with dstate := .failed .productIdMismatch, seqpos := 0 }
  | .xfer _ | .selDeassert => s.placeSelected
  | .stDrain => { s.placeIdle with dstate := .drain, seqpos := 0 }
  | .stFwupload => { s.placeIdle with dstate := .firmwareUpload, seqpos := 0 }
  | .stPidcheck => { s.placeIdle with dstate := .productIdCheck, seqpos := 0 }
  | .stIpidcheck => { s.placeIdle with dstate := .inverseIdCheck, seqpos := 0 }
  | .stIntegrity => { s.placeIdle with dstate := .integrityCheck, seqpos := 0 }
  | .stLasercfg => { s.placeIdle with dstate := .laserConfig, seqpos := 0 }
  | .stReady => { s.placeIdle with dstate := .ready, seqpos := 0 }
  | .rdreg a | .frameR a _ => s.placeRead a
  | .rdDeltaXL => s.placeRead s.cfg.addrDeltaXL
  | .rdDeltaXH => s.placeRead s.cfg.addrDeltaXH
  | .rdDeltaYL => s.placeRead s.cfg.addrDeltaYL
  | .rdDeltaYH => s.placeRead s.cfg.addrDeltaYH
  | _ => s.placeIdle

/-- The word placed at the head of the bench queue, and the block where that word's operation can be next. -/
def State.placeWord (w : CodeWord) (s : State) : State :=
  match decode s.cfg w with
  | .ok i => { s.placeFor i with bench := w :: s.bench }
  | .error _ => { s with bench := w :: s.bench }

end Sys2Proof.Machine
end

