-- ==== Sys2Proof/Machine/Step.lean ====
section
/-! DEFINITION. One step of the block: one operation to completion (10_state.md R31, R32), then the event source's move
(60_exceptions.md R208). A parameter assignment that fails 00_scope.md R9 is refused. -/

namespace Sys2Proof.Machine

/-- One step. -/
def step (s : State) : Host.Outcome State Fault Refusal :=
  if s.cfg.wf then
    match fetch s with
    | .ok (i, t) => environment (exec i t)
    | .error r => .refused r
  else .refused .parameters

/-- The state with a table row's word placed where the next step runs it (log entry 1). -/
def State.withFetchWord (s : State) (nbits w : Nat) : State := s.placeWord (tableWord s.cfg nbits w)

end Sys2Proof.Machine
end

