-- ==== Sys2Proof/Safety.lean ====
section
/-! DEFINITION. The terms claims are stated in: when the lines are idle or selected (10_state.md R44), what the samples to
come make (40_bus_primitive.md R124), the line events of a call (10_state.md R39, R40), the state each frame leaves
(41_register_access.md R142, R144; 42_firmware_loader.md R152), quiescence (70_reset_and_hazards.md R238), and the
invariants of the machine. -/

namespace Sys2Proof.Machine

/-- Between frames: lines configured, select deasserted, clock low (R44). -/
abbrev State.Idle (s : State) : Prop := s.linesCfg = true ∧ s.sel = some true ∧ s.clk = some false

/-- Inside a frame, between transfers: select asserted, clock low (R127). -/
abbrev State.Selected (s : State) : Prop := s.linesCfg = true ∧ s.sel = some false ∧ s.clk = some false

/-- A single read of `a` is allowed: a delta register only in its turn and under a valid status (R67, R68, U1, U2). -/
abbrev State.MayRead (a : Addr) (s : State) : Prop := s.inDeltaOrder a = true ∧ s.underValidStatus a = true

/-- The last call closed a write or a read frame (R142, R144): the frame's calls end the call trace, its address byte has the
marker of its kind. -/
def State.JustClosedAccess (s : State) : Prop :=
  ∃ (cs : List Call) (b i d j : Byte),
    (s.t1 = cs ++ [.assert, .xfer b i, .delay .tWrPhase, .xfer d j, .deassert] ∧ markerOf b = s.cfg.writeMarker) ∨
    (s.t1 = cs ++ [.assert, .xfer b i, .delay .tRdAddrData, .xfer d j, .deassert] ∧ markerOf b ≠ s.cfg.writeMarker)

/-- Eight bits as a byte, the first in bit 7 (R71, R124). -/
def byteOf (f : Nat → Bool) : Byte :=
  BitVec.ofBool (f 0) ++ BitVec.ofBool (f 1) ++ BitVec.ofBool (f 2) ++ BitVec.ofBool (f 3) ++
    BitVec.ofBool (f 4) ++ BitVec.ofBool (f 5) ++ BitVec.ofBool (f 6) ++ BitVec.ofBool (f 7)

/-- The `k`-th byte of a stream of samples: samples `8k` to `8k + 7`. -/
def byteIn (din : List Bool) (c k : Nat) : Byte := byteOf fun j => sampleOf din c (8 * k + j)

/-- The in byte of the `k`-th XFER from here on, counted from 0. -/
def State.inByte (s : State) (k : Nat) : Byte := byteIn s.din s.dinCount k

/-- `n` samples have been taken. -/
def State.taken (s : State) (n : Nat) : State :=
  { s with din := s.din.drop n, dinCount := s.dinCount + (n - s.din.length) }

/-- The line events of one clock period of XFER (R124). -/
def bitEvents (o i : Byte) (k : Nat) : List LineEvent :=
  [.dout (o.getLsbD k), .dly .tClkLow, .clk true, .din (i.getLsbD k), .dly .tClkHigh, .clk false]

/-- The line events a call consists of (R120, R121, R122, R124, R128). -/
def Call.events : Call → List LineEvent
  | .init => [.cfg, .sel true, .clk false, .dout false]
  | .assert => [.dly .tSelPreA, .sel false, .dly .tSelPostA]
  | .deassert => [.dly .tSelPreD, .sel true, .dly .tSelPostD]
  | .xfer o i => [7, 6, 5, 4, 3, 2, 1, 0].flatMap (bitEvents o i)
  | .delay p => [.dly p]

/-- The line events of a list of calls. -/
def eventsOf (cs : List Call) : List LineEvent := cs.flatMap Call.events

/-- Both traces have grown by a list of calls. -/
def State.traced (s : State) (cs : List Call) : State := { s with t0 := s.t0 ++ eventsOf cs, t1 := s.t1 ++ cs }

/-- The registers of the bus after `n` more in bytes, the last byte out being `o` (R26, R27, R23). -/
def State.shifted (s : State) (n : Nat) (o : Byte) : State :=
  { s.taken (8 * n) with sr := s.inByte (n - 1), bitcnt := 0#4, dout := some (o.getLsbD 0) }

/-- The state after SEL_ASSERT from idle lines (R121). -/
def State.afterAssert (s : State) : State := { s.traced [.assert] with sel := some false, frame := [] }

/-- The state after SEL_DEASSERT of a selected device (R122): `T2` gains what the closed frame is (R40). -/
def State.afterDeassert (s : State) : State :=
  { s.traced [.deassert] with sel := some true, t2 := s.t2 ++ classify s.cfg s.frame, frame := [] }

/-- The state after XFER of `out` (R124); its in byte is `s.inByte 0`. -/
def State.afterXfer (out : Byte) (s : State) : State :=
  { (s.shifted 1 out).traced [.xfer out (s.inByte 0)] with frame := s.frame ++ [.xfer out (s.inByte 0)] }

/-- The state after a delay inside a frame (R128). -/
def State.afterDelayIn (p : DelayName) (s : State) : State :=
  { s.traced [.delay p] with frame := s.frame ++ [.delay p] }

/-- The state after a delay outside a frame (R128): a `Wait`, or the trailing delay of a W or R frame (R40, R142). -/
def State.afterDelayOut (p : DelayName) (s : State) : State :=
  { s.traced [.delay p] with t2 := s.t2 ++ waitTxn s p }

/-- The calls of WRREG with the in bytes `i1`, `i2` (R142). -/
def writeCalls (p : Params) (a : Addr) (v i1 i2 : Byte) : List Call :=
  [.assert, .xfer (markW p a) i1, .delay .tWrPhase, .xfer v i2, .deassert, .delay .tInterTxn]

/-- The calls of an R frame with data byte `d` on DOUT and in bytes `i1`, `v` (R144). -/
def readCalls (p : Params) (a : Addr) (d i1 v : Byte) : List Call :=
  [.assert, .xfer (markR p a) i1, .delay .tRdAddrData, .xfer d v, .deassert, .delay .tInterTxn]

/-- The calls of the burst's data bytes, the `k`-th byte's in byte being `inn k` (R152). -/
def burstDataCalls (inn : Nat → Byte) : List Byte → Nat → List Call
  | [], _ => []
  | b :: rest, k => .xfer b (inn k) :: .delay .tBurstByte :: burstDataCalls inn rest (k + 1)

/-- The calls of the burst frame (R152). -/
def burstCalls (p : Params) (inn : Nat → Byte) (bytes : List Byte) : List Call :=
  [.assert, .xfer (markW p p.addrSromBurst) (inn 0), .delay .tBurstByte] ++ burstDataCalls inn bytes 1 ++ [.deassert]

/-- The state after WRREG (R141, R142): 16 samples taken, `SR` the second in byte, the traces longer, nothing else. -/
def State.afterWrite (a : Addr) (v : Byte) (s : State) : State :=
  { (s.shifted 2 v).traced (writeCalls s.cfg a v (s.inByte 0) (s.inByte 1)) with
    t2 := s.t2 ++ [.write a v], frame := [] }

/-- The state after an R frame (R143, R144); its value is `s.inByte 1`. -/
def State.afterReadFrame (a : Addr) (d : Byte) (s : State) : State :=
  { (s.shifted 2 d).traced (readCalls s.cfg a d (s.inByte 0) (s.inByte 1)) with
    t2 := s.t2 ++ [.read a (s.inByte 1)], frame := [] }

/-- The state after RDREG (R143, R144). -/
def State.afterRead (a : Addr) (s : State) : State := s.afterReadFrame a s.cfg.dummyByte

/-- The state after the burst frame (R151, R152). -/
def State.afterBurst (bytes : List Byte) (s : State) : State :=
  { (s.shifted (bytes.length + 1) (bytes.getLast?.getD (markW s.cfg s.cfg.addrSromBurst))).traced
      (burstCalls s.cfg s.inByte bytes) with
    t2 := s.t2 ++ [.burst s.cfg.addrSromBurst bytes], frame := [], fwidx := bytes.length }

/-- The state after a delay that is a `Wait` of its own (R40). -/
def State.afterWait (p : DelayName) (s : State) : State :=
  { s.traced [.delay p] with t2 := s.t2 ++ [.wait p] }

/-- The state after the empty select cycle (R94). -/
def State.afterCycle (s : State) : State :=
  { s.traced [.assert, .deassert] with t2 := s.t2 ++ [.selCycle], frame := [] }

/-- The state after INIT (R120). -/
def State.afterInit (s : State) : State :=
  { s.traced [.init] with
    linesCfg := true, sel := some true, clk := some false, dout := some false, t2 := s.t2 ++ [.init], frame := [] }

/-- The state after UPLOAD (R151). -/
def State.afterUpload (s : State) : State :=
  ((s.afterWrite s.cfg.addrSromEnable s.cfg.cmdSromLoad).afterWait .tLoadSettle).afterBurst s.cfg.fw

/-- One dump step: the register read, stored in `H_DUMP` and reported (R172). -/
def State.afterDumpRead (l : DumpLabel) (a : Addr) (s : State) : State :=
  ((s.afterRead a).setDump (s.inByte 1)).emit (.regDump l (s.inByte 1))

/-- The in byte VERIFY stores as the low code byte: the fourth of its six. -/
def State.codeLo (s : State) : Byte := s.inByte 3

/-- The in byte VERIFY stores as the high code byte: the sixth of its six. -/
def State.codeHi (s : State) : Byte := s.inByte 5

/-- The state after VERIFY (R154): low byte read first, both bytes stored. -/
def State.afterVerify (s : State) : State :=
  let s1 := (s.afterWrite s.cfg.addrSromEnable s.cfg.cmdSromVerify).afterWait .tVerifySettle
  ((s1.afterRead s.cfg.addrCodeLo).setCodeLo s.codeLo |>.afterRead s.cfg.addrCodeHi).setCodeHi s.codeHi

/-- The state is quiescent (R238): terminal, in the steady-state loop, no event pending, nothing called from outside. -/
def State.Quiescent (s : State) : Prop :=
  ((s.dstate = .ready ∧ s.seqpos ≠ 0) ∨ s.dstate.isFailed = true) ∧ s.pend = false ∧ s.bench = []

/-- The transitions of R160, a state's stay included only where the table loops. -/
def Transition : DState → DState → Prop
  | .reset, d => d = .powerUp
  | .powerUp, d => d = .drain
  | .drain, d => d = .firmwareUpload
  | .firmwareUpload, d => d = .productIdCheck
  | .productIdCheck, d => d = .inverseIdCheck ∨ d = .failed .productIdMismatch
  | .inverseIdCheck, d => d = .integrityCheck ∨ d = .failed .inverseIdMismatch
  | .integrityCheck, d => d = .laserConfig ∨ d = .failed .integrityMismatch
  | .laserConfig, d => d = .ready
  | .ready, d => d = .ready
  | .failed r, d => d = .failed r

/-- `k` steps on end, stopping at the first fault or refusal. -/
def steps : Nat → State → Host.Outcome State Fault Refusal
  | 0, s => .next s
  | k + 1, s =>
    match step s with
    | .next t => steps k t
    | .fault f => .fault f
    | .refused r => .refused r

/-- The number of InitFailed events in a list of output events. -/
def failures (out : List OutEvent) : Nat :=
  out.countP fun e => match e with
    | .initFailed _ _ => true
    | _ => false

/-- The lines hold a value exactly when configured, and the clock is low between operations (R22, R36, R42); `BITCNT` is
0 between transfers (R27). -/
def State.LinesInv (s : State) : Prop :=
  s.bitcnt = 0#4 ∧ (s.linesCfg = false → s.sel = none ∧ s.clk = none ∧ s.dout = none) ∧
    (s.linesCfg = true → s.sel.isSome = true ∧ s.clk = some false ∧ s.dout.isSome = true)

/-- `T0` is the line events of `T1`'s calls, in order (R40). -/
def State.TraceInv (s : State) : Prop := s.t0 = eventsOf s.t1

/-- A failure is recorded exactly in a failed state, and once (R35, R203). -/
def State.FailureInv (s : State) : Prop :=
  (s.dstate.isFailed = true ↔ s.failinfo.isSome = true) ∧ failures s.out = (if s.dstate.isFailed then 1 else 0) ∧
    ∀ r, s.dstate = .failed r → ∃ bytes, s.failinfo = some bytes ∧ OutEvent.initFailed r bytes ∈ s.out

/-- In the inverse-id check H_PID holds the expected product id, and a read of the product id returned it (R165, R28). -/
def State.PidWritten (s : State) : Prop :=
  s.dstate = .inverseIdCheck → s.hPid = s.cfg.productIdExpected ∧ Txn.read s.cfg.addrProductId s.hPid ∈ s.t2

/-- Where the block's own sequencer keeps the machine: nothing called from outside; before ST_RESET anything, after it
idle lines; in the inverse-id check the product id is the expected one (R44, R160, R166). -/
def State.Own (s : State) : Prop :=
  s.bench = [] ∧ (s.dstate ≠ .reset → s.Idle) ∧
    (s.dstate = .inverseIdCheck → s.hPid = s.cfg.productIdExpected)

end Sys2Proof.Machine
end

