-- ==== Sys2Proof/Certificates/Slice0/Obligations.lean ====
section
/-! DEFINITION. The statements for the provers, grouped by the family of the table they are about. Each docstring names the
rule it formalises. Whole next states also fix the model's own fields: `frame` (log entry 8), `ret` (log entry 9), the input
queues (log entries 6 and 7), and `seqpos`, counted in this model's steps (log entry 2). -/

namespace Sys2Proof.Machine

/-- The answer "next, with this result for the caller". -/
abbrev answers (t : State) (r : Ret) : Host.Outcome State Fault Refusal := .next { t with ret := r }

/-- A lifetime's start with any inputs to come: the reset state of a parameter assignment, the samples and edges open
(R42, R38). -/
def State.start (p : Params) (din : List Bool) (c : Nat) (edges : List (Option Edge)) (n : Nat) : State :=
  { State.resetWith p with din := din, dinCount := c, edges := edges, edgeCount := n }

/-- The four read checks of initialization, on the in bytes of the run (95_test_vectors.md section 5; index from 0). -/
def State.checksOutcome (s : State) (n : Nat) : DState :=
  if s.inByte (16 + n) ≠ s.cfg.productIdExpected then .failed .productIdMismatch
  else if s.inByte (18 + n) ^^^ s.inByte (16 + n) ≠ 0xFF#8 then .failed .inverseIdMismatch
  else if codeOf (s.inByte (24 + n)) (s.inByte (22 + n)) ≠ s.cfg.expectedCode then .failed .integrityMismatch
  else .ready

/-- The transactions of a successful initialization (R173), the in bytes read off the run. -/
def initTxns (s : State) : List Txn :=
  let p := s.cfg
  let n := p.fw.length
  [.init, .selCycle, .write p.addrPowerUpReset p.cmdReset, .wait .tPowerUp,
   .read p.addrMotion (s.inByte 3), .read p.addrDeltaXL (s.inByte 5), .read p.addrDeltaXH (s.inByte 7),
   .read p.addrDeltaYL (s.inByte 9), .read p.addrDeltaYH (s.inByte 11),
   .write p.addrSromEnable p.cmdSromLoad, .wait .tLoadSettle, .burst p.addrSromBurst p.fw,
   .read p.addrProductId p.productIdExpected, .read p.addrInvProductId (~~~p.productIdExpected),
   .write p.addrSromEnable p.cmdSromVerify, .wait .tVerifySettle,
   .read p.addrCodeLo (p.expectedCode.extractLsb' 0 8), .read p.addrCodeHi (p.expectedCode.extractLsb' 8 8),
   .read p.addrLaserCtrl (s.inByte (26 + n)), .write p.addrLaserCtrl (s.inByte (26 + n) &&& 0xF0#8)]

/-- The bytes a call trace sends: the out byte of every XFER, in order. -/
def outBytes (cs : List Call) : List Byte :=
  cs.filterMap fun c => match c with
    | .xfer o _ => some o
    | _ => none

/-- The length of `T0` at the end of initialization, by its outcome, for an image of `n` bytes (R174). -/
def initEvents (n : Nat) : DState → Nat
  | .failed .productIdMismatch => 899 + 49 * n
  | .failed .inverseIdMismatch => 1003 + 49 * n
  | .failed .integrityMismatch => 1316 + 49 * n
  | _ => 1524 + 49 * n

/-- The transactions the block sends: the frames of R98 with their field values, INIT and its three waits. -/
def listedTxn (p : Params) : Txn → Prop
  | .init => True
  | .selCycle => True
  | .wait d => d = .tPowerUp ∨ d = .tLoadSettle ∨ d = .tVerifySettle
  | .write a v => (a = p.addrPowerUpReset ∧ v = p.cmdReset) ∨ (a = p.addrSromEnable ∧ v = p.cmdSromLoad) ∨
      (a = p.addrSromEnable ∧ v = p.cmdSromVerify) ∨ (a = p.addrLaserCtrl ∧ v.extractLsb' 0 4 = 0#4)
  | .read a _ => a ∈ [p.addrMotion, p.addrDeltaXL, p.addrDeltaXH, p.addrDeltaYL, p.addrDeltaYH, p.addrProductId,
      p.addrInvProductId, p.addrCodeLo, p.addrCodeHi, p.addrLaserCtrl, p.addrRevisionId, p.addrObservation, p.addrSromId,
      p.addrConfigA, p.addrConfigB, p.addrConfigC, p.addrConfigD]
  | .burst a bytes => a = p.addrSromBurst ∧ bytes = p.fw

/-- The number of XFER calls in a call trace. -/
def xferCount (cs : List Call) : Nat :=
  cs.countP fun c => match c with
    | .xfer _ _ => true
    | _ => false

end Sys2Proof.Machine

open Sys2Proof Sys2Proof.Machine

/-! ### Bus Primitive -/

/-- R120: INIT configures the lines, leaves SEL = 1, CLK = 0, DOUT = 0, logs Cfg, Sel(1), Clk(0), Dout(0), and CInit and
Init; nothing else changes. -/
def Obligations.InitConfiguresAndIdlesTheLines : Prop :=
  ∀ s : State, exec .init s = .next { s with
    linesCfg := true, sel := some true, clk := some false, dout := some false,
    t0 := s.t0 ++ [.cfg, .sel true, .clk false, .dout false], t1 := s.t1 ++ [.init], t2 := s.t2 ++ [.init],
    frame := [], ret := .none }

/-- R121, R122: SEL_ASSERT from idle lines and SEL_DEASSERT from selected ones move SEL with a delay on each side of the
edge, log one call, and change nothing else; the deassert closes the frame in T2 (R40). -/
def Obligations.SelectEdgesMoveSelWithDelays : Prop :=
  (∀ s : State, s.Idle → exec .selAssert s = .next { s with
    sel := some false, t0 := s.t0 ++ [.dly .tSelPreA, .sel false, .dly .tSelPostA], t1 := s.t1 ++ [.assert],
    frame := [], ret := .none }) ∧
  (∀ s : State, s.Selected → exec .selDeassert s = .next { s with
    sel := some true, t0 := s.t0 ++ [.dly .tSelPreD, .sel true, .dly .tSelPostD], t1 := s.t1 ++ [.deassert],
    t2 := s.t2 ++ classify s.cfg s.frame, frame := [], ret := .none })

/-- R123, R127: outside their preconditions the select operations and XFER are refused, the first unmet condition naming
the refusal (their order is the model's choice: log entry 22). -/
def Obligations.MisusedBusPrimitivesAreRefused : Prop :=
  ∀ (s : State) (out : Byte),
    (s.linesCfg = false → exec .selAssert s = .refused .linesNotConfigured ∧
      exec .selDeassert s = .refused .linesNotConfigured ∧ exec (.xfer out) s = .refused .linesNotConfigured) ∧
    (s.linesCfg = true → s.sel ≠ some true → exec .selAssert s = .refused .selectNotHigh) ∧
    (s.linesCfg = true → s.sel ≠ some false →
      exec .selDeassert s = .refused .selectNotLow ∧ exec (.xfer out) s = .refused .selectNotLow) ∧
    (s.linesCfg = true → s.clk ≠ some false →
      (s.sel = some true → exec .selAssert s = .refused .clockNotLow) ∧
      (s.sel = some false → exec .selDeassert s = .refused .clockNotLow ∧ exec (.xfer out) s = .refused .clockNotLow))

/-- R124, R125: XFER takes eight samples, drives the out byte from bit 7 to bit 0, returns the samples as a byte with the
first in bit 7, logs six events a period, leaves SR at the in byte, BITCNT and CLK at 0, DOUT at bit 0 of the out byte. -/
def Obligations.XferExchangesOneByteMsbFirst : Prop :=
  ∀ (s : State) (out : Byte), s.Selected → ∃ inn : Byte,
    (∀ j < 8, inn.getLsbD (7 - j) = s.sampleAt j) ∧
    exec (.xfer out) s = .next { s.taken 8 with
      sr := inn, bitcnt := 0#4, dout := some (out.getLsbD 0), clk := some false,
      t0 := s.t0 ++ bitEvents out inn 7 ++ bitEvents out inn 6 ++ bitEvents out inn 5 ++ bitEvents out inn 4 ++
        bitEvents out inn 3 ++ bitEvents out inn 2 ++ bitEvents out inn 1 ++ bitEvents out inn 0,
      t1 := s.t1 ++ [.xfer out inn], frame := s.frame ++ [.xfer out inn], ret := .byte inn }

/-- R128: DELAY P, in any state, logs Dly(P) and CDelay(P) and changes no register. Inside a frame it is part of the frame;
outside one it is Wait(P) in T2, except that T_INTER_TXN right after a W or R frame belongs to that frame's event (R40, R142;
that it is a Wait after any other frame is log entry 8). -/
def Obligations.DelayLogsItsParameter : Prop :=
  ∀ (s : State) (p : DelayName),
    (s.sel = some false → exec (.delay p) s = .next { s with
      t0 := s.t0 ++ [.dly p], t1 := s.t1 ++ [.delay p], frame := s.frame ++ [.delay p], ret := .none }) ∧
    (s.sel ≠ some false → p = .tInterTxn ∧ s.JustClosedAccess → exec (.delay p) s = .next { s with
      t0 := s.t0 ++ [.dly p], t1 := s.t1 ++ [.delay p], ret := .none }) ∧
    (s.sel ≠ some false → ¬ (p = .tInterTxn ∧ s.JustClosedAccess) → exec (.delay p) s = .next { s with
      t0 := s.t0 ++ [.dly p], t1 := s.t1 ++ [.delay p], t2 := s.t2 ++ [.wait p], ret := .none })

/-- R129: no Bus Primitive operation writes a holding register other than SR and BITCNT, a flag, DSTATE or OUT. -/
def Obligations.BusPrimitivesTouchOnlyTheBus : Prop :=
  ∀ (i : Instr) (s t : State),
    (i = .init ∨ i = .selAssert ∨ i = .selDeassert ∨ (∃ o, i = .xfer o) ∨ (∃ p, i = .delay p)) → exec i s = .next t →
    t.fwidx = s.fwidx ∧ t.hPid = s.hPid ∧ t.hIpid = s.hIpid ∧ t.hCodeLo = s.hCodeLo ∧ t.hCodeHi = s.hCodeHi ∧
    t.hLaser = s.hLaser ∧ t.hStatus = s.hStatus ∧ t.hDxl = s.hDxl ∧ t.hDxh = s.hDxh ∧ t.hDyl = s.hDyl ∧
    t.hDyh = s.hDyh ∧ t.hDump = s.hDump ∧ t.dx = s.dx ∧ t.dy = s.dy ∧ t.pend = s.pend ∧ t.failinfo = s.failinfo ∧
    t.dumped = s.dumped ∧ t.dstate = s.dstate ∧ t.seqpos = s.seqpos ∧ t.out = s.out ∧ t.cfg = s.cfg ∧
    t.fMot = s.fMot ∧ t.fFault = s.fFault ∧ t.fLpv = s.fLpv

/-! ### Register access and the frames -/

/-- R142 (and R141): WRREG and the W frame from idle lines: the six calls in order, 104 line events, one Write in T2; SR is
the second in byte, DOUT bit 0 of the value; every other field is unchanged. -/
def Obligations.WriteFrameTrace : Prop :=
  ∀ (s : State) (a : Addr) (v : Byte), s.Idle → ∃ i1 i2 : Byte, ∃ cs : List Call, ∃ t : State,
    cs = [.assert, .xfer (markW s.cfg a) i1, .delay .tWrPhase, .xfer v i2, .deassert, .delay .tInterTxn] ∧
    i1 = s.inByte 0 ∧ i2 = s.inByte 1 ∧ (eventsOf cs).length = 104 ∧
    t = { s.taken 16 with
      sr := i2, bitcnt := 0#4, dout := some (v.getLsbD 0), t0 := s.t0 ++ eventsOf cs, t1 := s.t1 ++ cs,
      t2 := s.t2 ++ [.write a v], frame := [], ret := .none } ∧
    exec (.wrreg a v) s = .next t ∧ exec (.frameW a v) s = .next t

/-- R144 (and R143): RDREG and the R frame from idle lines: the six calls in order, 104 line events, one Read in T2; the
value is the second in byte, unmasked; every other field is unchanged. FRAME_R carries any byte in the data phase (R99; log
entry 20); a single read of a delta register only in its turn and under a valid status (U1, U2; log entry 13). -/
def Obligations.ReadFrameTrace : Prop :=
  ∀ (s : State) (a : Addr) (d : Byte), s.Idle → s.MayRead a → ∃ i1 v : Byte, ∃ cs : List Call, ∃ t : State,
    cs = [.assert, .xfer (markR s.cfg a) i1, .delay .tRdAddrData, .xfer d v, .deassert, .delay .tInterTxn] ∧
    i1 = s.inByte 0 ∧ v = s.inByte 1 ∧ (eventsOf cs).length = 104 ∧
    t = { s.taken 16 with
      sr := v, bitcnt := 0#4, dout := some (d.getLsbD 0), t0 := s.t0 ++ eventsOf cs, t1 := s.t1 ++ cs,
      t2 := s.t2 ++ [.read a v], frame := [], ret := .byte v } ∧
    exec (.frameR a d) s = .next t ∧ (d = s.cfg.dummyByte → exec (.rdreg a) s = .next t)

/-- R98, R101: each named write frame is WRREG of its row's address and data; WR_LASER_CTRL sends its nibble over a zero
low nibble; that a single call sends the nibble of its word and not H_LASER's is log entry 25. -/
def Obligations.NamedWriteFramesAreWrites : Prop :=
  ∀ (s : State) (h : BitVec 4), s.Idle →
    exec .wrPowerUpReset s = answers (s.afterWrite s.cfg.addrPowerUpReset s.cfg.cmdReset) .none ∧
    exec .wrSromLoad s = answers (s.afterWrite s.cfg.addrSromEnable s.cfg.cmdSromLoad) .none ∧
    exec .wrSromVerify s = answers (s.afterWrite s.cfg.addrSromEnable s.cfg.cmdSromVerify) .none ∧
    exec (.wrLaserCtrl h) s = answers (s.afterWrite s.cfg.addrLaserCtrl (h ++ 0#4)) .none

/-- The named read frames of R98 and their address parameters. -/
def namedReads (p : Params) : List (Instr × Addr) :=
  [(.rdMotion, p.addrMotion), (.rdDeltaXL, p.addrDeltaXL), (.rdDeltaXH, p.addrDeltaXH), (.rdDeltaYL, p.addrDeltaYL),
   (.rdDeltaYH, p.addrDeltaYH), (.rdProductId, p.addrProductId), (.rdInvProductId, p.addrInvProductId),
   (.rdCodeLo, p.addrCodeLo), (.rdCodeHi, p.addrCodeHi), (.rdLaserCtrl, p.addrLaserCtrl),
   (.rdRevisionId, p.addrRevisionId), (.rdObservation, p.addrObservation), (.rdSromId, p.addrSromId),
   (.rdConfigA, p.addrConfigA), (.rdConfigB, p.addrConfigB), (.rdConfigC, p.addrConfigC), (.rdConfigD, p.addrConfigD)]

/-- R98, R101: each of the 17 named read frames, from idle lines, completes as RDREG of its row's address: the state of
R144 with the second in byte as its result; one of a delta register in its turn and under a valid status (U1, U2; log entry
13). -/
def Obligations.NamedReadFramesAreReads : Prop :=
  ∀ (s : State), s.Idle → ∀ ia ∈ namedReads s.cfg, s.MayRead ia.2 →
    exec ia.1 s = answers (s.afterRead ia.2) (.byte (s.inByte 1))

/-- R67, R68, U1, U2: a delta register read singly, by FRAME_R, RDREG or its named row, out of the fixed order, or while the
last status byte read says fault or no laser power, is refused; in its turn, with no status byte read or the last one valid,
it may be read (how turn and status are read off T2 is log entry 13). -/
def Obligations.SingleDeltaReadsKeepOrderAndStatus : Prop :=
  ∀ (s : State) (a : Addr) (d : Byte) (k : Nat), s.Idle → deltaPlace s.cfg a = some k →
    (k ≠ nextDelta s.cfg s.t2 →
      exec (.frameR a d) s = .refused .deltaOrder ∧ exec (.rdreg a) s = .refused .deltaOrder ∧
      ∀ ia ∈ namedReads s.cfg, ia.2 = a → exec ia.1 s = .refused .deltaOrder) ∧
    (∀ (v : Byte) (before after : List Txn), k = nextDelta s.cfg s.t2 →
      s.t2 = before ++ .read s.cfg.addrMotion v :: after → (∀ w, .read s.cfg.addrMotion w ∉ after) →
      (v &&& s.cfg.maskLpValid = 0#8 ∨ v &&& s.cfg.maskFault ≠ 0#8) →
      exec (.frameR a d) s = .refused .deltaStatus ∧ exec (.rdreg a) s = .refused .deltaStatus ∧
      ∀ ia ∈ namedReads s.cfg, ia.2 = a → exec ia.1 s = .refused .deltaStatus) ∧
    (∀ (v : Byte) (before after : List Txn), k = nextDelta s.cfg s.t2 →
      s.t2 = before ++ .read s.cfg.addrMotion v :: after → (∀ w, .read s.cfg.addrMotion w ∉ after) →
      (v &&& s.cfg.maskLpValid ≠ 0#8 ∧ v &&& s.cfg.maskFault = 0#8) → s.MayRead a) ∧
    (k = nextDelta s.cfg s.t2 → (∀ w, .read s.cfg.addrMotion w ∉ s.t2) → s.MayRead a)

/-- R67: the turn of the delta registers is the fixed order low-X, high-X, low-Y, high-Y, in a cycle: it starts at low-X, a read
of one makes it the next one's, and no other transaction moves it (that a read of the first is refused while a round is
begun and not ended is log entry 13). -/
def Obligations.DeltaTurnFollowsTheFixedOrder : Prop :=
  ∀ (p : Params), p.wf = true →
    deltaPlace p p.addrDeltaXL = some 0 ∧ deltaPlace p p.addrDeltaXH = some 1 ∧ deltaPlace p p.addrDeltaYL = some 2 ∧
    deltaPlace p p.addrDeltaYH = some 3 ∧ deltaPlace p p.addrMotion = none ∧ nextDelta p [] = 0 ∧
    (∀ ts a v k, deltaPlace p a = some k → nextDelta p (ts ++ [.read a v]) = if k = 3 then 0 else k + 1) ∧
    (∀ ts x, (∀ a v, x = .read a v → deltaPlace p a = none) → nextDelta p (ts ++ [x]) = nextDelta p ts)

/-- R94: the empty select cycle, FRAME_Z or SEL_CYCLE, from idle lines: six line events without a clock, SelCycle in T2. -/
def Obligations.EmptySelectCycleHasNoClock : Prop :=
  ∀ (s : State), s.Idle → ∃ t : State,
    t = { s with
      t0 := s.t0 ++ [.dly .tSelPreA, .sel false, .dly .tSelPostA, .dly .tSelPreD, .sel true, .dly .tSelPostD],
      t1 := s.t1 ++ [.assert, .deassert], t2 := s.t2 ++ [.selCycle], frame := [], ret := .none } ∧
    exec .selCycle s = .next t ∧ exec .frameZ s = .next t

/-- R93, R151: the burst frame from idle lines, of any data bytes (FRAME_B) and of the image (BURST_SROM): one select around
the address byte and the data bytes, the inter-byte delay after each, Burst in T2, FWIDX at the number of bytes sent. R93 has
FW_LEN data bytes and R25 lets UPLOAD write FWIDX: FRAME_B of any number of bytes, and FWIDX after a single burst, are the
model's (log entry 21). -/
def Obligations.BurstFrameSendsItsBytesUnderOneSelect : Prop :=
  ∀ (s : State) (bytes : List Byte), s.Idle →
    exec (.frameB bytes) s = answers (s.afterBurst bytes) .none ∧
    exec .burstSrom s = answers (s.afterBurst s.cfg.fw) .none

/-- R153: the bytes out of UPLOAD after its enable write and its burst address, and of BURST_SROM after its burst address, are
the image: every byte `FW(i)` once, in ascending index order, unaltered. -/
def Obligations.BurstSendsTheImageInOrder : Prop :=
  ∀ (s : State), s.Idle → (∀ i, fwRead s.cfg i = s.cfg.fw[i]?) ∧
    (∃ t cs, exec .burstSrom s = .next t ∧ t.t1 = s.t1 ++ cs ∧
      outBytes cs = markW s.cfg s.cfg.addrSromBurst :: s.cfg.fw) ∧
    (∃ t cs, exec .upload s = .next t ∧ t.t1 = s.t1 ++ cs ∧
      outBytes cs = [markW s.cfg s.cfg.addrSromEnable, s.cfg.cmdSromLoad, markW s.cfg s.cfg.addrSromBurst] ++ s.cfg.fw)

/-- The operations whose first act is a SEL_ASSERT, in a state that lets them act at all: POLL and the ST_ operations in their
Device State, ST_READY where the element it runs is the dump or a poll. -/
def startsAFrame (s : State) : Instr → Bool
  | .wrreg _ _ | .rdreg _ | .frameW _ _ | .frameR _ _ | .frameB _ | .frameZ | .upload | .verify | .dump => true
  | .wrPowerUpReset | .rdMotion | .rdDeltaXL | .rdDeltaXH | .rdDeltaYL | .rdDeltaYH | .wrSromLoad | .burstSrom => true
  | .rdProductId | .rdInvProductId | .wrSromVerify | .rdCodeLo | .rdCodeHi | .rdLaserCtrl | .wrLaserCtrl _ => true
  | .rdRevisionId | .rdObservation | .rdSromId | .rdConfigA | .rdConfigB | .rdConfigC | .rdConfigD | .selCycle => true
  | .poll => s.dstate == .ready
  | .stReady => s.dstate == .ready && (if s.seqpos = 0 then s.cfg.dumpEnable && !s.dumped else s.pend)
  | .stDrain => s.dstate == .drain
  | .stFwupload => s.dstate == .firmwareUpload
  | .stPidcheck => s.dstate == .productIdCheck
  | .stIpidcheck => s.dstate == .inverseIdCheck
  | .stIntegrity => s.dstate == .integrityCheck
  | .stLasercfg => s.dstate == .laserConfig
  | _ => false

/-- R123, R90: an operation that begins with a frame, called where SEL_ASSERT's precondition fails, is refused as SEL_ASSERT
is. -/
def Obligations.FramesNeedIdleLines : Prop :=
  ∀ (s : State) (i : Instr), startsAFrame s i = true → ¬ s.Idle →
    ∃ r, (r = .linesNotConfigured ∨ r = .selectNotHigh ∨ r = .clockNotLow) ∧
      exec i s = .refused r ∧ exec .selAssert s = .refused r

/-! ### Firmware loader -/

/-- R152: UPLOAD from idle lines: its `11 + 2 x FW_LEN` calls, and in T2 Write(load), Wait(T_LOAD_SETTLE), Burst. -/
def Obligations.UploadTrace : Prop :=
  ∀ (s : State), s.Idle → ∃ t : State, ∃ cs : List Call,
    exec .upload s = answers t .none ∧
    cs = writeCalls s.cfg s.cfg.addrSromEnable s.cfg.cmdSromLoad (s.inByte 0) (s.inByte 1) ++ [.delay .tLoadSettle] ++
      [.assert, .xfer (markW s.cfg s.cfg.addrSromBurst) (s.inByte 2), .delay .tBurstByte] ++
      burstDataCalls s.inByte s.cfg.fw 3 ++ [.deassert] ∧
    cs.length = 11 + 2 * s.cfg.fw.length ∧
    t = { s.shifted (3 + s.cfg.fw.length) (s.cfg.fw.getLast?.getD (markW s.cfg s.cfg.addrSromBurst)) with
      t0 := s.t0 ++ eventsOf cs, t1 := s.t1 ++ cs,
      t2 := s.t2 ++ [.write s.cfg.addrSromEnable s.cfg.cmdSromLoad, .wait .tLoadSettle,
        .burst s.cfg.addrSromBurst s.cfg.fw],
      frame := [], fwidx := s.cfg.fw.length }

/-- R155: VERIFY from idle lines: the four transactions, 19 calls, both code bytes read low first and stored, and the
verdict on all 16 bits (R154). -/
def Obligations.VerifyTraceAndVerdict : Prop :=
  ∀ (s : State), s.Idle → ∃ t : State, ∃ cs : List Call,
    exec .verify s = answers t (.verified (codeOf s.codeHi s.codeLo == s.cfg.expectedCode)) ∧
    cs = writeCalls s.cfg s.cfg.addrSromEnable s.cfg.cmdSromVerify (s.inByte 0) (s.inByte 1) ++ [.delay .tVerifySettle] ++
      readCalls s.cfg s.cfg.addrCodeLo s.cfg.dummyByte (s.inByte 2) s.codeLo ++
      readCalls s.cfg s.cfg.addrCodeHi s.cfg.dummyByte (s.inByte 4) s.codeHi ∧
    cs.length = 19 ∧
    t = { s.shifted 6 s.cfg.dummyByte with
      hCodeLo := s.codeLo, hCodeHi := s.codeHi, t0 := s.t0 ++ eventsOf cs, t1 := s.t1 ++ cs,
      t2 := s.t2 ++ [.write s.cfg.addrSromEnable s.cfg.cmdSromVerify, .wait .tVerifySettle,
        .read s.cfg.addrCodeLo s.codeLo, .read s.cfg.addrCodeHi s.codeHi],
      frame := [] }

/-- R156: with the expected code 0xBEEF, VERIFY answers Verified exactly for low 0xEF and high 0xBE, and in the integrity
check any other pair takes the Device State to Failed(IntegrityMismatch). -/
def Obligations.OnlyTheExpectedCodeVerifies : Prop :=
  ∀ (s : State), s.Idle → s.cfg.expectedCode = 0xBEEF#16 →
    (∃ t, exec .verify s = answers t (.verified (decide (s.codeLo = 0xEF#8 ∧ s.codeHi = 0xBE#8)))) ∧
    (s.dstate = .integrityCheck → ¬ (s.codeLo = 0xEF#8 ∧ s.codeHi = 0xBE#8) →
      ∃ t, exec .stIntegrity s = .next t ∧ t.dstate = .failed .integrityMismatch)

/-! ### Initialization state machine -/

/-- R161: ST_RESET runs INIT, the empty select cycle and the reset write, and enters PowerUp; it completes in every state
whose DSTATE is Reset, whatever the lines were. -/
def Obligations.StResetRunsItsList : Prop :=
  ∀ (s : State), s.dstate = .reset →
    exec .stReset s = answers (((s.afterInit.afterCycle).afterWrite s.cfg.addrPowerUpReset s.cfg.cmdReset).goto .powerUp)
      .none

/-- R162: ST_POWERUP waits T_POWER_UP, sends no frame, and enters Drain; the wait is a `Wait` of T2. Where a test bench (log
entry 3) left a frame open it is inside that frame and no `Wait` (R40, log entry 8), which R162 does not speak of. -/
def Obligations.StPowerupOnlyWaits : Prop :=
  ∀ (s : State), s.dstate = .powerUp →
    (s.sel ≠ some false → exec .stPowerup s = .next { s with
      t0 := s.t0 ++ [.dly .tPowerUp], t1 := s.t1 ++ [.delay .tPowerUp], t2 := s.t2 ++ [.wait .tPowerUp],
      dstate := .drain, seqpos := 0, ret := .none }) ∧
    (s.sel = some false → exec .stPowerup s = .next { s with
      t0 := s.t0 ++ [.dly .tPowerUp], t1 := s.t1 ++ [.delay .tPowerUp], frame := s.frame ++ [.delay .tPowerUp],
      dstate := .drain, seqpos := 0, ret := .none })

/-- R163: ST_DRAIN reads the status and the four delta registers in the fixed order, stores none of the values, and enters
FirmwareUpload. -/
def Obligations.StDrainDiscardsFiveReads : Prop :=
  ∀ (s : State), s.dstate = .drain → s.Idle →
    exec .stDrain s = answers ((((((s.afterRead s.cfg.addrMotion).afterRead s.cfg.addrDeltaXL).afterRead
      s.cfg.addrDeltaXH).afterRead s.cfg.addrDeltaYL).afterRead s.cfg.addrDeltaYH).goto .firmwareUpload) .none

/-- R164: ST_FWUPLOAD performs the upload unconditionally and enters ProductIdCheck. -/
def Obligations.StFwuploadUploadsUnconditionally : Prop :=
  ∀ (s : State), s.dstate = .firmwareUpload → s.Idle →
    exec .stFwupload s = answers (s.afterUpload.goto .productIdCheck) .none

/-- R165, R203: ST_PIDCHECK reads and stores the product id once; equal to the expected one it enters InverseIdCheck, else
FAILINFO is that byte, one InitFailed is emitted and DSTATE is Failed(ProductIdMismatch). -/
def Obligations.StPidcheckComparesTheProductId : Prop :=
  ∀ (s : State), s.dstate = .productIdCheck → s.Idle →
    let v := s.inByte 1
    let t := { s.afterRead s.cfg.addrProductId with hPid := v }
    (v = s.cfg.productIdExpected →
      exec .stPidcheck s = .next { t with dstate := .inverseIdCheck, seqpos := 0, ret := .none }) ∧
    (v ≠ s.cfg.productIdExpected →
      exec .stPidcheck s = .next { t with
        failinfo := some [v], out := s.out ++ [.initFailed .productIdMismatch [v]],
        dstate := .failed .productIdMismatch, seqpos := 0, ret := .none })

/-- R166, R203: ST_IPIDCHECK reads and stores the inverse product id and passes exactly when its XOR with H_PID is 0xFF, which
for an H_PID that is the expected id is the complement of that id. -/
def Obligations.StIpidcheckXorsWithTheProductId : Prop :=
  ∀ (s : State), s.dstate = .inverseIdCheck → s.Idle →
    let pid := s.hPid
    let v := s.inByte 1
    let t := { s.afterRead s.cfg.addrInvProductId with hIpid := v }
    (v ^^^ pid = 0xFF#8 →
      exec .stIpidcheck s = .next { t with dstate := .integrityCheck, seqpos := 0, ret := .none }) ∧
    (v ^^^ pid ≠ 0xFF#8 →
      exec .stIpidcheck s = .next { t with
        failinfo := some [v], out := s.out ++ [.initFailed .inverseIdMismatch [v]],
        dstate := .failed .inverseIdMismatch, seqpos := 0, ret := .none }) ∧
    (pid = s.cfg.productIdExpected → (v ^^^ pid = 0xFF#8 ↔ v = ~~~s.cfg.productIdExpected))

/-- R28, R201: no instruction and no step faults, in any state, so the model fault UnwrittenRead (R12) is unreachable; and
from reset on, called words included, in the inverse-id check H_PID is a byte that a read of the product id returned, and the
expected one, so its reset value (log entry 5) is never read. That no other register is read by another operation than its
writer is read off R25 (log entry 5). -/
def Obligations.ProductIdIsWrittenBeforeItIsRead : Prop :=
  (∀ (s : State) (i : Instr) (f : Fault), exec i s ≠ .fault f ∧ step s ≠ .fault f) ∧
  (∀ p : Params, (State.resetWith p).PidWritten) ∧ ∀ s t : State, s.PidWritten → step s = .next t → t.PidWritten

/-- R167, R203: ST_INTEGRITY verifies; on Verified it enters LaserConfig, else FAILINFO is the two code bytes, low first,
one InitFailed is emitted and DSTATE is Failed(IntegrityMismatch). -/
def Obligations.StIntegrityVerifiesTheUpload : Prop :=
  ∀ (s : State), s.dstate = .integrityCheck → s.Idle →
    (codeOf s.codeHi s.codeLo = s.cfg.expectedCode →
      exec .stIntegrity s = .next { s.afterVerify with dstate := .laserConfig, seqpos := 0, ret := .none }) ∧
    (codeOf s.codeHi s.codeLo ≠ s.cfg.expectedCode →
      exec .stIntegrity s = .next { s.afterVerify with
        failinfo := some [s.codeLo, s.codeHi], out := s.out ++ [.initFailed .integrityMismatch [s.codeLo, s.codeHi]],
        dstate := .failed .integrityMismatch, seqpos := 0, ret := .none })

/-- R169, R247: ST_LASERCFG reads the laser-control register, always writes back a byte whose high nibble is as read and
whose low nibble is zero, and enters Ready. -/
def Obligations.StLasercfgKeepsTheHighNibble : Prop :=
  ∀ (s : State), s.dstate = .laserConfig → s.Idle → ∃ w : Byte,
    w.extractLsb' 4 4 = (s.inByte 1).extractLsb' 4 4 ∧ w.extractLsb' 0 4 = 0#4 ∧
    exec .stLasercfg s = .next { ({ s.afterRead s.cfg.addrLaserCtrl with hLaser := s.inByte 1 }).afterWrite
      s.cfg.addrLaserCtrl w with dstate := .ready, seqpos := 0, ret := .none }

/-- R172: DUMP from idle lines: the nine registers in the rule's order, each read, stored in H_DUMP and reported before the
next is read. That it runs in every Device State and leaves DUMPED, which ST_READY sets (R170), is log entry 24: R37 names
DUMP as the writer, and R172 says that DUMP is never run in Failed. -/
def Obligations.DumpReportsNineRegisters : Prop :=
  ∀ (s : State), s.Idle →
    exec .dump s = answers
      (((((((((s.afterDumpRead .productId s.cfg.addrProductId).afterDumpRead .revisionId s.cfg.addrRevisionId).afterDumpRead
        .motion s.cfg.addrMotion).afterDumpRead .observation s.cfg.addrObservation).afterDumpRead
        .sromId s.cfg.addrSromId).afterDumpRead .configA s.cfg.addrConfigA).afterDumpRead
        .configB s.cfg.addrConfigB).afterDumpRead .configC s.cfg.addrConfigC).afterDumpRead
        .configD s.cfg.addrConfigD) .none

/-- R170: at the start of its list ST_READY dumps once, where enabled, and reaches the loop; in the loop it clears PEND and
polls exactly when PEND was 1. -/
def Obligations.StReadyDumpsOnceThenLoops : Prop :=
  ∀ (s : State), s.dstate = .ready → s.Idle →
    (s.seqpos = 0 → s.cfg.dumpEnable = true → s.dumped = false → ∃ t, exec .dump s = .next t ∧
      exec .stReady s = .next { t with dumped := true, seqpos := 1, ret := .none }) ∧
    (s.seqpos = 0 → (s.cfg.dumpEnable = false ∨ s.dumped = true) →
      exec .stReady s = .next { s with seqpos := 1, ret := .none }) ∧
    (s.seqpos ≠ 0 → s.pend = false → exec .stReady s = .next { s with ret := .none }) ∧
    (s.seqpos ≠ 0 → s.pend = true → exec .stReady s = exec .poll { s with pend := false })

/-- R171, R202: ST_FAILED consumes a pending event and does nothing else: no line moves, no trace grows, no event goes out. -/
def Obligations.StFailedOnlyConsumesTheEvent : Prop :=
  ∀ (s : State) (r : Reason), s.dstate = .failed r → exec .stFailed s = .next { s with pend := false, ret := .none }

/-- R160, R204: an ST_ operation called in a Device State that is not its own is refused, so no transition exists that the
table does not list (the refusal is the model's: log entry 12). -/
def Obligations.StOperationsRunOnlyInTheirState : Prop :=
  ∀ (s : State) (i : Instr), i ∈ [Instr.stReset, .stPowerup, .stDrain, .stFwupload, .stPidcheck, .stIpidcheck, .stIntegrity,
    .stLasercfg, .stReady, .stFailed] → i ≠ hardwired s.dstate → exec i s = .refused .notInState

/-! ### Motion decoder -/

/-- R181: TESTCLR returns PEND and leaves it 0, in one step, and changes nothing else: an event before it is returned, one
after it is kept; its id is 20. -/
def Obligations.TestclrReturnsAndClearsPend : Prop :=
  ∀ (s : State), exec .testclr s = .next { s with pend := false, ret := .bit s.pend } ∧
    (∀ rest, s.edges = some s.cfg.motEdge :: rest →
      environment (exec .testclr s) = .next { s with pend := true, edges := rest, ret := .bit s.pend }) ∧
    ∃ x y, encode s.cfg .testclr = .op 20#8 x y

/-- R183: STATUS_DECODE: each flag is whether the masked byte is non-zero, for every assignment of the masks; the state is
unchanged, and F_MOT, F_FAULT, F_LPV are this decode of H_STATUS. -/
def Obligations.StatusDecodeMasksThreeFlags : Prop :=
  ∀ (s : State) (v : Byte), ∃ mot fault lpv : Bool,
    exec (.statusDecode v) s = .next { s with ret := .flags mot fault lpv } ∧
    (mot = true ↔ v &&& s.cfg.maskMot ≠ 0#8) ∧ (fault = true ↔ v &&& s.cfg.maskFault ≠ 0#8) ∧
    (lpv = true ↔ v &&& s.cfg.maskLpValid ≠ 0#8) ∧
    (s.hStatus = v → s.fMot = mot ∧ s.fFault = fault ∧ s.fLpv = lpv) ∧ ∃ x y, encode s.cfg (.statusDecode v) = .op 22#8 x y

/-- R186: DELTA16 is `lo + 256 * hi` as a 16-bit pattern, and its integer value is the two's-complement reading, for every
pair of bytes; the state is unchanged. -/
def Obligations.Delta16IsTwosComplement : Prop :=
  ∀ (s : State) (lo hi : Byte), ∃ v : Half,
    exec (.delta16 lo hi) s = .next { s with ret := .half v } ∧ v.toNat = lo.toNat + 256 * hi.toNat ∧ v = hi ++ lo ∧
    toInt16 v = v.toInt ∧ ∃ x y, encode s.cfg (.delta16 lo hi) = .op 23#8 x y

/-- R184, R185: POLL in each of its four branches. Not Ready: nothing. Ready, from idle lines: the status byte is read and
stored; fault, or laser power not valid, emits MotionFault with the whole byte and reads no delta register; else motion
reads the four delta bytes in order and emits the sample; else nothing is emitted. -/
def Obligations.PollTakesOneOfFourBranches : Prop :=
  ∀ (s : State),
    (s.dstate ≠ .ready → exec .poll s = .next { s with ret := .none }) ∧
    (s.dstate = .ready → s.Idle →
      let st := s.inByte 1
      let s1 := { s.afterRead s.cfg.addrMotion with hStatus := st }
      let xl := s1.inByte 1
      let xh := s1.inByte 3
      let yl := s1.inByte 5
      let yh := s1.inByte 7
      let s2 := (((s1.afterRead s.cfg.addrDeltaXL).afterRead s.cfg.addrDeltaXH).afterRead s.cfg.addrDeltaYL).afterRead
        s.cfg.addrDeltaYH
      ((st &&& s.cfg.maskLpValid = 0#8 ∨ st &&& s.cfg.maskFault ≠ 0#8) →
        exec .poll s = .next { s1 with out := s.out ++ [.motionFault st], ret := .none }) ∧
      (st &&& s.cfg.maskLpValid ≠ 0#8 → st &&& s.cfg.maskFault = 0#8 → st &&& s.cfg.maskMot ≠ 0#8 →
        exec .poll s = .next { s2 with
          hDxl := xl, hDxh := xh, hDyl := yl, hDyh := yh, dx := xh ++ xl, dy := yh ++ yl,
          out := s.out ++ [.motionSample (toInt16 (xh ++ xl)) (toInt16 (yh ++ yl))], ret := .none }) ∧
      (st &&& s.cfg.maskLpValid ≠ 0#8 → st &&& s.cfg.maskFault = 0#8 → st &&& s.cfg.maskMot = 0#8 →
        exec .poll s = .next { s1 with ret := .none }))

/-! ### Encoding -/

/-- R90 to R100: under every parameter assignment, decoding the word of a well-formed instruction gives it back, every
operand at every value. -/
def Obligations.DecodeEncodeRoundTrip : Prop :=
  ∀ (p : Params) (i : Instr), i.wellFormed p = true → decode p (encode p i) = .ok i

/-- R97, R99: every word has at most one meaning, and encoding what a word decodes to gives the word back. -/
def Obligations.EncodeOfDecodedWord : Prop :=
  ∀ (p : Params) (w : CodeWord) (i : Instr), decode p w = .ok i → encode p i = w

/-- R101: a frame runs the same under each of the table's names for it: an instruction and its canonical spelling have one
meaning in every state. -/
def Obligations.CanonicalSpellingRunsTheSame : Prop :=
  ∀ (s : State) (i : Instr), exec (canon s.cfg i) s = exec i s

/-- R98, R100: words written out from the tables decode to their rows under the defaults. That E2 alone is BURST_SROM holds
for the empty image of the defaults (log entry 4), and an id alone is its operation with zero operands (log entry 10). -/
def Obligations.WrittenOutWordsDecode : Prop :=
  decodeTableWord 16 0b1011101001011010 = some .wrPowerUpReset ∧ decodeTableWord 16 0b0000001000000000 = some .rdMotion ∧
  decodeTableWord 16 0b1010000010110000 = some (.wrLaserCtrl 0b1011#4) ∧
  decodeTableWord 16 0b1000111101011100 = some (.frameW 0x0F#7 0x5C#8) ∧
  decodeTableWord 8 0b11100010 = some .burstSrom ∧ decodeTableWord 8 0b00111 = some .upload ∧
  decodeTableWord 8 0b10000 = some .stLasercfg ∧ decodeTableWord 8 0b10101 = some .poll ∧
  decodeTableWord 8 0b11000 = none

/-- R95: the address byte is the marker over the seven address bits, the two markers differ, and with the default marker
`mark_w(a) = 0x80 | a` and `mark_r(a) = a`. -/
def Obligations.AddressByteIsMarkerOverAddress : Prop :=
  ∀ (p : Params) (a : Addr),
    (markW p a).msb = p.writeMarker ∧ (markW p a).extractLsb' 0 7 = a ∧ (markR p a).msb = !p.writeMarker ∧
    (markR p a).extractLsb' 0 7 = a ∧ markW p a ≠ markR p a ∧
    (p.writeMarker = true → markW p a = 0x80#8 ||| a.zeroExtend 8 ∧ markR p a = a.zeroExtend 8)

/-! ### The machine -/

/-- The model's own (log entry 3, for program P4 of 95_test_vectors.md; the block itself fetches nothing): with a word called
from outside, a step decodes it, runs the instruction with the word taken off the queue, and then lets the event source move
(R208, log entry 7). -/
def Obligations.StepRunsTheDecodedWord : Prop :=
  ∀ (s : State) (w : CodeWord) (rest : List CodeWord) (i : Instr),
    s.cfg.wf = true → s.bench = w :: rest → decode s.cfg w = .ok i →
    step s = environment (exec i { s with bench := rest })

/-- R31, R32: with nothing called from outside, a step runs the operation of the Device State. -/
def Obligations.StepRunsTheHardwiredOperation : Prop :=
  ∀ (s : State), s.cfg.wf = true → s.bench = [] → step s = environment (exec (hardwired s.dstate) s)

/-- R9: a parameter assignment that fails the rule is refused by every step: a mask without exactly one bit, two equal
masks, two equal addresses of the five of the decoder, equal code addresses, equal id addresses. -/
def Obligations.BadParametersAreRefused : Prop :=
  ∀ (s : State),
    ((∀ k < 8, s.cfg.maskMot ≠ BitVec.ofNat 8 (2 ^ k)) ∨ (∀ k < 8, s.cfg.maskFault ≠ BitVec.ofNat 8 (2 ^ k)) ∨
      (∀ k < 8, s.cfg.maskLpValid ≠ BitVec.ofNat 8 (2 ^ k)) ∨ s.cfg.maskMot = s.cfg.maskFault ∨
      s.cfg.maskMot = s.cfg.maskLpValid ∨ s.cfg.maskFault = s.cfg.maskLpValid ∨
      ¬ [s.cfg.addrMotion, s.cfg.addrDeltaXL, s.cfg.addrDeltaXH, s.cfg.addrDeltaYL, s.cfg.addrDeltaYH].Nodup ∨
      s.cfg.addrCodeLo = s.cfg.addrCodeHi ∨ s.cfg.addrProductId = s.cfg.addrInvProductId) →
    step s = .refused .parameters

/-- R42: the reset values the rule lists, for every parameter assignment. BITCNT 0 is the model's choice, which the rule
allows (log entry 19), and so is zero in the registers to which the rule gives no value (log entry 5). -/
def Obligations.ResetLeavesTheListedValues : Prop :=
  ∀ (p : Params), ∃ s : State, s = State.resetWith p ∧
    s.linesCfg = false ∧ s.sel = none ∧ s.clk = none ∧ s.dout = none ∧ s.sr = 0#8 ∧ s.bitcnt = 0#4 ∧ s.fwidx = 0 ∧
    s.hPid = 0#8 ∧ s.hIpid = 0#8 ∧ s.hCodeLo = 0#8 ∧ s.hCodeHi = 0#8 ∧ s.hLaser = 0#8 ∧ s.hStatus = 0#8 ∧
    s.hDxl = 0#8 ∧ s.hDxh = 0#8 ∧ s.hDyl = 0#8 ∧ s.hDyh = 0#8 ∧ s.hDump = 0#8 ∧ s.dx = 0#16 ∧ s.dy = 0#16 ∧
    s.dstate = .reset ∧ s.seqpos = 0 ∧ s.pend = false ∧ s.failinfo = none ∧ s.dumped = false ∧ s.t0 = [] ∧ s.t1 = [] ∧
    s.t2 = [] ∧ s.out = []

/-- R42: the reset state meets the machine's invariants. -/
def Obligations.ResetMeetsTheInvariants : Prop :=
  State.reset.LinesInv ∧ State.reset.TraceInv ∧ State.reset.FailureInv ∧ State.reset.Own

/-- R22, R27, R36: every step, a called one too, leaves BITCNT 0, and the lines driven exactly when configured, with the
clock low. -/
def Obligations.StepKeepsLinesInv : Prop :=
  ∀ (s t : State), s.LinesInv → step s = .next t → t.LinesInv

/-- R40, R39: every step, a called one too, keeps T0 the line events of T1's calls, in order. -/
def Obligations.StepKeepsTraceInv : Prop :=
  ∀ (s t : State), s.TraceInv → step s = .next t → t.TraceInv

/-- R203, R204, R35: every step, a called one too, keeps the record of failure: FAILINFO holds a value exactly in a failed
state, and exactly one InitFailed, with that reason and those bytes, has gone out then, none before. -/
def Obligations.StepKeepsFailureInv : Prop :=
  ∀ (s t : State), s.FailureInv → step s = .next t → t.FailureInv

/-- R28, R123, R201: on its own the block never stops: where its sequencer keeps it, and with a parameter assignment R9
accepts, every step answers a next state that is again there. No refusal and no fault is reachable. -/
def Obligations.BlockNeverStopsOnItsOwn : Prop :=
  ∀ (s : State), s.cfg.wf = true → s.Own → ∃ t, step s = .next t ∧ t.cfg = s.cfg ∧ t.Own

/-- R160: the block's own steps move DSTATE by the table, and the reset state starts at Reset. -/
def Obligations.DeviceStateFollowsTheTable : Prop :=
  State.reset.dstate = .reset ∧ ∀ (s t : State), s.bench = [] → step s = .next t → Transition s.dstate t.dstate

/-- R160, R204: no step, a called one included, leaves Ready or Failed. -/
def Obligations.TerminalStatesAreNeverLeft : Prop :=
  ∀ (s t : State), (s.dstate = .ready ∨ s.dstate.isFailed = true) → step s = .next t → t.dstate = s.dstate

/-- R13, R38, R78: every step, a called one too, only appends to the traces and to OUT, and keeps the parameters. -/
def Obligations.TracesOnlyGrow : Prop :=
  ∀ (s t : State), step s = .next t →
    s.t0 <+: t.t0 ∧ s.t1 <+: t.t1 ∧ s.t2 <+: t.t2 ∧ s.out <+: t.out ∧ t.cfg = s.cfg

/-- R208, R209: after the operation of a step an edge that is MOT_EDGE sets PEND whatever it was, another edge or none
leaves it, and nothing but PEND and the input changes; past the end of the queue the edge is the free value (log entry 7). -/
def Obligations.EventSetsPendAndMerges : Prop :=
  ∀ (s : State),
    (∀ (e : Option Edge) (rest : List (Option Edge)), s.edges = e :: rest →
      (e = some s.cfg.motEdge → s.eventMove = { s with pend := true, edges := rest }) ∧
      (e ≠ some s.cfg.motEdge → s.eventMove = { s with edges := rest })) ∧
    (s.edges = [] → s.eventMove =
      { s with
        pend := if Config.motSignal s.edgeCount = some s.cfg.motEdge then true else s.pend
        edgeCount := s.edgeCount + 1 })

/-- R210, R180: no step of the initializing states clears PEND: an early event stays pending. -/
def Obligations.EarlyEventStaysPending : Prop :=
  ∀ (s t : State), s.bench = [] → s.dstate ≠ .ready → s.dstate.isFailed = false → s.pend = true → step s = .next t →
    t.pend = true

/-- R238: a quiescent state changes only by the event source: whatever edge comes, its step leaves everything but PEND, which
is what the event source left, and the model's own inputs and result (log entries 7 and 9). -/
def Obligations.QuiescentStateStays : Prop :=
  ∀ (s : State), s.cfg.wf = true → s.Quiescent →
    let e := s.eventMove
    step s = .next { s with pend := e.pend, edges := e.edges, edgeCount := e.edgeCount, ret := .none }

/-- R171, R202: in Failed the block's own steps send nothing: the lines, the traces, OUT and every register stay, and PEND
is what the event source left. -/
def Obligations.FailedBlockIsSilent : Prop :=
  ∀ (s : State) (r : Reason), s.cfg.wf = true → s.bench = [] → s.dstate = .failed r →
    let e := ({ s with pend := false }).eventMove
    step s = .next { s with pend := e.pend, edges := e.edges, edgeCount := e.edgeCount, ret := .none }

/-- R174: from reset, for every accepted parameter assignment and every input, eight steps (one operation a step: log entry
2) end initialization: in Ready
exactly when the checked reads returned the expected id, its complement and the two code bytes, else in Failed with the
reason of the first check that fails; the number of line events depends on FW_LEN and on that outcome only. -/
def Obligations.InitializationEndsByTheChecks : Prop :=
  ∀ (p : Params) (din : List Bool) (c : Nat) (edges : List (Option Edge)) (n : Nat), p.wf = true →
    let s := State.start p din c edges n
    let k := p.fw.length
    ∃ t : State, steps 8 s = .next t ∧ t.dstate = s.checksOutcome k ∧ t.t0.length = initEvents k t.dstate ∧
      (t.dstate = .ready ↔ s.inByte (16 + k) = p.productIdExpected ∧ s.inByte (18 + k) = ~~~p.productIdExpected ∧
        s.inByte (22 + k) = p.expectedCode.extractLsb' 0 8 ∧ s.inByte (24 + k) = p.expectedCode.extractLsb' 8 8)

/-- R173: the T2 trace of a successful initialization is exactly the rule's 20 events and contains `29 + FW_LEN` XFER calls;
with the dump enabled the next step adds the nine dump reads and 18 XFER calls. That this takes eight steps and one more is
log entry 2. -/
def Obligations.SuccessfulInitializationTrace : Prop :=
  ∀ (p : Params) (din : List Bool) (c : Nat) (edges : List (Option Edge)) (n : Nat), p.wf = true →
    (State.start p din c edges n).checksOutcome p.fw.length = .ready →
    ∃ t : State, steps 8 (State.start p din c edges n) = .next t ∧ t.dstate = .ready ∧
      t.t2 = initTxns (State.start p din c edges n) ∧ xferCount t.t1 = 29 + p.fw.length ∧
      (p.dumpEnable = true → ∃ u : State, ∃ vs : List Byte, step t = .next u ∧ vs.length = 9 ∧
        u.t2 = t.t2 ++ List.zipWith (fun la v => Txn.read la.2 v) (dumpList p) vs ∧ xferCount u.t1 = 47 + p.fw.length)

/-- R98: on its own the block sends the listed frames with the listed field values and no others: every transaction a step
adds to T2 is one of them. -/
def Obligations.BlockSendsOnlyTheListedFrames : Prop :=
  ∀ (s t : State), s.Own → step s = .next t → ∃ ts, t.t2 = s.t2 ++ ts ∧ ∀ x ∈ ts, listedTxn s.cfg x
end

