-- ==== Sys2Proof/Laws/Ops.lean ====
section
/-! SUPPORT. One lemma per shared operation, saying once all it can do: what the operations of Machine/Ops.lean answer, and
the closed forms of the Bus Primitive operations, the frames and the burst. Later proofs cite these and unfold none. -/

namespace Sys2Proof.Machine

variable {α β : Type}

theorem op_bind_apply (x : Op α) (f : α → Op β) (s : State) :
    (x >>= f) s = match x s with
      | .ok (a, t) => f a t
      | .error e => .error e := by
  show (StateT.bind x f) s = _
  unfold StateT.bind
  cases h : x s <;> rfl

/-- Sequencing after an operation that succeeds. -/
theorem op_bind_ok {x : Op α} {f : α → Op β} {s t : State} {a : α} (h : x s = .ok (a, t)) :
    (x >>= f) s = f a t := by
  rw [op_bind_apply, h]

@[simp] theorem op_pure_apply (a : α) (s : State) : (pure a : Op α) s = .ok (a, s) := rfl

@[simp] theorem op_get_apply (s : State) : (get : Op State) s = .ok (s, s) := rfl

@[simp] theorem update_apply (f : State → State) (s : State) : update f s = .ok ((), f s) := rfl

theorem require_ok {c : State → Bool} {r : Refusal} {s : State} (h : c s = true) : require c r s = .ok ((), s) := by
  simp [require, h]

theorem require_refuses {c : State → Bool} {r : Refusal} {s : State} (h : c s = false) :
    require c r s = .error r := by
  simp [require, h]

/-- A meaning whose operation succeeds answers a next state. -/
theorem finish_ok {op : Op α} {result : α → Ret} {s t : State} {a : α} (h : op s = .ok (a, t)) :
    finish op result s = .next { t with ret := result a } := by
  simp [finish, h]

/-- A meaning whose operation is refused is refused. -/
theorem finish_refused {op : Op α} {result : α → Ret} {s : State} {r : Refusal} (h : op s = .error r) :
    finish op result s = .refused r := by
  simp [finish, h]

/-- Sampling takes one sample, logs it, and changes nothing else. -/
theorem sample_ok (s : State) :
    sample s = .ok (s.sampleAt 0, { s.taken 1 with t0 := s.t0 ++ [.din (s.sampleAt 0)] }) := by
  cases h : s.din <;> simp [sample, State.sampleAt, sampleOf, State.taken, h]

/-- The samples that come after `n` have been taken. -/
theorem sampleOf_drop (din : List Bool) (c n k : Nat) :
    sampleOf (din.drop n) (c + (n - din.length)) k = sampleOf din c (n + k) := by
  simp only [sampleOf, List.getElem?_drop, List.length_drop]
  rcases Nat.lt_or_ge (n + k) din.length with h | h
  · simp [List.getElem?_eq_getElem h]
  · rw [List.getElem?_eq_none h]
    congr 2
    omega

/-- The in bytes that come after `n` bytes have been taken. -/
theorem byteIn_drop (din : List Bool) (c n k : Nat) :
    byteIn (din.drop (8 * n)) (c + (8 * n - din.length)) k = byteIn din c (n + k) := by
  simp only [byteIn, sampleOf_drop]
  congr 1
  funext j
  congr 1
  omega

theorem taken_taken (s : State) (m n : Nat) : (s.taken m).taken n = s.taken (m + n) := by
  simp only [State.taken, List.drop_drop, List.length_drop, State.mk.injEq, true_and, and_true]
  omega

@[simp] theorem taken_zero (s : State) : s.taken 0 = s := by
  simp [State.taken]

theorem inByte_taken (s : State) (n k : Nat) : (s.taken (8 * n)).inByte k = s.inByte (n + k) :=
  byteIn_drop s.din s.dinCount n k

end Sys2Proof.Machine
end

