-- ==== Sys2Proof/Laws/Xfer.lean ====
section
/-! SUPPORT. XFER in closed form (40_bus_primitive.md R124): the bits out are the out byte's from bit 7 down, the in byte is
the eight samples, first in bit 7, whatever the out byte is. -/

namespace Sys2Proof.Machine

theorem shiftIn_getLsbD_zero (sr : Byte) (b : Bool) : (shiftIn sr b).getLsbD 0 = b :=
  (BitVec.getLsbD_append (x := sr.extractLsb' 0 7) (y := BitVec.ofBool b)).trans (by simp)

theorem shiftIn_getLsbD_succ (sr : Byte) (b : Bool) (i : Nat) (h : i < 7) :
    (shiftIn sr b).getLsbD (i + 1) = sr.getLsbD i :=
  (BitVec.getLsbD_append (x := sr.extractLsb' 0 7) (y := BitVec.ofBool b)).trans (by simp [h])

theorem byte_msb (v : Byte) : v.msb = v.getLsbD 7 := by
  simp [BitVec.msb_eq_getLsbD_last]

/-- Eight bits shifted into any byte are the byte they make. -/
theorem shiftIn_eight (out : Byte) (f : Nat → Bool) :
    shiftIn (shiftIn (shiftIn (shiftIn (shiftIn (shiftIn (shiftIn (shiftIn out (f 0)) (f 1)) (f 2)) (f 3)) (f 4)) (f 5))
      (f 6)) (f 7) = byteOf f := by
  have hz : ∀ b0 b1 b2 b3 b4 b5 b6 b7 : Bool,
      shiftIn (shiftIn (shiftIn (shiftIn (shiftIn (shiftIn (shiftIn (shiftIn 0#8 b0) b1) b2) b3) b4) b5) b6) b7 =
        BitVec.ofBool b0 ++ BitVec.ofBool b1 ++ BitVec.ofBool b2 ++ BitVec.ofBool b3 ++
          BitVec.ofBool b4 ++ BitVec.ofBool b5 ++ BitVec.ofBool b6 ++ BitVec.ofBool b7 := by
    decide +kernel
  refine Eq.trans ?_ (hz (f 0) (f 1) (f 2) (f 3) (f 4) (f 5) (f 6) (f 7))
  apply BitVec.eq_of_getLsbD_eq
  intro i hi
  have : i = 0 ∨ i = 1 ∨ i = 2 ∨ i = 3 ∨ i = 4 ∨ i = 5 ∨ i = 6 ∨ i = 7 := by omega
  rcases this with rfl | rfl | rfl | rfl | rfl | rfl | rfl | rfl <;>
    simp only [shiftIn_getLsbD_zero,
      shiftIn_getLsbD_succ _ _ 0 (by omega), shiftIn_getLsbD_succ _ _ 1 (by omega), shiftIn_getLsbD_succ _ _ 2 (by omega),
      shiftIn_getLsbD_succ _ _ 3 (by omega), shiftIn_getLsbD_succ _ _ 4 (by omega), shiftIn_getLsbD_succ _ _ 5 (by omega),
      shiftIn_getLsbD_succ _ _ 6 (by omega)]

/-- Bit `j` of the byte made of eight bits is the `(7 - j)`-th of them. -/
theorem byteOf_getLsbD (f : Nat → Bool) (j : Nat) (h : j < 8) : (byteOf f).getLsbD j = f (7 - j) := by
  rw [← shiftIn_eight 0#8 f]
  have : j = 0 ∨ j = 1 ∨ j = 2 ∨ j = 3 ∨ j = 4 ∨ j = 5 ∨ j = 6 ∨ j = 7 := by omega
  rcases this with rfl | rfl | rfl | rfl | rfl | rfl | rfl | rfl <;>
    simp only [shiftIn_getLsbD_zero, Nat.reduceSub,
      shiftIn_getLsbD_succ _ _ 0 (by omega), shiftIn_getLsbD_succ _ _ 1 (by omega), shiftIn_getLsbD_succ _ _ 2 (by omega),
      shiftIn_getLsbD_succ _ _ 3 (by omega), shiftIn_getLsbD_succ _ _ 4 (by omega), shiftIn_getLsbD_succ _ _ 5 (by omega),
      shiftIn_getLsbD_succ _ _ 6 (by omega)]

/-- One clock period: six line events, one sample, `DOUT` at the bit driven, the clock low again. -/
theorem xferBit_ok (sr : Byte) (s : State) :
    xferBit sr s = .ok (shiftIn sr (s.sampleAt 0),
      { s.taken 1 with
        dout := some sr.msb, clk := some false,
        t0 := s.t0 ++ [.dout sr.msb, .dly .tClkLow, .clk true, .din (s.sampleAt 0), .dly .tClkHigh, .clk false] }) := by
  simp only [xferBit, driveDout, dly, driveClk, op_bind_apply, update_apply, op_pure_apply, sample_ok, State.log,
    State.sampleAt, State.taken, List.append_assoc, List.cons_append, List.nil_append]

theorem xferBits_succ (n : Nat) (sr : Byte) (s : State) :
    xferBits (n + 1) sr s =
      xferBits n (shiftIn sr (s.sampleAt 0))
        { s.taken 1 with
          dout := some sr.msb, clk := some false, sr := shiftIn sr (s.sampleAt 0), bitcnt := BitVec.ofNat 4 n,
          t0 := s.t0 ++ [.dout sr.msb, .dly .tClkLow, .clk true, .din (s.sampleAt 0), .dly .tClkHigh, .clk false] } := by
  simp only [xferBits, op_bind_apply, xferBit_ok, update_apply]

theorem xferBits_zero (sr : Byte) (s : State) : xferBits 0 sr s = .ok (sr, s) := rfl

/-- The loop of XFER: eight samples taken, `SR` the in byte, `DOUT` at the last bit out, 48 line events. -/
theorem xferBits_eight (out : Byte) (s : State) :
    xferBits 8 out s = .ok (s.inByte 0,
      { s.taken 8 with
        sr := s.inByte 0, bitcnt := 0#4, dout := some (out.getLsbD 0), clk := some false,
        t0 := s.t0 ++ (Call.xfer out (s.inByte 0)).events }) := by
  have hb : s.inByte 0 = byteOf (sampleOf s.din s.dinCount) := by simp [State.inByte, byteIn]
  simp only [xferBits_succ, xferBits_zero, State.taken, State.sampleAt, sampleOf_drop, Nat.add_zero, Nat.reduceAdd,
    hb, ← shiftIn_eight out (sampleOf s.din s.dinCount)]
  simp only [Except.ok.injEq, Prod.mk.injEq, true_and, State.mk.injEq, List.drop_drop, List.length_drop, List.append_assoc,
    and_true, Call.events, bitEvents, List.flatMap_cons, List.flatMap_nil, byte_msb, shiftIn_getLsbD_zero,
    shiftIn_getLsbD_succ _ _ 0 (by omega), shiftIn_getLsbD_succ _ _ 1 (by omega), shiftIn_getLsbD_succ _ _ 2 (by omega),
    shiftIn_getLsbD_succ _ _ 3 (by omega), shiftIn_getLsbD_succ _ _ 4 (by omega), shiftIn_getLsbD_succ _ _ 5 (by omega),
    shiftIn_getLsbD_succ _ _ 6 (by omega), Nat.reduceAdd, List.append_nil, List.cons_append, List.nil_append]
  omega

end Sys2Proof.Machine
end

