-- ==== Sys2Proof/Laws/Frames.lean ====
section
/-! SUPPORT. The Bus Primitive calls, the W, R, B and Z frames and UPLOAD in closed form: where their preconditions hold they
answer exactly the states of Safety.lean (40_bus_primitive.md R120 to R128, 41_register_access.md R142, R144,
42_firmware_loader.md R152). -/

namespace Sys2Proof.Machine

@[simp] theorem eventsOf_nil : eventsOf [] = [] := rfl

@[simp] theorem eventsOf_cons (c : Call) (cs : List Call) : eventsOf (c :: cs) = c.events ++ eventsOf cs := rfl

theorem eventsOf_append (xs ys : List Call) : eventsOf (xs ++ ys) = eventsOf xs ++ eventsOf ys := by
  simp [eventsOf]

theorem busInit_ok (s : State) : busInit s = .ok ((), s.afterInit) := by
  simp only [busInit, configure, driveSel, driveClk, driveDout, note, op_bind_apply, update_apply, State.note,
    State.afterInit, State.traced, eventsOf_cons, eventsOf_nil, Call.events, List.append_assoc, List.cons_append,
    List.nil_append, List.append_nil]

theorem requireLines_ok {s : State} (h : s.linesCfg = true) : requireLines s = .ok ((), s) := require_ok h

theorem requireClockLow_ok {s : State} (h : s.clk = some false) : requireClockLow s = .ok ((), s) :=
  require_ok (by simp [h])

theorem requireSel_ok {s : State} {b : Bool} {r : Refusal} (h : s.sel = some b) :
    require (fun s => s.sel == some b) r s = .ok ((), s) :=
  require_ok (by simp [h])

theorem requireIdle_ok {s : State} (h : s.Idle) : requireIdle s = .ok ((), s) := by
  unfold requireIdle
  rw [op_bind_ok (requireLines_ok h.1), op_bind_ok (requireSel_ok h.2.1), requireClockLow_ok h.2.2]

theorem selAssert_ok {s : State} (h : s.Idle) :
    selAssert s = .ok ((), s.afterAssert) := by
  simp only [State.afterAssert, selAssert, op_bind_apply, requireIdle_ok h, dly, driveSel,
    note, update_apply, State.log, State.note, State.traced, eventsOf_cons, eventsOf_nil, Call.events, List.append_assoc,
    List.cons_append, List.nil_append, List.append_nil]

theorem selDeassert_ok {s : State} (h : s.Selected) :
    selDeassert s = .ok ((), s.afterDeassert) := by
  simp only [State.afterDeassert, selDeassert, op_bind_apply, requireLines_ok h.1, requireSel_ok h.2.1, requireClockLow_ok h.2.2, dly, driveSel,
    note, update_apply, State.log, State.note, State.traced, eventsOf_cons, eventsOf_nil, Call.events, List.append_assoc,
    List.cons_append, List.nil_append, List.append_nil]

theorem xfer_ok {s : State} (out : Byte) (h : s.Selected) :
    xfer out s = .ok (s.inByte 0, s.afterXfer out) := by
  obtain ⟨h1, h2, h3⟩ := h
  simp only [State.afterXfer, xfer, op_bind_apply, requireLines_ok h1, requireSel_ok h2, requireClockLow_ok h3, update_apply, xferBits_eight,
    note, State.note, op_pure_apply, State.shifted, State.taken, State.traced, State.inByte, eventsOf_cons, eventsOf_nil,
    List.append_nil, h3, Nat.reduceMul, Nat.sub_self]

theorem delay_inside {s : State} (p : DelayName) (h : s.sel = some false) :
    delay p s = .ok ((), s.afterDelayIn p) := by
  simp only [State.afterDelayIn, delay, op_bind_apply, dly, note, update_apply, State.log, State.note, h, if_true, State.traced, eventsOf_cons,
    eventsOf_nil, Call.events, List.append_nil]

theorem delay_outside {s : State} (p : DelayName) (h : s.sel ≠ some false) :
    delay p s = .ok ((), s.afterDelayOut p) := by
  simp only [State.afterDelayOut, delay, op_bind_apply, dly, note, update_apply, State.log, State.note, h, if_false, State.traced, eventsOf_cons,
    eventsOf_nil, Call.events, List.append_nil, waitTxn]

theorem markerOf_markW (p : Params) (a : Addr) : markerOf (markW p a) = p.writeMarker := by
  unfold markerOf markW
  cases p.writeMarker <;> revert a <;> decide +kernel

theorem addrOf_markW (p : Params) (a : Addr) : addrOf (markW p a) = a := by
  unfold addrOf markW
  cases p.writeMarker <;> revert a <;> decide +kernel

theorem markerOf_markR (p : Params) (a : Addr) : markerOf (markR p a) = !p.writeMarker := by
  unfold markerOf markR
  cases p.writeMarker <;> revert a <;> decide +kernel

theorem addrOf_markR (p : Params) (a : Addr) : addrOf (markR p a) = a := by
  unfold addrOf markR
  cases p.writeMarker <;> revert a <;> decide +kernel

/-- The trailing inter-transaction delay of a frame is no `Wait` (R142). -/
theorem waitTxn_interTxn {s : State} (h : endsInAccess s.cfg s.t1 = true) : waitTxn s .tInterTxn = [] := by
  simp [waitTxn, h]

/-- The test on the call trace says what it should (R142, R144). -/
theorem endsInAccess_iff (s : State) : endsInAccess s.cfg s.t1 = true ↔ s.JustClosedAccess := by
  constructor
  · intro h
    unfold endsInAccess at h
    split at h
    · rename_i x j i d b rest e
      have e' := congrArg List.reverse e
      exact ⟨rest.reverse, _, _, _, _, .inl ⟨by simpa using e', eq_of_beq h⟩⟩
    · rename_i x j i d b rest e
      have e' := congrArg List.reverse e
      exact ⟨rest.reverse, _, _, _, _, .inr ⟨by simpa using e', by simpa using h⟩⟩
    · cases h
  · rintro ⟨cs, b, i, d, j, ⟨e, m⟩ | ⟨e, m⟩⟩ <;> rw [e] <;> simp [endsInAccess, m]

/-- Any other delay outside a frame is a `Wait` (R40). -/
theorem waitTxn_other (s : State) {p : DelayName} (h : p ≠ .tInterTxn) : waitTxn s p = [.wait p] := by
  simp [waitTxn, h]

theorem Idle.assert {s : State} (h : s.Idle) : s.afterAssert.Selected := ⟨h.1, rfl, h.2.2⟩

theorem Selected.xfer {s : State} (o : Byte) (h : s.Selected) : (s.afterXfer o).Selected := h

theorem Selected.delay {s : State} (p : DelayName) (h : s.Selected) : (s.afterDelayIn p).Selected := h

theorem Selected.setFwidx {s : State} (k : Nat) (h : s.Selected) : (s.setFwidx k).Selected := h

theorem Selected.deassert {s : State} (h : s.Selected) : s.afterDeassert.Idle := ⟨h.1, rfl, h.2.2⟩

/-- The state WRREG's calls lead to, in closed form. -/
theorem afterWrite_eq {s : State} (a : Addr) (v : Byte) (h : s.Idle) :
    (((((s.afterAssert.afterXfer (markW s.cfg a)).afterDelayIn .tWrPhase).afterXfer v).afterDeassert).afterDelayOut
      .tInterTxn) = s.afterWrite a v := by
  simp only [State.afterWrite, State.afterAssert, State.afterXfer, State.afterDelayIn, State.afterDeassert,
    State.afterDelayOut, State.traced, State.shifted, State.taken, State.inByte, writeCalls, classify, waitTxn,
    byteIn_drop, markerOf_markW, addrOf_markW, eventsOf_cons, eventsOf_nil, h.2.1, List.append_assoc, List.nil_append,
    List.cons_append, List.append_nil, State.mk.injEq, List.drop_drop, List.length_drop]
  simp [endsInAccess]
  exact ⟨markerOf_markW _ _, by omega⟩

/-- WRREG where the lines are idle (R141, R142). -/
theorem writeReg_ok {s : State} (a : Addr) (v : Byte) (h : s.Idle) : writeReg a v s = .ok ((), s.afterWrite a v) := by
  have h0 := Idle.assert h
  have h1 := Selected.xfer (markW s.afterAssert.cfg a) h0
  have h2 := Selected.delay .tWrPhase h1
  have h3 := Selected.xfer v h2
  unfold writeReg
  rw [op_bind_ok (selAssert_ok h), op_bind_ok (op_get_apply _), op_bind_ok (xfer_ok _ h0), op_bind_ok (delay_inside _ h1.2.1),
    op_bind_ok (xfer_ok _ h2), op_bind_ok (selDeassert_ok h3), delay_outside _ (by simp [State.afterDeassert])]
  exact congrArg (fun t => Except.ok ((), t)) (afterWrite_eq a v h)

/-- The state an R frame's calls lead to, in closed form. -/
theorem afterReadFrame_eq {s : State} (a : Addr) (d : Byte) (h : s.Idle) :
    (((((s.afterAssert.afterXfer (markR s.cfg a)).afterDelayIn .tRdAddrData).afterXfer d).afterDeassert).afterDelayOut
      .tInterTxn) = s.afterReadFrame a d := by
  have hm : ¬ ((!s.cfg.writeMarker) = s.cfg.writeMarker) := by cases s.cfg.writeMarker <;> decide
  simp only [State.afterReadFrame, State.afterAssert, State.afterXfer, State.afterDelayIn, State.afterDeassert,
    State.afterDelayOut, State.traced, State.shifted, State.taken, State.inByte, readCalls, classify, waitTxn,
    byteIn_drop, markerOf_markR, addrOf_markR, eventsOf_cons, eventsOf_nil, h.2.1, List.append_assoc, List.nil_append,
    List.cons_append, List.append_nil, State.mk.injEq, List.drop_drop, List.length_drop, hm, if_false]
  simp [endsInAccess]
  exact ⟨by rw [markerOf_markR]; exact hm, by omega⟩

/-- An R frame where the lines are idle (R143, R144): its value is the second in byte. -/
theorem readFrame_ok {s : State} (a : Addr) (d : Byte) (h : s.Idle) :
    readFrame a d s = .ok (s.inByte 1, s.afterReadFrame a d) := by
  have h0 := Idle.assert h
  have h1 := Selected.xfer (markR s.afterAssert.cfg a) h0
  have h2 := Selected.delay .tRdAddrData h1
  have h3 := Selected.xfer d h2
  unfold readFrame
  rw [op_bind_ok (selAssert_ok h), op_bind_ok (op_get_apply _), op_bind_ok (xfer_ok _ h0), op_bind_ok (delay_inside _ h1.2.1),
    op_bind_ok (xfer_ok _ h2), op_bind_ok (selDeassert_ok h3),
    op_bind_ok (delay_outside _ (by simp [State.afterDeassert])), op_pure_apply]
  have e1 := afterReadFrame_eq a d h
  have e2 : ((s.afterAssert.afterXfer (markR s.afterAssert.cfg a)).afterDelayIn .tRdAddrData).inByte 0 = s.inByte 1 :=
    byteIn_drop s.din s.dinCount 1 0
  rw [e2]
  exact congrArg (fun t => Except.ok (s.inByte 1, t)) e1

/-- RDREG where the lines are idle (R143, R144). -/
theorem readReg_ok {s : State} (a : Addr) (h : s.Idle) : readReg a s = .ok (s.inByte 1, s.afterRead a) := by
  unfold readReg
  rw [op_bind_ok (op_get_apply _)]
  exact readFrame_ok a _ h

/-- A read frame called singly, where the lines are idle and order and status allow the read (R67, R68). -/
theorem singleRead_ok {s : State} (a : Addr) (d : Byte) (h : s.Idle) (hr : s.MayRead a) :
    singleRead a d s = .ok (s.inByte 1, s.afterReadFrame a d) := by
  unfold singleRead
  rw [op_bind_ok (requireIdle_ok h), op_bind_ok (require_ok hr.1), op_bind_ok (require_ok hr.2), readFrame_ok a d h]

theorem singleReadReg_ok {s : State} (a : Addr) (h : s.Idle) (hr : s.MayRead a) :
    singleReadReg a s = .ok (s.inByte 1, s.afterRead a) := by
  unfold singleReadReg
  rw [op_bind_ok (op_get_apply _)]
  exact singleRead_ok a _ h hr

/-- Out of the fixed order a single read is refused (R67, U1). -/
theorem singleRead_order {s : State} {a : Addr} (d : Byte) (h : s.Idle) (ho : s.inDeltaOrder a = false) :
    singleRead a d s = .error .deltaOrder := by
  unfold singleRead
  rw [op_bind_ok (requireIdle_ok h), op_bind_apply, require_refuses ho]

/-- Under an invalid status a single read of a delta register is refused (R68, U2). -/
theorem singleRead_status {s : State} {a : Addr} (d : Byte) (h : s.Idle) (ho : s.inDeltaOrder a = true)
    (hv : s.underValidStatus a = false) : singleRead a d s = .error .deltaStatus := by
  unfold singleRead
  rw [op_bind_ok (requireIdle_ok h), op_bind_ok (require_ok ho), op_bind_apply, require_refuses hv]

/-- RDREG called singly is the single read frame with the dummy byte (R143). -/
theorem singleReadReg_eq (s : State) (a : Addr) : singleReadReg a s = singleRead a s.cfg.dummyByte s := by
  unfold singleReadReg
  rw [op_bind_ok (op_get_apply _)]

/-- The turn after a read of the delta register at place `k` (R67). -/
theorem nextDelta_read {p : Params} {a : Addr} {k : Nat} (ts : List Txn) (v : Byte) (h : deltaPlace p a = some k) :
    nextDelta p (ts ++ [.read a v]) = (k + 1) % 4 := by
  simp [nextDelta, deltaRead, h]

/-- Transactions none of which reads the status register. -/
theorem no_statusRead {p : Params} {ts : List Txn} (h : ∀ w, .read p.addrMotion w ∉ ts) :
    ts.reverse.findSome? (statusRead p) = none := by
  rw [List.findSome?_eq_none_iff]
  intro x hx
  cases x <;> simp only [statusRead]
  rename_i a w
  rw [if_neg]
  rintro rfl
  exact h w (by simpa using hx)

/-- The status is that of the last read of the status register (R68). -/
theorem statusValid_last {p : Params} {before after : List Txn} (v : Byte) (h : ∀ w, .read p.addrMotion w ∉ after) :
    statusValid p (before ++ .read p.addrMotion v :: after) = !faultTest p v := by
  simp [statusValid, List.findSome?_append, no_statusRead h, statusRead]

/-- With no status byte read nothing is invalid (log entry 13). -/
theorem statusValid_none {p : Params} {ts : List Txn} (h : ∀ w, .read p.addrMotion w ∉ ts) : statusValid p ts = true := by
  simp [statusValid, no_statusRead h]

/-- The empty select cycle where the lines are idle (R94). -/
theorem selectCycle_ok {s : State} (h : s.Idle) : selectCycle s = .ok ((), s.afterCycle) := by
  unfold selectCycle
  rw [op_bind_ok (selAssert_ok h), selDeassert_ok (Idle.assert h)]
  simp [State.afterCycle, State.afterAssert, State.afterDeassert, State.traced, classify, eventsOf, h.2.1]

/-- The state inside the burst after its data bytes `bytes`, the first of which is number `k`. -/
def State.afterBurstBytes (bytes : List Byte) (k : Nat) (s : State) : State :=
  match bytes with
  | [] => s
  | b :: rest =>
    State.afterBurstBytes rest (k + 1) (((s.afterXfer b).afterDelayIn .tBurstByte).setFwidx (k + 1))

theorem afterBurstBytes_selected {s : State} (bytes : List Byte) (k : Nat) (h : s.Selected) :
    (s.afterBurstBytes bytes k).Selected := by
  induction bytes generalizing s k with
  | nil => exact h
  | cons b rest ih => exact ih (k + 1) (Selected.setFwidx _ (Selected.delay _ (Selected.xfer b h)))

/-- The loop of the burst inside a frame (R151). -/
theorem burstBytes_ok {s : State} (bytes : List Byte) (k : Nat) (h : s.Selected) :
    burstBytes bytes k s = .ok ((), s.afterBurstBytes bytes k) := by
  induction bytes generalizing s k with
  | nil => rfl
  | cons b rest ih =>
    unfold burstBytes
    rw [op_bind_ok (xfer_ok b h), op_bind_ok (delay_inside _ (Selected.xfer b h).2.1), op_bind_ok (update_apply _ _)]
    exact ih (k + 1) (Selected.setFwidx _ (Selected.delay _ (Selected.xfer b h)))

/-- The state inside the burst: `n + 1` in bytes taken, `o` the last byte out, the calls `cs` made, `fr` of them in the
open frame, `FWIDX` at `k`. -/
def State.inBurst (s : State) (n : Nat) (o : Byte) (cs fr : List Call) (k : Nat) : State :=
  { (s.shifted (n + 1) o).traced cs with fwidx := k, frame := fr, sel := some false }

theorem inBurst_step (s : State) (n : Nat) (o b : Byte) (cs fr : List Call) (k : Nat) :
    (((s.inBurst n o cs fr k).afterXfer b).afterDelayIn .tBurstByte).setFwidx (k + 1) =
      s.inBurst (n + 1) b (cs ++ [.xfer b (s.inByte (n + 1)), .delay .tBurstByte])
        (fr ++ [.xfer b (s.inByte (n + 1)), .delay .tBurstByte]) (k + 1) := by
  simp only [State.inBurst, State.setFwidx, State.afterXfer, State.afterDelayIn, State.traced, State.shifted, State.taken, State.inByte,
    byteIn_drop, eventsOf_append, eventsOf_cons, eventsOf_nil, List.append_assoc, List.cons_append, List.nil_append,
    List.append_nil, State.mk.injEq, List.drop_drop, List.length_drop, Nat.add_zero, Nat.sub_self, Nat.add_sub_cancel,
    true_and, and_true, Nat.mul_one]
  refine ⟨?_, ?_⟩
  · congr 1
  · omega

/-- The loop of the burst in closed form. -/
theorem afterBurstBytes_eq (s : State) (bytes : List Byte) (n : Nat) (o : Byte) (cs fr : List Call) (k : Nat) :
    State.afterBurstBytes bytes k (s.inBurst n o cs fr k) =
      s.inBurst (n + bytes.length) (bytes.getLast?.getD o) (cs ++ burstDataCalls s.inByte bytes (n + 1))
        (fr ++ burstDataCalls s.inByte bytes (n + 1)) (k + bytes.length) := by
  induction bytes generalizing n o cs fr k with
  | nil => simp [State.afterBurstBytes, burstDataCalls]
  | cons b rest ih =>
    rw [State.afterBurstBytes, inBurst_step, ih]
    simp only [burstDataCalls, List.length_cons, List.getLast?_cons, Option.getD_some, List.append_assoc, List.cons_append,
      List.nil_append]
    congr 1 <;> omega

theorem burstBody_burstDataCalls (inn : Nat → Byte) (bytes : List Byte) (k : Nat) :
    burstBody (burstDataCalls inn bytes k) = some bytes := by
  induction bytes generalizing k with
  | nil => rfl
  | cons b rest ih => simp [burstDataCalls, burstBody, ih]

/-- The burst frame where the lines are idle (R151, R152). -/
theorem burstFrame_ok {s : State} (bytes : List Byte) (h : s.Idle) : burstFrame bytes s = .ok ((), s.afterBurst bytes) := by
  have h0 := Idle.assert h
  have h1 := Selected.xfer (markW s.afterAssert.cfg s.afterAssert.cfg.addrSromBurst) h0
  have h2 := Selected.delay .tBurstByte h1
  have h3 := Selected.setFwidx 0 h2
  have e : ((s.afterAssert.afterXfer (markW s.cfg s.cfg.addrSromBurst)).afterDelayIn .tBurstByte).setFwidx 0 =
      s.inBurst 0 (markW s.cfg s.cfg.addrSromBurst)
        [.assert, .xfer (markW s.cfg s.cfg.addrSromBurst) (s.inByte 0), .delay .tBurstByte]
        [.xfer (markW s.cfg s.cfg.addrSromBurst) (s.inByte 0), .delay .tBurstByte] 0 := by
    simp [State.inBurst, State.setFwidx, State.afterAssert, State.afterXfer, State.afterDelayIn, State.traced, State.shifted, State.taken,
      State.inByte]
  unfold burstFrame
  rw [op_bind_ok (selAssert_ok h), op_bind_ok (op_get_apply _), op_bind_ok (xfer_ok _ h0), op_bind_ok (delay_inside _ h1.2.1),
    op_bind_ok (update_apply _ _), op_bind_ok (burstBytes_ok bytes 0 h3), selDeassert_ok (afterBurstBytes_selected bytes 0 h3)]
  refine congrArg (fun t => Except.ok ((), t)) ?_
  refine (congrArg (fun t => State.afterDeassert (State.afterBurstBytes bytes 0 t)) e).trans ?_
  rw [afterBurstBytes_eq]
  simp [State.afterDeassert, State.afterBurst, State.inBurst, State.traced, State.shifted, State.taken, burstCalls, classify,
    burstBody_burstDataCalls, markerOf_markW, addrOf_markW, eventsOf_append, h.2.1, State.inByte, Nat.add_comm]

/-- The burst of the image (R151). -/
theorem burstImage_ok {s : State} (h : s.Idle) : burstImage s = .ok ((), s.afterBurst s.cfg.fw) := by
  unfold burstImage
  rw [op_bind_ok (op_get_apply _)]
  exact burstFrame_ok _ h

theorem afterWrite_idle {s : State} (a : Addr) (v : Byte) (h : s.Idle) : (s.afterWrite a v).Idle := h

theorem afterRead_idle {s : State} (a : Addr) (h : s.Idle) : (s.afterRead a).Idle := h

theorem afterReadFrame_idle {s : State} (a : Addr) (d : Byte) (h : s.Idle) : (s.afterReadFrame a d).Idle := h

theorem afterBurst_idle {s : State} (bytes : List Byte) (h : s.Idle) : (s.afterBurst bytes).Idle := h

theorem afterWait_idle {s : State} (p : DelayName) (h : s.Idle) : (s.afterWait p).Idle := h

theorem afterInit_idle (s : State) : s.afterInit.Idle := ⟨rfl, rfl, rfl⟩

theorem afterCycle_idle {s : State} (h : s.Idle) : s.afterCycle.Idle := h

/-- A delay outside a frame that is no trailing delay (R40, R128). -/
theorem delay_wait {s : State} {p : DelayName} (h : s.sel ≠ some false) (hp : p ≠ .tInterTxn) :
    delay p s = .ok ((), s.afterWait p) := by
  rw [delay_outside p h, State.afterDelayOut, waitTxn_other s hp, State.afterWait]

/-- UPLOAD where the lines are idle (R151). -/
theorem upload_ok {s : State} (h : s.Idle) : upload s = .ok ((), s.afterUpload) := by
  have h1 := afterWrite_idle s.cfg.addrSromEnable s.cfg.cmdSromLoad h
  have hw := delay_wait (s := s.afterWrite s.cfg.addrSromEnable s.cfg.cmdSromLoad) (p := .tLoadSettle)
    (by rw [h1.2.1]; decide) (by decide)
  unfold upload
  rw [op_bind_ok (op_get_apply _), op_bind_ok (writeReg_ok _ _ h), op_bind_ok hw,
    burstImage_ok (afterWait_idle .tLoadSettle h1)]
  rfl

end Sys2Proof.Machine
end

