-- ==== Sys2Proof/Laws/Sequences.lean ====
section
/-! SUPPORT. The operations above the frames in closed form: VERIFY (42_firmware_loader.md R154), the dump's loop
(43_init_state_machine.md R172), the delta reads of POLL (44_motion_decoder.md R184), the guard of the ST_ operations. -/

namespace Sys2Proof.Machine

theorem requireState_ok {ok : DState → Bool} {s : State} (h : ok s.dstate = true) : requireState ok s = .ok ((), s) :=
  require_ok h

theorem requireState_refuses {ok : DState → Bool} {s : State} (h : ok s.dstate = false) :
    requireState ok s = .error .notInState :=
  require_refuses h

/-- An operation behind a guard that fails is refused. -/
theorem guarded_refuses {α : Type} {ok : DState → Bool} {s : State} (f : Unit → Op α) (h : ok s.dstate = false) :
    (requireState ok >>= f) s = .error .notInState := by
  rw [op_bind_apply, requireState_refuses h]

/-- The in bytes after an R frame are the ones after its two. -/
theorem inByte_afterReadFrame (s : State) (a : Addr) (d : Byte) (k : Nat) :
    (s.afterReadFrame a d).inByte k = s.inByte (2 + k) :=
  byteIn_drop s.din s.dinCount 2 k

theorem inByte_afterRead (s : State) (a : Addr) (k : Nat) : (s.afterRead a).inByte k = s.inByte (2 + k) :=
  byteIn_drop s.din s.dinCount 2 k

theorem inByte_afterWrite (s : State) (a : Addr) (v : Byte) (k : Nat) :
    (s.afterWrite a v).inByte k = s.inByte (2 + k) :=
  byteIn_drop s.din s.dinCount 2 k

theorem inByte_afterBurst (s : State) (bytes : List Byte) (k : Nat) :
    (s.afterBurst bytes).inByte k = s.inByte (bytes.length + 1 + k) :=
  byteIn_drop s.din s.dinCount (bytes.length + 1) k

/-- A state whose lines are another's is idle with it. -/
theorem Idle.of_lines {s t : State} (h : s.Idle) (h1 : t.linesCfg = s.linesCfg) (h2 : t.sel = s.sel) (h3 : t.clk = s.clk) :
    t.Idle :=
  ⟨h1.trans h.1, h2.trans h.2.1, h3.trans h.2.2⟩

/-- The in bytes depend on the sample source only. -/
theorem inByte_congr {s t : State} (h1 : t.din = s.din) (h2 : t.dinCount = s.dinCount) (k : Nat) :
    t.inByte k = s.inByte k := by
  simp only [State.inByte, h1, h2]

theorem Idle.setCodeLo {s : State} (v : Byte) (h : s.Idle) : (s.setCodeLo v).Idle := ⟨h.1, h.2.1, h.2.2⟩

theorem Idle.setCodeHi {s : State} (v : Byte) (h : s.Idle) : (s.setCodeHi v).Idle := ⟨h.1, h.2.1, h.2.2⟩

theorem inByte_setCodeLo (s : State) (v : Byte) (k : Nat) : (s.setCodeLo v).inByte k = s.inByte k := rfl

theorem inByte_afterWait (s : State) (p : DelayName) (k : Nat) : (s.afterWait p).inByte k = s.inByte k := rfl

/-- VERIFY where the lines are idle (R154): both code bytes read low first, then compared together. -/
theorem verify_ok {s : State} (h : s.Idle) :
    verify s = .ok (codeOf s.codeHi s.codeLo == s.cfg.expectedCode, s.afterVerify) := by
  have h0 := afterWrite_idle s.cfg.addrSromEnable s.cfg.cmdSromVerify h
  have hw := delay_wait (p := .tVerifySettle) (fun e => by cases h0.2.1.symm.trans e) (by decide)
  have h1 := afterWait_idle .tVerifySettle h0
  have e1 : ((s.afterWrite s.cfg.addrSromEnable s.cfg.cmdSromVerify).afterWait .tVerifySettle).inByte 1 = s.codeLo :=
    (inByte_afterWait _ _ _).trans (inByte_afterWrite s _ _ 1)
  have h2 := Idle.setCodeLo s.codeLo (afterRead_idle s.cfg.addrCodeLo h1)
  have e2 : ((((s.afterWrite s.cfg.addrSromEnable s.cfg.cmdSromVerify).afterWait .tVerifySettle).afterRead
      s.cfg.addrCodeLo).setCodeLo s.codeLo).inByte 1 = s.codeHi :=
    (inByte_setCodeLo _ _ _).trans ((inByte_afterRead _ _ 1).trans
      ((inByte_afterWait _ _ _).trans (inByte_afterWrite s _ _ 3)))
  unfold verify
  rw [op_bind_ok (op_get_apply _), op_bind_ok (writeReg_ok _ _ h), op_bind_ok hw, op_bind_ok (readReg_ok _ h1),
    op_bind_ok (update_apply _ _), e1, op_bind_ok (readReg_ok _ h2), op_bind_ok (update_apply _ _), op_pure_apply, e2,
    State.afterVerify]

/-- The state after step 4 of POLL: four reads, low before high, x before y, each stored; the deltas; the sample (R184). -/
def State.afterSample (s : State) : State :=
  let s1 := (s.afterRead s.cfg.addrDeltaXL).setDxl (s.inByte 1)
  let s2 := (s1.afterRead s.cfg.addrDeltaXH).setDxh (s.inByte 3)
  let s3 := (s2.afterRead s.cfg.addrDeltaYL).setDyl (s.inByte 5)
  let s4 := (s3.afterRead s.cfg.addrDeltaYH).setDyh (s.inByte 7)
  (s4.setDeltas (delta16 (s.inByte 1) (s.inByte 3)) (delta16 (s.inByte 5) (s.inByte 7))).emit
    (.motionSample (toInt16 (delta16 (s.inByte 1) (s.inByte 3))) (toInt16 (delta16 (s.inByte 5) (s.inByte 7))))

theorem readSample_ok {s : State} (h : s.Idle) : readSample s = .ok ((), s.afterSample) := by
  have h1 := Idle.of_lines (t := (s.afterRead s.cfg.addrDeltaXL).setDxl (s.inByte 1)) h rfl rfl rfl
  have e1 : ((s.afterRead s.cfg.addrDeltaXL).setDxl (s.inByte 1)).inByte 1 = s.inByte 3 :=
    (inByte_congr (s := s.afterRead s.cfg.addrDeltaXL) rfl rfl 1).trans (inByte_afterRead s _ 1)
  have n1 : ((s.afterRead s.cfg.addrDeltaXL).setDxl (s.inByte 1)).inByte 3 = s.inByte 5 :=
    (inByte_congr (s := s.afterRead s.cfg.addrDeltaXL) rfl rfl 3).trans (inByte_afterRead s _ 3)
  have n2 : ((s.afterRead s.cfg.addrDeltaXL).setDxl (s.inByte 1)).inByte 5 = s.inByte 7 :=
    (inByte_congr (s := s.afterRead s.cfg.addrDeltaXL) rfl rfl 5).trans (inByte_afterRead s _ 5)
  unfold readSample State.afterSample
  dsimp only
  rw [op_bind_ok (op_get_apply _), op_bind_ok (readReg_ok _ h), op_bind_ok (update_apply _ _)]
  generalize (s.afterRead s.cfg.addrDeltaXL).setDxl (s.inByte 1) = s1 at *
  have h2 := Idle.of_lines (t := (s1.afterRead s.cfg.addrDeltaXH).setDxh (s.inByte 3)) h1 rfl rfl rfl
  have e2 : ((s1.afterRead s.cfg.addrDeltaXH).setDxh (s.inByte 3)).inByte 1 = s.inByte 5 :=
    ((inByte_congr (s := s1.afterRead s.cfg.addrDeltaXH) rfl rfl 1).trans (inByte_afterRead s1 _ 1)).trans n1
  have n3 : ((s1.afterRead s.cfg.addrDeltaXH).setDxh (s.inByte 3)).inByte 3 = s.inByte 7 :=
    ((inByte_congr (s := s1.afterRead s.cfg.addrDeltaXH) rfl rfl 3).trans (inByte_afterRead s1 _ 3)).trans n2
  rw [op_bind_ok (readReg_ok _ h1), op_bind_ok (update_apply _ _), e1]
  generalize (s1.afterRead s.cfg.addrDeltaXH).setDxh (s.inByte 3) = s2 at *
  have h3 := Idle.of_lines (t := (s2.afterRead s.cfg.addrDeltaYL).setDyl (s.inByte 5)) h2 rfl rfl rfl
  have e3 : ((s2.afterRead s.cfg.addrDeltaYL).setDyl (s.inByte 5)).inByte 1 = s.inByte 7 :=
    ((inByte_congr (s := s2.afterRead s.cfg.addrDeltaYL) rfl rfl 1).trans (inByte_afterRead s2 _ 1)).trans n3
  rw [op_bind_ok (readReg_ok _ h2), op_bind_ok (update_apply _ _), e2]
  generalize (s2.afterRead s.cfg.addrDeltaYL).setDyl (s.inByte 5) = s3 at *
  rw [op_bind_ok (readReg_ok _ h3), op_bind_ok (update_apply _ _), e3, op_bind_ok (update_apply _ _), update_apply]

/-- The dump's loop in closed form. -/
def State.afterDumpReads : List (DumpLabel × Addr) → State → State
  | [], s => s
  | (l, a) :: rest, s => State.afterDumpReads rest (s.afterDumpRead l a)

theorem afterDumpRead_idle {s : State} (l : DumpLabel) (a : Addr) (h : s.Idle) : (s.afterDumpRead l a).Idle :=
  afterRead_idle a h

theorem afterDumpReads_idle {s : State} (las : List (DumpLabel × Addr)) (h : s.Idle) :
    (State.afterDumpReads las s).Idle := by
  induction las generalizing s with
  | nil => exact h
  | cons la rest ih => exact ih (afterDumpRead_idle la.1 la.2 h)

theorem dumpRegs_ok {s : State} (las : List (DumpLabel × Addr)) (h : s.Idle) :
    dumpRegs las s = .ok ((), State.afterDumpReads las s) := by
  induction las generalizing s with
  | nil => rfl
  | cons la rest ih =>
    unfold dumpRegs
    rw [op_bind_ok (readReg_ok la.2 h), op_bind_ok (update_apply _ _), op_bind_ok (update_apply _ _)]
    exact ih (afterDumpRead_idle la.1 la.2 h)

/-- DUMP where the lines are idle (R172). -/
theorem dump_ok {s : State} (h : s.Idle) : dump s = .ok ((), State.afterDumpReads (dumpList s.cfg) s) := by
  unfold dump
  rw [op_bind_ok (op_get_apply _)]
  exact dumpRegs_ok _ h

end Sys2Proof.Machine
end

