-- ==== Sys2Proof/Laws/Keeps.lean ====
section
/-! SUPPORT. What every operation keeps. A relation between the state before and after is kept by a composite operation if
it is reflexive, transitive and kept by its parts; the five Bus Primitive operations are inverted here once, so that a
relation is checked on five closed forms and then holds of every frame (R129, R40). -/

namespace Sys2Proof.Machine

variable {α β : Type} {R : State → State → Prop}

/-- Where the operation succeeds, the relation holds between the state before and the state after. -/
def Keeps (R : State → State → Prop) (op : Op α) : Prop := ∀ s a t, op s = .ok (a, t) → R s t

/-- A relation that composes: reflexive and transitive. -/
structure Composes (R : State → State → Prop) : Prop where
  refl : ∀ s, R s s
  trans : ∀ {s t u}, R s t → R t u → R s u

theorem op_bind_inv {x : Op α} {f : α → Op β} {s : State} {b : β} {u : State} (h : (x >>= f) s = .ok (b, u)) :
    ∃ a t, x s = .ok (a, t) ∧ f a t = .ok (b, u) := by
  rw [op_bind_apply] at h
  split at h
  · exact ⟨_, _, ‹_›, h⟩
  · cases h

theorem Keeps.bind (c : Composes R) {x : Op α} {f : α → Op β} (hx : Keeps R x) (hf : ∀ a, Keeps R (f a)) :
    Keeps R (x >>= f) := by
  intro s b u h
  obtain ⟨a, t, h1, h2⟩ := op_bind_inv h
  exact c.trans (hx s a t h1) (hf a t b u h2)

theorem Keeps.pure (c : Composes R) (a : α) : Keeps R (Pure.pure a) := by
  intro s b t h
  cases h
  exact c.refl s

theorem Keeps.get (c : Composes R) : Keeps R (get : Op State) := by
  intro s b t h
  cases h
  exact c.refl s

theorem Keeps.update {f : State → State} (h : ∀ s, R s (f s)) : Keeps R (update f) := by
  intro s b t e
  cases e
  exact h s

theorem Keeps.require (c : Composes R) (p : State → Bool) (r : Refusal) : Keeps R (require p r) := by
  intro s b t h
  unfold Machine.require at h
  split at h <;> cases h
  exact c.refl s

theorem require_inv {p : State → Bool} {r : Refusal} {s t : State} {a : Unit} (h : require p r s = .ok (a, t)) :
    p s = true ∧ t = s := by
  unfold require at h
  split at h <;> cases h
  exact ⟨‹_›, rfl⟩

theorem requireState_inv {ok : DState → Bool} {s t : State} {a : Unit} (h : requireState ok s = .ok (a, t)) :
    ok s.dstate = true ∧ t = s :=
  require_inv h

theorem Keeps.ite {p : Prop} [Decidable p] {x y : Op α} (hx : Keeps R x) (hy : Keeps R y) :
    Keeps R (if p then x else y) := by
  split <;> assumption

/-- The lines are idle where SEL_ASSERT's precondition passes (R123). -/
theorem requireIdle_inv {s t : State} {a : Unit} (h : requireIdle s = .ok (a, t)) : s.Idle ∧ t = s := by
  unfold requireIdle at h
  obtain ⟨_, t1, h1, k1⟩ := op_bind_inv h
  obtain ⟨c1, rfl⟩ := require_inv h1
  obtain ⟨_, t2, h2, k2⟩ := op_bind_inv k1
  obtain ⟨c2, rfl⟩ := require_inv h2
  obtain ⟨c3, rfl⟩ := require_inv k2
  exact ⟨⟨c1, by simpa using c2, by simpa using c3⟩, rfl⟩

/-- SEL_ASSERT succeeds from idle lines only (R123). -/
theorem selAssert_inv {s t : State} {a : Unit} (h : selAssert s = .ok (a, t)) : s.Idle ∧ t = s.afterAssert := by
  have hi : s.Idle := by
    unfold selAssert at h
    obtain ⟨_, t1, h1, -⟩ := op_bind_inv h
    exact (requireIdle_inv h1).1
  rw [selAssert_ok hi] at h
  cases h
  exact ⟨hi, rfl⟩

/-- SEL_DEASSERT succeeds from selected lines only (R123). -/
theorem selDeassert_inv {s t : State} {a : Unit} (h : selDeassert s = .ok (a, t)) :
    s.Selected ∧ t = s.afterDeassert := by
  have hi : s.Selected := by
    unfold selDeassert at h
    obtain ⟨_, t1, h1, k1⟩ := op_bind_inv h
    obtain ⟨c1, rfl⟩ := require_inv h1
    obtain ⟨_, t2, h2, k2⟩ := op_bind_inv k1
    obtain ⟨c2, rfl⟩ := require_inv h2
    obtain ⟨_, t3, h3, -⟩ := op_bind_inv k2
    obtain ⟨c3, rfl⟩ := require_inv h3
    exact ⟨c1, by simpa using c2, by simpa using c3⟩
  rw [selDeassert_ok hi] at h
  cases h
  exact ⟨hi, rfl⟩

/-- XFER succeeds from selected lines only (R127). -/
theorem xfer_inv {o v : Byte} {s t : State} (h : xfer o s = .ok (v, t)) :
    s.Selected ∧ v = s.inByte 0 ∧ t = s.afterXfer o := by
  have hi : s.Selected := by
    unfold xfer at h
    obtain ⟨_, t1, h1, k1⟩ := op_bind_inv h
    obtain ⟨c1, rfl⟩ := require_inv h1
    obtain ⟨_, t2, h2, k2⟩ := op_bind_inv k1
    obtain ⟨c2, rfl⟩ := require_inv h2
    obtain ⟨_, t3, h3, -⟩ := op_bind_inv k2
    obtain ⟨c3, rfl⟩ := require_inv h3
    exact ⟨c1, by simpa using c2, by simpa using c3⟩
  rw [xfer_ok o hi] at h
  cases h
  exact ⟨hi, rfl, rfl⟩

theorem delay_inv {p : DelayName} {s t : State} {a : Unit} (h : delay p s = .ok (a, t)) :
    (s.sel = some false ∧ t = s.afterDelayIn p) ∨ (s.sel ≠ some false ∧ t = s.afterDelayOut p) := by
  rcases Decidable.em (s.sel = some false) with hs | hs
  · rw [delay_inside p hs] at h
    cases h
    exact .inl ⟨hs, rfl⟩
  · rw [delay_outside p hs] at h
    cases h
    exact .inr ⟨hs, rfl⟩

/-- A relation that composes and holds across each Bus Primitive call, and across `FWIDX`'s updates inside a burst. -/
structure KeptByBus (R : State → State → Prop) : Prop extends Composes R where
  init : ∀ s, R s s.afterInit
  assert : ∀ s, s.Idle → R s s.afterAssert
  deassert : ∀ s, s.Selected → R s s.afterDeassert
  xfer : ∀ s o, s.Selected → R s (s.afterXfer o)
  delayIn : ∀ s p, s.sel = some false → R s (s.afterDelayIn p)
  delayOut : ∀ s p, s.sel ≠ some false → R s (s.afterDelayOut p)
  fwidx : ∀ s k, R s (s.setFwidx k)

theorem KeptByBus.keeps_init (c : KeptByBus R) : Keeps R busInit := by
  intro s a t h
  rw [busInit_ok] at h
  cases h
  exact c.init s

theorem KeptByBus.keeps_assert (c : KeptByBus R) : Keeps R selAssert := by
  intro s a t h
  obtain ⟨hi, rfl⟩ := selAssert_inv h
  exact c.assert s hi

theorem KeptByBus.keeps_deassert (c : KeptByBus R) : Keeps R selDeassert := by
  intro s a t h
  obtain ⟨hi, rfl⟩ := selDeassert_inv h
  exact c.deassert s hi

theorem KeptByBus.keeps_xfer (c : KeptByBus R) (o : Byte) : Keeps R (Machine.xfer o) := by
  intro s a t h
  obtain ⟨hi, -, rfl⟩ := xfer_inv h
  exact c.xfer s o hi

theorem KeptByBus.keeps_delay (c : KeptByBus R) (p : DelayName) : Keeps R (delay p) := by
  intro s a t h
  obtain ⟨hi, rfl⟩ | ⟨hi, rfl⟩ := delay_inv h
  · exact c.delayIn s p hi
  · exact c.delayOut s p hi

theorem KeptByBus.keeps_writeReg (c : KeptByBus R) (a : Addr) (v : Byte) : Keeps R (writeReg a v) :=
  have k := c.toComposes
  .bind k c.keeps_assert fun _ => .bind k (.get k) fun _ => .bind k (c.keeps_xfer _) fun _ =>
    .bind k (c.keeps_delay _) fun _ => .bind k (c.keeps_xfer _) fun _ => .bind k c.keeps_deassert fun _ => c.keeps_delay _

theorem KeptByBus.keeps_readFrame (c : KeptByBus R) (a : Addr) (d : Byte) : Keeps R (readFrame a d) :=
  have k := c.toComposes
  .bind k c.keeps_assert fun _ => .bind k (.get k) fun _ => .bind k (c.keeps_xfer _) fun _ =>
    .bind k (c.keeps_delay _) fun _ => .bind k (c.keeps_xfer _) fun _ => .bind k c.keeps_deassert fun _ =>
      .bind k (c.keeps_delay _) fun _ => .pure k _

theorem KeptByBus.keeps_readReg (c : KeptByBus R) (a : Addr) : Keeps R (readReg a) :=
  .bind c.toComposes (.get c.toComposes) fun _ => c.keeps_readFrame a _

theorem KeptByBus.keeps_singleRead (c : KeptByBus R) (a : Addr) (d : Byte) : Keeps R (singleRead a d) := by
  intro s v t h
  unfold singleRead at h
  obtain ⟨_, _, h1, k1⟩ := op_bind_inv h
  obtain ⟨-, rfl⟩ := requireIdle_inv h1
  obtain ⟨_, _, h2, k2⟩ := op_bind_inv k1
  obtain ⟨-, rfl⟩ := require_inv h2
  obtain ⟨_, _, h3, k3⟩ := op_bind_inv k2
  obtain ⟨-, rfl⟩ := require_inv h3
  exact c.keeps_readFrame a d _ _ _ k3

theorem KeptByBus.keeps_singleReadReg (c : KeptByBus R) (a : Addr) : Keeps R (singleReadReg a) :=
  .bind c.toComposes (.get c.toComposes) fun _ => c.keeps_singleRead a _

theorem KeptByBus.keeps_selectCycle (c : KeptByBus R) : Keeps R selectCycle :=
  .bind c.toComposes c.keeps_assert fun _ => c.keeps_deassert

theorem KeptByBus.keeps_burstBytes (c : KeptByBus R) (bytes : List Byte) (k : Nat) : Keeps R (burstBytes bytes k) := by
  induction bytes generalizing k with
  | nil => exact .pure c.toComposes ()
  | cons b rest ih =>
    exact .bind c.toComposes (c.keeps_xfer b) fun _ => .bind c.toComposes (c.keeps_delay _) fun _ =>
      .bind c.toComposes (.update fun s => c.fwidx s _) fun _ => ih _

theorem KeptByBus.keeps_burstFrame (c : KeptByBus R) (bytes : List Byte) : Keeps R (burstFrame bytes) :=
  have k := c.toComposes
  .bind k c.keeps_assert fun _ => .bind k (.get k) fun _ => .bind k (c.keeps_xfer _) fun _ =>
    .bind k (c.keeps_delay _) fun _ => .bind k (.update fun s => c.fwidx s 0) fun _ =>
      .bind k (c.keeps_burstBytes _ _) fun _ => c.keeps_deassert

theorem KeptByBus.keeps_burstImage (c : KeptByBus R) : Keeps R burstImage :=
  .bind c.toComposes (.get c.toComposes) fun _ => c.keeps_burstFrame _

theorem KeptByBus.keeps_upload (c : KeptByBus R) : Keeps R upload :=
  .bind c.toComposes (.get c.toComposes) fun _ => .bind c.toComposes (c.keeps_writeReg _ _) fun _ =>
    .bind c.toComposes (c.keeps_delay _) fun _ => c.keeps_burstImage

/-- A relation that also holds across the holding registers initialization writes. -/
structure KeptByInit (R : State → State → Prop) : Prop extends KeptByBus R where
  /-- H_PID is written in the product-id check only (R165) -/
  pid : ∀ s v, s.dstate = .productIdCheck → R s (s.setPid v)
  ipid : ∀ s v, R s (s.setIpid v)
  codeLo : ∀ s v, R s (s.setCodeLo v)
  codeHi : ∀ s v, R s (s.setCodeHi v)
  laser : ∀ s v, R s (s.setLaser v)

/-- A relation that also holds across the other registers, PEND, DUMPED, SEQPOS and the result, and across the emission of
an event that is no failure. -/
structure KeptByRegs (R : State → State → Prop) : Prop extends KeptByInit R where
  status : ∀ s v, R s (s.setStatus v)
  dxl : ∀ s v, R s (s.setDxl v)
  dxh : ∀ s v, R s (s.setDxh v)
  dyl : ∀ s v, R s (s.setDyl v)
  dyh : ∀ s v, R s (s.setDyh v)
  deltas : ∀ s x y, R s (s.setDeltas x y)
  dump : ∀ s v, R s (s.setDump v)
  dumped : ∀ s, R s s.setDumped
  seqpos : ∀ s k, R s (s.setSeqpos k)
  clear : ∀ s, R s { s with pend := false }
  ret : ∀ s r, R s { s with ret := r }
  emitSample : ∀ s x y, R s (s.emit (.motionSample x y))
  emitFault : ∀ s v, R s (s.emit (.motionFault v))
  emitDump : ∀ s l v, R s (s.emit (.regDump l v))

theorem KeptByInit.keeps_verify (c : KeptByInit R) : Keeps R verify :=
  have k := c.toComposes
  .bind k (.get k) fun _ => .bind k (c.keeps_writeReg _ _) fun _ => .bind k (c.keeps_delay _) fun _ =>
    .bind k (c.keeps_readReg _) fun _ => .bind k (.update fun s => c.codeLo s _) fun _ =>
      .bind k (c.keeps_readReg _) fun _ => .bind k (.update fun s => c.codeHi s _) fun _ => .pure k _

theorem KeptByRegs.keeps_dumpRegs (c : KeptByRegs R) (las : List (DumpLabel × Addr)) : Keeps R (dumpRegs las) := by
  have k := c.toComposes
  induction las with
  | nil => exact .pure k ()
  | cons la rest ih =>
    exact .bind k (c.keeps_readReg _) fun _ => .bind k (.update fun s => c.dump s _) fun _ =>
      .bind k (.update fun s => c.emitDump s _ _) fun _ => ih

theorem KeptByRegs.keeps_dump (c : KeptByRegs R) : Keeps R Machine.dump :=
  .bind c.toComposes (.get c.toComposes) fun _ => c.keeps_dumpRegs _

theorem KeptByRegs.keeps_testClear (c : KeptByRegs R) : Keeps R testClear := by
  intro s a t h
  cases h
  exact c.clear s

theorem KeptByRegs.keeps_statusDecode (c : KeptByRegs R) (v : Byte) : Keeps R (statusDecode v) :=
  .bind c.toComposes (.get c.toComposes) fun _ => .pure c.toComposes _

theorem KeptByRegs.keeps_readSample (c : KeptByRegs R) : Keeps R readSample :=
  have k := c.toComposes
  .bind k (.get k) fun _ =>
    .bind k (c.keeps_readReg _) fun _ => .bind k (.update fun s => c.dxl s _) fun _ =>
    .bind k (c.keeps_readReg _) fun _ => .bind k (.update fun s => c.dxh s _) fun _ =>
    .bind k (c.keeps_readReg _) fun _ => .bind k (.update fun s => c.dyl s _) fun _ =>
    .bind k (c.keeps_readReg _) fun _ => .bind k (.update fun s => c.dyh s _) fun _ =>
    .bind k (.update fun s => c.deltas s _ _) fun _ => .update fun s => c.emitSample s _ _

theorem KeptByRegs.keeps_poll (c : KeptByRegs R) : Keeps R poll :=
  have k := c.toComposes
  .bind k (.get k) fun _ => .ite
    (.bind k (.get k) fun _ => .bind k (c.keeps_readReg _) fun _ => .bind k (.update fun s => c.status s _) fun _ =>
      .bind k (c.keeps_statusDecode _) fun _ =>
        .ite (.update fun s => c.emitFault s _) (.ite c.keeps_readSample (.pure k ())))
    (.pure k ())

theorem KeptByRegs.keeps_loopIteration (c : KeptByRegs R) : Keeps R loopIteration :=
  .bind c.toComposes c.keeps_testClear fun _ => .ite c.keeps_poll (.pure c.toComposes ())

theorem KeptByRegs.keeps_readyDump (c : KeptByRegs R) : Keeps R readyDump := by
  have k := c.toComposes
  unfold readyDump
  refine .bind k (.get k) fun s => ?_
  split
  · exact .bind k c.keeps_dump fun _ => .bind k (.update c.dumped) fun _ => .update fun s => c.seqpos s 1
  · exact .bind k (.pure k ()) fun _ => .update fun s => c.seqpos s 1

theorem KeptByRegs.keeps_stReady (c : KeptByRegs R) : Keeps R stReady :=
  .bind c.toComposes (.require c.toComposes _ _) fun _ => .bind c.toComposes (.get c.toComposes) fun _ =>
    .ite c.keeps_readyDump c.keeps_loopIteration

theorem KeptByRegs.keeps_stFailed (c : KeptByRegs R) : Keeps R stFailed :=
  .bind c.toComposes (.require c.toComposes _ _) fun _ => c.keeps_loopIteration

/-- The last act of a Device State's action: the move to the next state, or the failure (R160 to R169, R203). -/
def Moves : DState → State → State → Prop
  | .reset, u, v => v = u.goto .powerUp
  | .powerUp, u, v => v = u.goto .drain
  | .drain, u, v => v = u.goto .firmwareUpload
  | .firmwareUpload, u, v => v = u.goto .productIdCheck
  | .productIdCheck, u, v => v = u.goto .inverseIdCheck ∨ ∃ bs, v = u.raiseFailed .productIdMismatch bs
  | .inverseIdCheck, u, v => v = u.goto .integrityCheck ∨ ∃ bs, v = u.raiseFailed .inverseIdMismatch bs
  | .integrityCheck, u, v => v = u.goto .laserConfig ∨ ∃ bs, v = u.raiseFailed .integrityMismatch bs
  | .laserConfig, u, v => v = u.goto .ready
  | .ready, _, _ => False
  | .failed _, _, _ => False

/-- An operation that is what a kept part leads to, then a move. -/
def ThenMoves (R : State → State → Prop) (d : DState) (op : Op Unit) : Prop :=
  ∀ s a t, op s = .ok (a, t) → s.dstate = d ∧ ∃ u, R s u ∧ Moves d u t

theorem ThenMoves.guard {d : DState} {body : Op Unit}
    (h : ∀ s a t, body s = .ok (a, t) → ∃ u, R s u ∧ Moves d u t) :
    ThenMoves R d (requireState (· == d) >>= fun _ => body) := by
  intro s a t e
  obtain ⟨_, s1, e1, e2⟩ := op_bind_inv e
  obtain ⟨g, rfl⟩ := requireState_inv e1
  exact ⟨eq_of_beq g, h _ a t e2⟩

/-- A kept part followed by one update. -/
theorem Keeps.thenMoves {α : Type} {d : DState} {x : Op α} {f : α → State → State} (hx : Keeps R x)
    (hf : ∀ a u, Moves d u (f a u)) (s : State) (a : Unit) (t : State)
    (e : (x >>= fun a => Machine.update (f a)) s = .ok (a, t)) : ∃ u, R s u ∧ Moves d u t := by
  obtain ⟨b, u, e1, e2⟩ := op_bind_inv e
  cases e2
  exact ⟨u, hx s b u e1, hf b u⟩

theorem check_moves (ok : Bool) {d d' : DState} {r : Reason} (bs : List Byte) (u : State)
    (h : ∀ v, Moves d u v ↔ v = u.goto d' ∨ ∃ bs, v = u.raiseFailed r bs) : Moves d u (u.check ok d' r bs) := by
  rw [h]
  unfold State.check
  split
  · exact .inl rfl
  · exact .inr ⟨bs, rfl⟩

theorem KeptByInit.stReset_moves (c : KeptByInit R) : ThenMoves R .reset stReset := by
  have k := c.toComposes
  refine .guard fun s a t e => ?_
  obtain ⟨_, _, e0, e1⟩ := op_bind_inv e
  cases e0
  obtain ⟨_, s1, e2, e3⟩ := op_bind_inv e1
  obtain ⟨_, s2, e4, e5⟩ := op_bind_inv e3
  obtain ⟨_, s3, e6, e7⟩ := op_bind_inv e5
  obtain ⟨_, s4, e8, e9⟩ := op_bind_inv e7
  cases e9
  exact ⟨s4, k.trans (c.keeps_init _ _ _ e2) (k.trans (c.keeps_assert _ _ _ e4)
    (k.trans (c.keeps_deassert _ _ _ e6) (c.keeps_writeReg _ _ _ _ _ e8))), rfl⟩

theorem KeptByInit.stPowerup_moves (c : KeptByInit R) : ThenMoves R .powerUp stPowerup :=
  .guard ((c.keeps_delay _).thenMoves fun _ _ => rfl)

theorem KeptByInit.stDrain_moves (c : KeptByInit R) : ThenMoves R .drain stDrain := by
  have k := c.toComposes
  refine .guard fun s a t e => ?_
  obtain ⟨_, _, e0, e1⟩ := op_bind_inv e
  cases e0
  obtain ⟨_, s1, r1, e2⟩ := op_bind_inv e1
  obtain ⟨_, s2, r2, e3⟩ := op_bind_inv e2
  obtain ⟨_, s3, r3, e4⟩ := op_bind_inv e3
  obtain ⟨_, s4, r4, e5⟩ := op_bind_inv e4
  obtain ⟨_, s5, r5, e6⟩ := op_bind_inv e5
  cases e6
  exact ⟨s5, k.trans (c.keeps_readReg _ _ _ _ r1) (k.trans (c.keeps_readReg _ _ _ _ r2) (k.trans
    (c.keeps_readReg _ _ _ _ r3) (k.trans (c.keeps_readReg _ _ _ _ r4) (c.keeps_readReg _ _ _ _ r5)))), rfl⟩

theorem KeptByInit.stFwupload_moves (c : KeptByInit R) : ThenMoves R .firmwareUpload stFwupload :=
  .guard (c.keeps_upload.thenMoves fun _ _ => rfl)

/-- No Bus Primitive call writes DSTATE (R129). -/
theorem dstate_keptByBus : KeptByBus fun s t => t.dstate = s.dstate where
  refl _ := rfl
  trans h k := k.trans h
  init _ := rfl
  assert _ _ := rfl
  deassert _ _ := rfl
  xfer _ _ _ := rfl
  delayIn _ _ _ := rfl
  delayOut _ _ _ := rfl
  fwidx _ _ := rfl

theorem KeptByInit.stPidcheck_moves (c : KeptByInit R) : ThenMoves R .productIdCheck stPidcheck := by
  have k := c.toComposes
  intro s a t h
  obtain ⟨_, _, g, e⟩ := op_bind_inv h
  obtain ⟨g, rfl⟩ := requireState_inv g
  have hd := eq_of_beq g
  obtain ⟨_, _, e0, e1⟩ := op_bind_inv e
  cases e0
  obtain ⟨v, s1, r1, e2⟩ := op_bind_inv e1
  obtain ⟨_, s2, r2, e3⟩ := op_bind_inv e2
  cases r2
  cases e3
  have h1 := (dstate_keptByBus.keeps_readReg _ _ _ _ r1).trans hd
  exact ⟨hd, _, k.trans (c.keeps_readReg _ _ _ _ r1) (c.pid s1 v h1), check_moves _ _ _ fun _ => Iff.rfl⟩

theorem KeptByInit.stIpidcheck_moves (c : KeptByInit R) : ThenMoves R .inverseIdCheck stIpidcheck := by
  have k := c.toComposes
  refine .guard fun s a t e => ?_
  obtain ⟨_, _, e0, e1⟩ := op_bind_inv e
  cases e0
  obtain ⟨v, s1, r1, e2⟩ := op_bind_inv e1
  obtain ⟨_, s2, r2, e3⟩ := op_bind_inv e2
  cases r2
  cases e3
  exact ⟨_, k.trans (c.keeps_readReg _ _ _ _ r1) (c.ipid s1 v), check_moves _ _ _ fun _ => Iff.rfl⟩

theorem KeptByInit.stIntegrity_moves (c : KeptByInit R) : ThenMoves R .integrityCheck stIntegrity :=
  .guard (c.keeps_verify.thenMoves fun _ _ => check_moves _ _ _ fun _ => Iff.rfl)

theorem KeptByInit.stLasercfg_moves (c : KeptByInit R) : ThenMoves R .laserConfig stLasercfg := by
  have k := c.toComposes
  refine .guard fun s a t e => ?_
  obtain ⟨_, _, e0, e1⟩ := op_bind_inv e
  cases e0
  obtain ⟨v, s1, r1, e2⟩ := op_bind_inv e1
  obtain ⟨_, s2, r2, e3⟩ := op_bind_inv e2
  cases r2
  obtain ⟨_, s3, r3, e4⟩ := op_bind_inv e3
  cases e4
  exact ⟨_, k.trans (c.keeps_readReg _ _ _ _ r1) (k.trans (c.laser s1 v) (c.keeps_writeReg _ _ _ _ _ r3)), rfl⟩

/-- A meaning that answers a next state does so through its operation. -/
theorem finish_inv {op : Op α} {result : α → Ret} {s u : State} (h : finish op result s = .next u) :
    ∃ a t, op s = .ok (a, t) ∧ u = { t with ret := result a } := by
  unfold finish at h
  split at h <;> cases h
  exact ⟨_, _, ‹_›, rfl⟩

/-- What an instruction can do: a kept change, then either nothing more or, for the action of the current Device State, its
move (R160). -/
theorem exec_inv (c : KeptByRegs R) {i : Instr} {s t : State} (h : exec i s = .next t) :
    ∃ u v r, R s u ∧ (v = u ∨ (i = hardwired s.dstate ∧ Moves s.dstate u v)) ∧ t = { v with ret := r } := by
  have key : ∀ {α : Type} (op : Op α) (f : α → Ret), Keeps R op → finish op f s = .next t →
      ∃ u v r, R s u ∧ (v = u ∨ (i = hardwired s.dstate ∧ Moves s.dstate u v)) ∧ t = { v with ret := r } := by
    intro α op f ho e
    obtain ⟨a, u, e1, e2⟩ := finish_inv e
    exact ⟨u, u, f a, ho s a u e1, .inl rfl, e2⟩
  have move : ∀ (op : Op Unit) (d : DState), ThenMoves R d op → i = hardwired d →
      finish op (fun _ => .none) s = .next t →
      ∃ u v r, R s u ∧ (v = u ∨ (i = hardwired s.dstate ∧ Moves s.dstate u v)) ∧ t = { v with ret := r } := by
    intro op d ho hi e
    obtain ⟨a, v, e1, e2⟩ := finish_inv e
    obtain ⟨hd, u, hu, hm⟩ := ho s a v e1
    exact ⟨u, v, .none, hu, .inr ⟨hd ▸ hi, hd ▸ hm⟩, e2⟩
  have k := c.toComposes
  cases i with
  | frameW a d => exact key _ _ (c.keeps_writeReg a d) h
  | frameR a d => exact key _ _ (c.keeps_singleRead a d) h
  | frameB bytes => exact key _ (fun _ => .none) (c.keeps_burstFrame bytes) h
  | frameZ => exact key _ (fun _ => .none) c.keeps_selectCycle h
  | wrPowerUpReset => exact key _ _ (c.keeps_writeReg _ _) h
  | wrSromLoad => exact key _ _ (c.keeps_writeReg _ _) h
  | wrSromVerify => exact key _ _ (c.keeps_writeReg _ _) h
  | wrLaserCtrl n => exact key (writeLaser n) (fun _ => .none) (.bind k (.get k) fun _ => c.keeps_writeReg _ _) h
  | burstSrom => exact key _ (fun _ => .none) c.keeps_burstImage h
  | selCycle => exact key _ (fun _ => .none) c.keeps_selectCycle h
  | init => exact key _ (fun _ => .none) c.keeps_init h
  | selAssert => exact key _ (fun _ => .none) c.keeps_assert h
  | selDeassert => exact key _ (fun _ => .none) c.keeps_deassert h
  | xfer o => exact key _ _ (c.keeps_xfer o) h
  | delay p => exact key _ (fun _ => .none) (c.keeps_delay p) h
  | wrreg a v => exact key _ _ (c.keeps_writeReg a v) h
  | upload => exact key _ (fun _ => .none) c.keeps_upload h
  | verify => exact key _ _ c.keeps_verify h
  | stReset => exact move _ .reset c.stReset_moves rfl h
  | stPowerup => exact move _ .powerUp c.stPowerup_moves rfl h
  | stDrain => exact move _ .drain c.stDrain_moves rfl h
  | stFwupload => exact move _ .firmwareUpload c.stFwupload_moves rfl h
  | stPidcheck => exact move _ .productIdCheck c.stPidcheck_moves rfl h
  | stIpidcheck => exact move _ .inverseIdCheck c.stIpidcheck_moves rfl h
  | stIntegrity => exact move _ .integrityCheck c.stIntegrity_moves rfl h
  | stLasercfg => exact move _ .laserConfig c.stLasercfg_moves rfl h
  | stReady => exact key _ (fun _ => .none) c.keeps_stReady h
  | stFailed => exact key _ (fun _ => .none) c.keeps_stFailed h
  | dump => exact key _ (fun _ => .none) c.keeps_dump h
  | testclr => exact key _ _ c.keeps_testClear h
  | poll => exact key _ (fun _ => .none) c.keeps_poll h
  | statusDecode v => exact key _ (fun f : Bool × Bool × Bool => .flags f.1 f.2.1 f.2.2) (c.keeps_statusDecode v) h
  | delta16 lo hi => exact key (pure (delta16 lo hi)) .half (.pure k _) h
  | _ => exact key _ _ (c.keeps_singleReadReg _) h

/-- The action of an initializing Device State that answers a next state makes its move. -/
theorem exec_action_inv (c : KeptByInit R) {d : DState} {s t : State} (hr : d ≠ .ready) (hf : d.isFailed = false)
    (h : exec (hardwired d) s = .next t) :
    s.dstate = d ∧ ∃ u v, R s u ∧ Moves d u v ∧ t = { v with ret := .none } := by
  have move : ∀ (op : Op Unit), ThenMoves R d op → finish op (fun _ => .none) s = .next t →
      s.dstate = d ∧ ∃ u v, R s u ∧ Moves d u v ∧ t = { v with ret := .none } := by
    intro op ho e
    obtain ⟨a, v, e1, e2⟩ := finish_inv e
    obtain ⟨hd, u, hu, hm⟩ := ho s a v e1
    exact ⟨hd, u, v, hu, hm, e2⟩
  cases d with
  | reset => exact move _ c.stReset_moves h
  | powerUp => exact move _ c.stPowerup_moves h
  | drain => exact move _ c.stDrain_moves h
  | firmwareUpload => exact move _ c.stFwupload_moves h
  | productIdCheck => exact move _ c.stPidcheck_moves h
  | inverseIdCheck => exact move _ c.stIpidcheck_moves h
  | integrityCheck => exact move _ c.stIntegrity_moves h
  | laserConfig => exact move _ c.stLasercfg_moves h
  | ready => exact absurd rfl hr
  | failed r => cases hf

/-- A step that answers a next state: the parameters pass, an instruction was fetched and ran, the event source moved. -/
theorem step_inv {s u : State} (h : step s = .next u) :
    s.cfg.wf = true ∧ ∃ i t v, fetch s = .ok (i, t) ∧ exec i t = .next v ∧ u = v.eventMove := by
  unfold step at h
  split at h
  · rename_i hwf
    split at h
    · rename_i i t hf
      cases he : exec i t with
      | next v =>
        rw [he] at h
        cases h
        exact ⟨hwf, i, t, v, hf, he, rfl⟩
      | fault f => rw [he] at h; cases h
      | refused r => rw [he] at h; cases h
    · cases h
  · cases h

/-- The first of several steps. -/
theorem steps_succ {k : Nat} {s t : State} (h : step s = .next t) : steps (k + 1) s = steps k t := by
  simp only [steps, h]

/-- What a fetch changes: the bench queue, and that only. -/
theorem fetch_inv {s t : State} {i : Instr} (h : fetch s = .ok (i, t)) :
    (s.bench = [] ∧ i = hardwired s.dstate ∧ t = s) ∨
      ∃ w rest, s.bench = w :: rest ∧ decode s.cfg w = .ok i ∧ t = { s with bench := rest } := by
  unfold fetch at h
  split at h
  · rename_i hb
    cases h
    exact .inl ⟨hb, rfl, rfl⟩
  · rename_i w rest hb
    split at h <;> cases h
    exact .inr ⟨w, rest, hb, ‹_›, rfl⟩

end Sys2Proof.Machine
end

