-- ==== Sys2Proof/Laws/PerInstr.lean ====
section
/-! SUPPORT. Per instruction, about its syntax: the shape of its word. A frame has no byte, or opens with an address byte whose
marker and length tell its format (30_encoding.md R90, R97); an operation has an id the table lists (R100). -/

namespace Sys2Proof.Laws.WordShape

/-- A word of one of the four frame formats, or of an operation of the table. -/
def ok (p : Params) : CodeWord → Prop
  | .frame [] => True
  | .frame (b :: rest) =>
    (markerOf b = p.writeMarker ∧ (rest.length = 1 ∨ addrOf b = p.addrSromBurst)) ∨
      (markerOf b = (!p.writeMarker) ∧ rest.length = 1)
  | .op id _ _ => id.toNat < 24

/-- Under every parameter assignment the instruction's word has the shape of its format. -/
def Statement (i : Instr) : Prop := ∀ p : Params, ok p (encode p i)

theorem writes (p : Params) (a : Addr) (d : Byte) : ok p (writeBytes p a d) :=
  .inl ⟨Machine.markerOf_markW p a, .inl rfl⟩

theorem reads (p : Params) (a : Addr) (d : Byte) : ok p (.frame [markR p a, d]) :=
  .inr ⟨Machine.markerOf_markR p a, rfl⟩

theorem bursts (p : Params) (bytes : List Byte) : ok p (.frame (markW p p.addrSromBurst :: bytes)) :=
  .inl ⟨Machine.markerOf_markW p _, .inr (Machine.addrOf_markW p _)⟩

theorem operations {p : Params} {id x y : Byte} (h : id.toNat < 24) : ok p (.op id x y) := h

theorem frameW (a : Addr) (d : Byte) : Statement (.frameW a d) := fun p => writes p _ _
theorem frameR (a : Addr) (d : Byte) : Statement (.frameR a d) := fun p => reads p _ _
theorem frameB (bytes : List Byte) : Statement (.frameB bytes) := fun p => bursts p _
theorem frameZ : Statement .frameZ := fun _ => trivial
theorem wrPowerUpReset : Statement .wrPowerUpReset := fun p => writes p _ _
theorem rdMotion : Statement .rdMotion := fun p => reads p _ _
theorem rdDeltaXL : Statement .rdDeltaXL := fun p => reads p _ _
theorem rdDeltaXH : Statement .rdDeltaXH := fun p => reads p _ _
theorem rdDeltaYL : Statement .rdDeltaYL := fun p => reads p _ _
theorem rdDeltaYH : Statement .rdDeltaYH := fun p => reads p _ _
theorem wrSromLoad : Statement .wrSromLoad := fun p => writes p _ _
theorem burstSrom : Statement .burstSrom := fun p => bursts p _
theorem rdProductId : Statement .rdProductId := fun p => reads p _ _
theorem rdInvProductId : Statement .rdInvProductId := fun p => reads p _ _
theorem wrSromVerify : Statement .wrSromVerify := fun p => writes p _ _
theorem rdCodeLo : Statement .rdCodeLo := fun p => reads p _ _
theorem rdCodeHi : Statement .rdCodeHi := fun p => reads p _ _
theorem rdLaserCtrl : Statement .rdLaserCtrl := fun p => reads p _ _
theorem wrLaserCtrl (h : BitVec 4) : Statement (.wrLaserCtrl h) := fun p => writes p _ _
theorem rdRevisionId : Statement .rdRevisionId := fun p => reads p _ _
theorem rdObservation : Statement .rdObservation := fun p => reads p _ _
theorem rdSromId : Statement .rdSromId := fun p => reads p _ _
theorem rdConfigA : Statement .rdConfigA := fun p => reads p _ _
theorem rdConfigB : Statement .rdConfigB := fun p => reads p _ _
theorem rdConfigC : Statement .rdConfigC := fun p => reads p _ _
theorem rdConfigD : Statement .rdConfigD := fun p => reads p _ _
theorem selCycle : Statement .selCycle := fun _ => trivial
theorem init : Statement .init := fun _ => operations (by decide)
theorem selAssert : Statement .selAssert := fun _ => operations (by decide)
theorem selDeassert : Statement .selDeassert := fun _ => operations (by decide)
theorem xfer (out : Byte) : Statement (.xfer out) := fun _ => operations (by decide)
theorem delay (p : DelayName) : Statement (.delay p) := fun _ => operations (by decide)
theorem wrreg (a : Addr) (v : Byte) : Statement (.wrreg a v) := fun _ => operations (by decide)
theorem rdreg (a : Addr) : Statement (.rdreg a) := fun _ => operations (by decide)
theorem upload : Statement .upload := fun _ => operations (by decide)
theorem verify : Statement .verify := fun _ => operations (by decide)
theorem stReset : Statement .stReset := fun _ => operations (by decide)
theorem stPowerup : Statement .stPowerup := fun _ => operations (by decide)
theorem stDrain : Statement .stDrain := fun _ => operations (by decide)
theorem stFwupload : Statement .stFwupload := fun _ => operations (by decide)
theorem stPidcheck : Statement .stPidcheck := fun _ => operations (by decide)
theorem stIpidcheck : Statement .stIpidcheck := fun _ => operations (by decide)
theorem stIntegrity : Statement .stIntegrity := fun _ => operations (by decide)
theorem stLasercfg : Statement .stLasercfg := fun _ => operations (by decide)
theorem stReady : Statement .stReady := fun _ => operations (by decide)
theorem stFailed : Statement .stFailed := fun _ => operations (by decide)
theorem dump : Statement .dump := fun _ => operations (by decide)
theorem testclr : Statement .testclr := fun _ => operations (by decide)
theorem poll : Statement .poll := fun _ => operations (by decide)
theorem statusDecode (s : Byte) : Statement (.statusDecode s) := fun _ => operations (by decide)
theorem delta16 (lo hi : Byte) : Statement (.delta16 lo hi) := fun _ => operations (by decide)

end Sys2Proof.Laws.WordShape
end

