-- ==== Sys2Proof/Laws/State.lean ====
section
/-! SUPPORT. One lemma per field per update of the state, each true by unfolding and tagged for simp, so that no later proof
unfolds a record update; and for the closed forms of the frames one lemma each that names what they leave. -/

namespace Sys2Proof.Machine

/-! ### State.log -/

@[simp] theorem log_cfg (e : LineEvent) (s : State) : (s.log e).cfg = s.cfg := rfl
@[simp] theorem log_linesCfg (e : LineEvent) (s : State) : (s.log e).linesCfg = s.linesCfg := rfl
@[simp] theorem log_sel (e : LineEvent) (s : State) : (s.log e).sel = s.sel := rfl
@[simp] theorem log_clk (e : LineEvent) (s : State) : (s.log e).clk = s.clk := rfl
@[simp] theorem log_dout (e : LineEvent) (s : State) : (s.log e).dout = s.dout := rfl
@[simp] theorem log_sr (e : LineEvent) (s : State) : (s.log e).sr = s.sr := rfl
@[simp] theorem log_bitcnt (e : LineEvent) (s : State) : (s.log e).bitcnt = s.bitcnt := rfl
@[simp] theorem log_fwidx (e : LineEvent) (s : State) : (s.log e).fwidx = s.fwidx := rfl
@[simp] theorem log_hPid (e : LineEvent) (s : State) : (s.log e).hPid = s.hPid := rfl
@[simp] theorem log_hIpid (e : LineEvent) (s : State) : (s.log e).hIpid = s.hIpid := rfl
@[simp] theorem log_hCodeLo (e : LineEvent) (s : State) : (s.log e).hCodeLo = s.hCodeLo := rfl
@[simp] theorem log_hCodeHi (e : LineEvent) (s : State) : (s.log e).hCodeHi = s.hCodeHi := rfl
@[simp] theorem log_hLaser (e : LineEvent) (s : State) : (s.log e).hLaser = s.hLaser := rfl
@[simp] theorem log_hStatus (e : LineEvent) (s : State) : (s.log e).hStatus = s.hStatus := rfl
@[simp] theorem log_hDxl (e : LineEvent) (s : State) : (s.log e).hDxl = s.hDxl := rfl
@[simp] theorem log_hDxh (e : LineEvent) (s : State) : (s.log e).hDxh = s.hDxh := rfl
@[simp] theorem log_hDyl (e : LineEvent) (s : State) : (s.log e).hDyl = s.hDyl := rfl
@[simp] theorem log_hDyh (e : LineEvent) (s : State) : (s.log e).hDyh = s.hDyh := rfl
@[simp] theorem log_hDump (e : LineEvent) (s : State) : (s.log e).hDump = s.hDump := rfl
@[simp] theorem log_dx (e : LineEvent) (s : State) : (s.log e).dx = s.dx := rfl
@[simp] theorem log_dy (e : LineEvent) (s : State) : (s.log e).dy = s.dy := rfl
@[simp] theorem log_dstate (e : LineEvent) (s : State) : (s.log e).dstate = s.dstate := rfl
@[simp] theorem log_seqpos (e : LineEvent) (s : State) : (s.log e).seqpos = s.seqpos := rfl
@[simp] theorem log_pend (e : LineEvent) (s : State) : (s.log e).pend = s.pend := rfl
@[simp] theorem log_failinfo (e : LineEvent) (s : State) : (s.log e).failinfo = s.failinfo := rfl
@[simp] theorem log_dumped (e : LineEvent) (s : State) : (s.log e).dumped = s.dumped := rfl
@[simp] theorem log_t0 (e : LineEvent) (s : State) : (s.log e).t0 = s.t0 ++ [e] := rfl
@[simp] theorem log_t1 (e : LineEvent) (s : State) : (s.log e).t1 = s.t1 := rfl
@[simp] theorem log_t2 (e : LineEvent) (s : State) : (s.log e).t2 = s.t2 := rfl
@[simp] theorem log_out (e : LineEvent) (s : State) : (s.log e).out = s.out := rfl
@[simp] theorem log_frame (e : LineEvent) (s : State) : (s.log e).frame = s.frame := rfl
@[simp] theorem log_ret (e : LineEvent) (s : State) : (s.log e).ret = s.ret := rfl
@[simp] theorem log_bench (e : LineEvent) (s : State) : (s.log e).bench = s.bench := rfl
@[simp] theorem log_din (e : LineEvent) (s : State) : (s.log e).din = s.din := rfl
@[simp] theorem log_dinCount (e : LineEvent) (s : State) : (s.log e).dinCount = s.dinCount := rfl
@[simp] theorem log_edges (e : LineEvent) (s : State) : (s.log e).edges = s.edges := rfl
@[simp] theorem log_edgeCount (e : LineEvent) (s : State) : (s.log e).edgeCount = s.edgeCount := rfl

/-! ### State.emit -/

@[simp] theorem emit_cfg (e : OutEvent) (s : State) : (s.emit e).cfg = s.cfg := rfl
@[simp] theorem emit_linesCfg (e : OutEvent) (s : State) : (s.emit e).linesCfg = s.linesCfg := rfl
@[simp] theorem emit_sel (e : OutEvent) (s : State) : (s.emit e).sel = s.sel := rfl
@[simp] theorem emit_clk (e : OutEvent) (s : State) : (s.emit e).clk = s.clk := rfl
@[simp] theorem emit_dout (e : OutEvent) (s : State) : (s.emit e).dout = s.dout := rfl
@[simp] theorem emit_sr (e : OutEvent) (s : State) : (s.emit e).sr = s.sr := rfl
@[simp] theorem emit_bitcnt (e : OutEvent) (s : State) : (s.emit e).bitcnt = s.bitcnt := rfl
@[simp] theorem emit_fwidx (e : OutEvent) (s : State) : (s.emit e).fwidx = s.fwidx := rfl
@[simp] theorem emit_hPid (e : OutEvent) (s : State) : (s.emit e).hPid = s.hPid := rfl
@[simp] theorem emit_hIpid (e : OutEvent) (s : State) : (s.emit e).hIpid = s.hIpid := rfl
@[simp] theorem emit_hCodeLo (e : OutEvent) (s : State) : (s.emit e).hCodeLo = s.hCodeLo := rfl
@[simp] theorem emit_hCodeHi (e : OutEvent) (s : State) : (s.emit e).hCodeHi = s.hCodeHi := rfl
@[simp] theorem emit_hLaser (e : OutEvent) (s : State) : (s.emit e).hLaser = s.hLaser := rfl
@[simp] theorem emit_hStatus (e : OutEvent) (s : State) : (s.emit e).hStatus = s.hStatus := rfl
@[simp] theorem emit_hDxl (e : OutEvent) (s : State) : (s.emit e).hDxl = s.hDxl := rfl
@[simp] theorem emit_hDxh (e : OutEvent) (s : State) : (s.emit e).hDxh = s.hDxh := rfl
@[simp] theorem emit_hDyl (e : OutEvent) (s : State) : (s.emit e).hDyl = s.hDyl := rfl
@[simp] theorem emit_hDyh (e : OutEvent) (s : State) : (s.emit e).hDyh = s.hDyh := rfl
@[simp] theorem emit_hDump (e : OutEvent) (s : State) : (s.emit e).hDump = s.hDump := rfl
@[simp] theorem emit_dx (e : OutEvent) (s : State) : (s.emit e).dx = s.dx := rfl
@[simp] theorem emit_dy (e : OutEvent) (s : State) : (s.emit e).dy = s.dy := rfl
@[simp] theorem emit_dstate (e : OutEvent) (s : State) : (s.emit e).dstate = s.dstate := rfl
@[simp] theorem emit_seqpos (e : OutEvent) (s : State) : (s.emit e).seqpos = s.seqpos := rfl
@[simp] theorem emit_pend (e : OutEvent) (s : State) : (s.emit e).pend = s.pend := rfl
@[simp] theorem emit_failinfo (e : OutEvent) (s : State) : (s.emit e).failinfo = s.failinfo := rfl
@[simp] theorem emit_dumped (e : OutEvent) (s : State) : (s.emit e).dumped = s.dumped := rfl
@[simp] theorem emit_t0 (e : OutEvent) (s : State) : (s.emit e).t0 = s.t0 := rfl
@[simp] theorem emit_t1 (e : OutEvent) (s : State) : (s.emit e).t1 = s.t1 := rfl
@[simp] theorem emit_t2 (e : OutEvent) (s : State) : (s.emit e).t2 = s.t2 := rfl
@[simp] theorem emit_out (e : OutEvent) (s : State) : (s.emit e).out = s.out ++ [e] := rfl
@[simp] theorem emit_frame (e : OutEvent) (s : State) : (s.emit e).frame = s.frame := rfl
@[simp] theorem emit_ret (e : OutEvent) (s : State) : (s.emit e).ret = s.ret := rfl
@[simp] theorem emit_bench (e : OutEvent) (s : State) : (s.emit e).bench = s.bench := rfl
@[simp] theorem emit_din (e : OutEvent) (s : State) : (s.emit e).din = s.din := rfl
@[simp] theorem emit_dinCount (e : OutEvent) (s : State) : (s.emit e).dinCount = s.dinCount := rfl
@[simp] theorem emit_edges (e : OutEvent) (s : State) : (s.emit e).edges = s.edges := rfl
@[simp] theorem emit_edgeCount (e : OutEvent) (s : State) : (s.emit e).edgeCount = s.edgeCount := rfl

/-! ### State.goto -/

@[simp] theorem goto_cfg (d : DState) (s : State) : (s.goto d).cfg = s.cfg := rfl
@[simp] theorem goto_linesCfg (d : DState) (s : State) : (s.goto d).linesCfg = s.linesCfg := rfl
@[simp] theorem goto_sel (d : DState) (s : State) : (s.goto d).sel = s.sel := rfl
@[simp] theorem goto_clk (d : DState) (s : State) : (s.goto d).clk = s.clk := rfl
@[simp] theorem goto_dout (d : DState) (s : State) : (s.goto d).dout = s.dout := rfl
@[simp] theorem goto_sr (d : DState) (s : State) : (s.goto d).sr = s.sr := rfl
@[simp] theorem goto_bitcnt (d : DState) (s : State) : (s.goto d).bitcnt = s.bitcnt := rfl
@[simp] theorem goto_fwidx (d : DState) (s : State) : (s.goto d).fwidx = s.fwidx := rfl
@[simp] theorem goto_hPid (d : DState) (s : State) : (s.goto d).hPid = s.hPid := rfl
@[simp] theorem goto_hIpid (d : DState) (s : State) : (s.goto d).hIpid = s.hIpid := rfl
@[simp] theorem goto_hCodeLo (d : DState) (s : State) : (s.goto d).hCodeLo = s.hCodeLo := rfl
@[simp] theorem goto_hCodeHi (d : DState) (s : State) : (s.goto d).hCodeHi = s.hCodeHi := rfl
@[simp] theorem goto_hLaser (d : DState) (s : State) : (s.goto d).hLaser = s.hLaser := rfl
@[simp] theorem goto_hStatus (d : DState) (s : State) : (s.goto d).hStatus = s.hStatus := rfl
@[simp] theorem goto_hDxl (d : DState) (s : State) : (s.goto d).hDxl = s.hDxl := rfl
@[simp] theorem goto_hDxh (d : DState) (s : State) : (s.goto d).hDxh = s.hDxh := rfl
@[simp] theorem goto_hDyl (d : DState) (s : State) : (s.goto d).hDyl = s.hDyl := rfl
@[simp] theorem goto_hDyh (d : DState) (s : State) : (s.goto d).hDyh = s.hDyh := rfl
@[simp] theorem goto_hDump (d : DState) (s : State) : (s.goto d).hDump = s.hDump := rfl
@[simp] theorem goto_dx (d : DState) (s : State) : (s.goto d).dx = s.dx := rfl
@[simp] theorem goto_dy (d : DState) (s : State) : (s.goto d).dy = s.dy := rfl
@[simp] theorem goto_dstate (d : DState) (s : State) : (s.goto d).dstate = d := rfl
@[simp] theorem goto_seqpos (d : DState) (s : State) : (s.goto d).seqpos = 0 := rfl
@[simp] theorem goto_pend (d : DState) (s : State) : (s.goto d).pend = s.pend := rfl
@[simp] theorem goto_failinfo (d : DState) (s : State) : (s.goto d).failinfo = s.failinfo := rfl
@[simp] theorem goto_dumped (d : DState) (s : State) : (s.goto d).dumped = s.dumped := rfl
@[simp] theorem goto_t0 (d : DState) (s : State) : (s.goto d).t0 = s.t0 := rfl
@[simp] theorem goto_t1 (d : DState) (s : State) : (s.goto d).t1 = s.t1 := rfl
@[simp] theorem goto_t2 (d : DState) (s : State) : (s.goto d).t2 = s.t2 := rfl
@[simp] theorem goto_out (d : DState) (s : State) : (s.goto d).out = s.out := rfl
@[simp] theorem goto_frame (d : DState) (s : State) : (s.goto d).frame = s.frame := rfl
@[simp] theorem goto_ret (d : DState) (s : State) : (s.goto d).ret = s.ret := rfl
@[simp] theorem goto_bench (d : DState) (s : State) : (s.goto d).bench = s.bench := rfl
@[simp] theorem goto_din (d : DState) (s : State) : (s.goto d).din = s.din := rfl
@[simp] theorem goto_dinCount (d : DState) (s : State) : (s.goto d).dinCount = s.dinCount := rfl
@[simp] theorem goto_edges (d : DState) (s : State) : (s.goto d).edges = s.edges := rfl
@[simp] theorem goto_edgeCount (d : DState) (s : State) : (s.goto d).edgeCount = s.edgeCount := rfl

/-! ### State.raiseFailed -/

@[simp] theorem raiseFailed_cfg (r : Reason) (info : List Byte) (s : State) : (s.raiseFailed r info).cfg = s.cfg := rfl
@[simp] theorem raiseFailed_linesCfg (r : Reason) (info : List Byte) (s : State) : (s.raiseFailed r info).linesCfg = s.linesCfg := rfl
@[simp] theorem raiseFailed_sel (r : Reason) (info : List Byte) (s : State) : (s.raiseFailed r info).sel = s.sel := rfl
@[simp] theorem raiseFailed_clk (r : Reason) (info : List Byte) (s : State) : (s.raiseFailed r info).clk = s.clk := rfl
@[simp] theorem raiseFailed_dout (r : Reason) (info : List Byte) (s : State) : (s.raiseFailed r info).dout = s.dout := rfl
@[simp] theorem raiseFailed_sr (r : Reason) (info : List Byte) (s : State) : (s.raiseFailed r info).sr = s.sr := rfl
@[simp] theorem raiseFailed_bitcnt (r : Reason) (info : List Byte) (s : State) : (s.raiseFailed r info).bitcnt = s.bitcnt := rfl
@[simp] theorem raiseFailed_fwidx (r : Reason) (info : List Byte) (s : State) : (s.raiseFailed r info).fwidx = s.fwidx := rfl
@[simp] theorem raiseFailed_hPid (r : Reason) (info : List Byte) (s : State) : (s.raiseFailed r info).hPid = s.hPid := rfl
@[simp] theorem raiseFailed_hIpid (r : Reason) (info : List Byte) (s : State) : (s.raiseFailed r info).hIpid = s.hIpid := rfl
@[simp] theorem raiseFailed_hCodeLo (r : Reason) (info : List Byte) (s : State) : (s.raiseFailed r info).hCodeLo = s.hCodeLo := rfl
@[simp] theorem raiseFailed_hCodeHi (r : Reason) (info : List Byte) (s : State) : (s.raiseFailed r info).hCodeHi = s.hCodeHi := rfl
@[simp] theorem raiseFailed_hLaser (r : Reason) (info : List Byte) (s : State) : (s.raiseFailed r info).hLaser = s.hLaser := rfl
@[simp] theorem raiseFailed_hStatus (r : Reason) (info : List Byte) (s : State) : (s.raiseFailed r info).hStatus = s.hStatus := rfl
@[simp] theorem raiseFailed_hDxl (r : Reason) (info : List Byte) (s : State) : (s.raiseFailed r info).hDxl = s.hDxl := rfl
@[simp] theorem raiseFailed_hDxh (r : Reason) (info : List Byte) (s : State) : (s.raiseFailed r info).hDxh = s.hDxh := rfl
@[simp] theorem raiseFailed_hDyl (r : Reason) (info : List Byte) (s : State) : (s.raiseFailed r info).hDyl = s.hDyl := rfl
@[simp] theorem raiseFailed_hDyh (r : Reason) (info : List Byte) (s : State) : (s.raiseFailed r info).hDyh = s.hDyh := rfl
@[simp] theorem raiseFailed_hDump (r : Reason) (info : List Byte) (s : State) : (s.raiseFailed r info).hDump = s.hDump := rfl
@[simp] theorem raiseFailed_dx (r : Reason) (info : List Byte) (s : State) : (s.raiseFailed r info).dx = s.dx := rfl
@[simp] theorem raiseFailed_dy (r : Reason) (info : List Byte) (s : State) : (s.raiseFailed r info).dy = s.dy := rfl
@[simp] theorem raiseFailed_dstate (r : Reason) (info : List Byte) (s : State) : (s.raiseFailed r info).dstate = .failed r := rfl
@[simp] theorem raiseFailed_seqpos (r : Reason) (info : List Byte) (s : State) : (s.raiseFailed r info).seqpos = 0 := rfl
@[simp] theorem raiseFailed_pend (r : Reason) (info : List Byte) (s : State) : (s.raiseFailed r info).pend = s.pend := rfl
@[simp] theorem raiseFailed_failinfo (r : Reason) (info : List Byte) (s : State) : (s.raiseFailed r info).failinfo = some info := rfl
@[simp] theorem raiseFailed_dumped (r : Reason) (info : List Byte) (s : State) : (s.raiseFailed r info).dumped = s.dumped := rfl
@[simp] theorem raiseFailed_t0 (r : Reason) (info : List Byte) (s : State) : (s.raiseFailed r info).t0 = s.t0 := rfl
@[simp] theorem raiseFailed_t1 (r : Reason) (info : List Byte) (s : State) : (s.raiseFailed r info).t1 = s.t1 := rfl
@[simp] theorem raiseFailed_t2 (r : Reason) (info : List Byte) (s : State) : (s.raiseFailed r info).t2 = s.t2 := rfl
@[simp] theorem raiseFailed_out (r : Reason) (info : List Byte) (s : State) : (s.raiseFailed r info).out = s.out ++ [.initFailed r info] := rfl
@[simp] theorem raiseFailed_frame (r : Reason) (info : List Byte) (s : State) : (s.raiseFailed r info).frame = s.frame := rfl
@[simp] theorem raiseFailed_ret (r : Reason) (info : List Byte) (s : State) : (s.raiseFailed r info).ret = s.ret := rfl
@[simp] theorem raiseFailed_bench (r : Reason) (info : List Byte) (s : State) : (s.raiseFailed r info).bench = s.bench := rfl
@[simp] theorem raiseFailed_din (r : Reason) (info : List Byte) (s : State) : (s.raiseFailed r info).din = s.din := rfl
@[simp] theorem raiseFailed_dinCount (r : Reason) (info : List Byte) (s : State) : (s.raiseFailed r info).dinCount = s.dinCount := rfl
@[simp] theorem raiseFailed_edges (r : Reason) (info : List Byte) (s : State) : (s.raiseFailed r info).edges = s.edges := rfl
@[simp] theorem raiseFailed_edgeCount (r : Reason) (info : List Byte) (s : State) : (s.raiseFailed r info).edgeCount = s.edgeCount := rfl

/-! ### State.setFwidx -/

@[simp] theorem setFwidx_cfg (k : Nat) (s : State) : (s.setFwidx k).cfg = s.cfg := rfl
@[simp] theorem setFwidx_linesCfg (k : Nat) (s : State) : (s.setFwidx k).linesCfg = s.linesCfg := rfl
@[simp] theorem setFwidx_sel (k : Nat) (s : State) : (s.setFwidx k).sel = s.sel := rfl
@[simp] theorem setFwidx_clk (k : Nat) (s : State) : (s.setFwidx k).clk = s.clk := rfl
@[simp] theorem setFwidx_dout (k : Nat) (s : State) : (s.setFwidx k).dout = s.dout := rfl
@[simp] theorem setFwidx_sr (k : Nat) (s : State) : (s.setFwidx k).sr = s.sr := rfl
@[simp] theorem setFwidx_bitcnt (k : Nat) (s : State) : (s.setFwidx k).bitcnt = s.bitcnt := rfl
@[simp] theorem setFwidx_fwidx (k : Nat) (s : State) : (s.setFwidx k).fwidx = k := rfl
@[simp] theorem setFwidx_hPid (k : Nat) (s : State) : (s.setFwidx k).hPid = s.hPid := rfl
@[simp] theorem setFwidx_hIpid (k : Nat) (s : State) : (s.setFwidx k).hIpid = s.hIpid := rfl
@[simp] theorem setFwidx_hCodeLo (k : Nat) (s : State) : (s.setFwidx k).hCodeLo = s.hCodeLo := rfl
@[simp] theorem setFwidx_hCodeHi (k : Nat) (s : State) : (s.setFwidx k).hCodeHi = s.hCodeHi := rfl
@[simp] theorem setFwidx_hLaser (k : Nat) (s : State) : (s.setFwidx k).hLaser = s.hLaser := rfl
@[simp] theorem setFwidx_hStatus (k : Nat) (s : State) : (s.setFwidx k).hStatus = s.hStatus := rfl
@[simp] theorem setFwidx_hDxl (k : Nat) (s : State) : (s.setFwidx k).hDxl = s.hDxl := rfl
@[simp] theorem setFwidx_hDxh (k : Nat) (s : State) : (s.setFwidx k).hDxh = s.hDxh := rfl
@[simp] theorem setFwidx_hDyl (k : Nat) (s : State) : (s.setFwidx k).hDyl = s.hDyl := rfl
@[simp] theorem setFwidx_hDyh (k : Nat) (s : State) : (s.setFwidx k).hDyh = s.hDyh := rfl
@[simp] theorem setFwidx_hDump (k : Nat) (s : State) : (s.setFwidx k).hDump = s.hDump := rfl
@[simp] theorem setFwidx_dx (k : Nat) (s : State) : (s.setFwidx k).dx = s.dx := rfl
@[simp] theorem setFwidx_dy (k : Nat) (s : State) : (s.setFwidx k).dy = s.dy := rfl
@[simp] theorem setFwidx_dstate (k : Nat) (s : State) : (s.setFwidx k).dstate = s.dstate := rfl
@[simp] theorem setFwidx_seqpos (k : Nat) (s : State) : (s.setFwidx k).seqpos = s.seqpos := rfl
@[simp] theorem setFwidx_pend (k : Nat) (s : State) : (s.setFwidx k).pend = s.pend := rfl
@[simp] theorem setFwidx_failinfo (k : Nat) (s : State) : (s.setFwidx k).failinfo = s.failinfo := rfl
@[simp] theorem setFwidx_dumped (k : Nat) (s : State) : (s.setFwidx k).dumped = s.dumped := rfl
@[simp] theorem setFwidx_t0 (k : Nat) (s : State) : (s.setFwidx k).t0 = s.t0 := rfl
@[simp] theorem setFwidx_t1 (k : Nat) (s : State) : (s.setFwidx k).t1 = s.t1 := rfl
@[simp] theorem setFwidx_t2 (k : Nat) (s : State) : (s.setFwidx k).t2 = s.t2 := rfl
@[simp] theorem setFwidx_out (k : Nat) (s : State) : (s.setFwidx k).out = s.out := rfl
@[simp] theorem setFwidx_frame (k : Nat) (s : State) : (s.setFwidx k).frame = s.frame := rfl
@[simp] theorem setFwidx_ret (k : Nat) (s : State) : (s.setFwidx k).ret = s.ret := rfl
@[simp] theorem setFwidx_bench (k : Nat) (s : State) : (s.setFwidx k).bench = s.bench := rfl
@[simp] theorem setFwidx_din (k : Nat) (s : State) : (s.setFwidx k).din = s.din := rfl
@[simp] theorem setFwidx_dinCount (k : Nat) (s : State) : (s.setFwidx k).dinCount = s.dinCount := rfl
@[simp] theorem setFwidx_edges (k : Nat) (s : State) : (s.setFwidx k).edges = s.edges := rfl
@[simp] theorem setFwidx_edgeCount (k : Nat) (s : State) : (s.setFwidx k).edgeCount = s.edgeCount := rfl

/-! ### State.setCodeLo -/

@[simp] theorem setCodeLo_cfg (v : Byte) (s : State) : (s.setCodeLo v).cfg = s.cfg := rfl
@[simp] theorem setCodeLo_linesCfg (v : Byte) (s : State) : (s.setCodeLo v).linesCfg = s.linesCfg := rfl
@[simp] theorem setCodeLo_sel (v : Byte) (s : State) : (s.setCodeLo v).sel = s.sel := rfl
@[simp] theorem setCodeLo_clk (v : Byte) (s : State) : (s.setCodeLo v).clk = s.clk := rfl
@[simp] theorem setCodeLo_dout (v : Byte) (s : State) : (s.setCodeLo v).dout = s.dout := rfl
@[simp] theorem setCodeLo_sr (v : Byte) (s : State) : (s.setCodeLo v).sr = s.sr := rfl
@[simp] theorem setCodeLo_bitcnt (v : Byte) (s : State) : (s.setCodeLo v).bitcnt = s.bitcnt := rfl
@[simp] theorem setCodeLo_fwidx (v : Byte) (s : State) : (s.setCodeLo v).fwidx = s.fwidx := rfl
@[simp] theorem setCodeLo_hPid (v : Byte) (s : State) : (s.setCodeLo v).hPid = s.hPid := rfl
@[simp] theorem setCodeLo_hIpid (v : Byte) (s : State) : (s.setCodeLo v).hIpid = s.hIpid := rfl
@[simp] theorem setCodeLo_hCodeLo (v : Byte) (s : State) : (s.setCodeLo v).hCodeLo = v := rfl
@[simp] theorem setCodeLo_hCodeHi (v : Byte) (s : State) : (s.setCodeLo v).hCodeHi = s.hCodeHi := rfl
@[simp] theorem setCodeLo_hLaser (v : Byte) (s : State) : (s.setCodeLo v).hLaser = s.hLaser := rfl
@[simp] theorem setCodeLo_hStatus (v : Byte) (s : State) : (s.setCodeLo v).hStatus = s.hStatus := rfl
@[simp] theorem setCodeLo_hDxl (v : Byte) (s : State) : (s.setCodeLo v).hDxl = s.hDxl := rfl
@[simp] theorem setCodeLo_hDxh (v : Byte) (s : State) : (s.setCodeLo v).hDxh = s.hDxh := rfl
@[simp] theorem setCodeLo_hDyl (v : Byte) (s : State) : (s.setCodeLo v).hDyl = s.hDyl := rfl
@[simp] theorem setCodeLo_hDyh (v : Byte) (s : State) : (s.setCodeLo v).hDyh = s.hDyh := rfl
@[simp] theorem setCodeLo_hDump (v : Byte) (s : State) : (s.setCodeLo v).hDump = s.hDump := rfl
@[simp] theorem setCodeLo_dx (v : Byte) (s : State) : (s.setCodeLo v).dx = s.dx := rfl
@[simp] theorem setCodeLo_dy (v : Byte) (s : State) : (s.setCodeLo v).dy = s.dy := rfl
@[simp] theorem setCodeLo_dstate (v : Byte) (s : State) : (s.setCodeLo v).dstate = s.dstate := rfl
@[simp] theorem setCodeLo_seqpos (v : Byte) (s : State) : (s.setCodeLo v).seqpos = s.seqpos := rfl
@[simp] theorem setCodeLo_pend (v : Byte) (s : State) : (s.setCodeLo v).pend = s.pend := rfl
@[simp] theorem setCodeLo_failinfo (v : Byte) (s : State) : (s.setCodeLo v).failinfo = s.failinfo := rfl
@[simp] theorem setCodeLo_dumped (v : Byte) (s : State) : (s.setCodeLo v).dumped = s.dumped := rfl
@[simp] theorem setCodeLo_t0 (v : Byte) (s : State) : (s.setCodeLo v).t0 = s.t0 := rfl
@[simp] theorem setCodeLo_t1 (v : Byte) (s : State) : (s.setCodeLo v).t1 = s.t1 := rfl
@[simp] theorem setCodeLo_t2 (v : Byte) (s : State) : (s.setCodeLo v).t2 = s.t2 := rfl
@[simp] theorem setCodeLo_out (v : Byte) (s : State) : (s.setCodeLo v).out = s.out := rfl
@[simp] theorem setCodeLo_frame (v : Byte) (s : State) : (s.setCodeLo v).frame = s.frame := rfl
@[simp] theorem setCodeLo_ret (v : Byte) (s : State) : (s.setCodeLo v).ret = s.ret := rfl
@[simp] theorem setCodeLo_bench (v : Byte) (s : State) : (s.setCodeLo v).bench = s.bench := rfl
@[simp] theorem setCodeLo_din (v : Byte) (s : State) : (s.setCodeLo v).din = s.din := rfl
@[simp] theorem setCodeLo_dinCount (v : Byte) (s : State) : (s.setCodeLo v).dinCount = s.dinCount := rfl
@[simp] theorem setCodeLo_edges (v : Byte) (s : State) : (s.setCodeLo v).edges = s.edges := rfl
@[simp] theorem setCodeLo_edgeCount (v : Byte) (s : State) : (s.setCodeLo v).edgeCount = s.edgeCount := rfl

/-! ### State.setCodeHi -/

@[simp] theorem setCodeHi_cfg (v : Byte) (s : State) : (s.setCodeHi v).cfg = s.cfg := rfl
@[simp] theorem setCodeHi_linesCfg (v : Byte) (s : State) : (s.setCodeHi v).linesCfg = s.linesCfg := rfl
@[simp] theorem setCodeHi_sel (v : Byte) (s : State) : (s.setCodeHi v).sel = s.sel := rfl
@[simp] theorem setCodeHi_clk (v : Byte) (s : State) : (s.setCodeHi v).clk = s.clk := rfl
@[simp] theorem setCodeHi_dout (v : Byte) (s : State) : (s.setCodeHi v).dout = s.dout := rfl
@[simp] theorem setCodeHi_sr (v : Byte) (s : State) : (s.setCodeHi v).sr = s.sr := rfl
@[simp] theorem setCodeHi_bitcnt (v : Byte) (s : State) : (s.setCodeHi v).bitcnt = s.bitcnt := rfl
@[simp] theorem setCodeHi_fwidx (v : Byte) (s : State) : (s.setCodeHi v).fwidx = s.fwidx := rfl
@[simp] theorem setCodeHi_hPid (v : Byte) (s : State) : (s.setCodeHi v).hPid = s.hPid := rfl
@[simp] theorem setCodeHi_hIpid (v : Byte) (s : State) : (s.setCodeHi v).hIpid = s.hIpid := rfl
@[simp] theorem setCodeHi_hCodeLo (v : Byte) (s : State) : (s.setCodeHi v).hCodeLo = s.hCodeLo := rfl
@[simp] theorem setCodeHi_hCodeHi (v : Byte) (s : State) : (s.setCodeHi v).hCodeHi = v := rfl
@[simp] theorem setCodeHi_hLaser (v : Byte) (s : State) : (s.setCodeHi v).hLaser = s.hLaser := rfl
@[simp] theorem setCodeHi_hStatus (v : Byte) (s : State) : (s.setCodeHi v).hStatus = s.hStatus := rfl
@[simp] theorem setCodeHi_hDxl (v : Byte) (s : State) : (s.setCodeHi v).hDxl = s.hDxl := rfl
@[simp] theorem setCodeHi_hDxh (v : Byte) (s : State) : (s.setCodeHi v).hDxh = s.hDxh := rfl
@[simp] theorem setCodeHi_hDyl (v : Byte) (s : State) : (s.setCodeHi v).hDyl = s.hDyl := rfl
@[simp] theorem setCodeHi_hDyh (v : Byte) (s : State) : (s.setCodeHi v).hDyh = s.hDyh := rfl
@[simp] theorem setCodeHi_hDump (v : Byte) (s : State) : (s.setCodeHi v).hDump = s.hDump := rfl
@[simp] theorem setCodeHi_dx (v : Byte) (s : State) : (s.setCodeHi v).dx = s.dx := rfl
@[simp] theorem setCodeHi_dy (v : Byte) (s : State) : (s.setCodeHi v).dy = s.dy := rfl
@[simp] theorem setCodeHi_dstate (v : Byte) (s : State) : (s.setCodeHi v).dstate = s.dstate := rfl
@[simp] theorem setCodeHi_seqpos (v : Byte) (s : State) : (s.setCodeHi v).seqpos = s.seqpos := rfl
@[simp] theorem setCodeHi_pend (v : Byte) (s : State) : (s.setCodeHi v).pend = s.pend := rfl
@[simp] theorem setCodeHi_failinfo (v : Byte) (s : State) : (s.setCodeHi v).failinfo = s.failinfo := rfl
@[simp] theorem setCodeHi_dumped (v : Byte) (s : State) : (s.setCodeHi v).dumped = s.dumped := rfl
@[simp] theorem setCodeHi_t0 (v : Byte) (s : State) : (s.setCodeHi v).t0 = s.t0 := rfl
@[simp] theorem setCodeHi_t1 (v : Byte) (s : State) : (s.setCodeHi v).t1 = s.t1 := rfl
@[simp] theorem setCodeHi_t2 (v : Byte) (s : State) : (s.setCodeHi v).t2 = s.t2 := rfl
@[simp] theorem setCodeHi_out (v : Byte) (s : State) : (s.setCodeHi v).out = s.out := rfl
@[simp] theorem setCodeHi_frame (v : Byte) (s : State) : (s.setCodeHi v).frame = s.frame := rfl
@[simp] theorem setCodeHi_ret (v : Byte) (s : State) : (s.setCodeHi v).ret = s.ret := rfl
@[simp] theorem setCodeHi_bench (v : Byte) (s : State) : (s.setCodeHi v).bench = s.bench := rfl
@[simp] theorem setCodeHi_din (v : Byte) (s : State) : (s.setCodeHi v).din = s.din := rfl
@[simp] theorem setCodeHi_dinCount (v : Byte) (s : State) : (s.setCodeHi v).dinCount = s.dinCount := rfl
@[simp] theorem setCodeHi_edges (v : Byte) (s : State) : (s.setCodeHi v).edges = s.edges := rfl
@[simp] theorem setCodeHi_edgeCount (v : Byte) (s : State) : (s.setCodeHi v).edgeCount = s.edgeCount := rfl

/-! ### State.setPid -/

@[simp] theorem setPid_cfg (v : Byte) (s : State) : (s.setPid v).cfg = s.cfg := rfl
@[simp] theorem setPid_linesCfg (v : Byte) (s : State) : (s.setPid v).linesCfg = s.linesCfg := rfl
@[simp] theorem setPid_sel (v : Byte) (s : State) : (s.setPid v).sel = s.sel := rfl
@[simp] theorem setPid_clk (v : Byte) (s : State) : (s.setPid v).clk = s.clk := rfl
@[simp] theorem setPid_dout (v : Byte) (s : State) : (s.setPid v).dout = s.dout := rfl
@[simp] theorem setPid_sr (v : Byte) (s : State) : (s.setPid v).sr = s.sr := rfl
@[simp] theorem setPid_bitcnt (v : Byte) (s : State) : (s.setPid v).bitcnt = s.bitcnt := rfl
@[simp] theorem setPid_fwidx (v : Byte) (s : State) : (s.setPid v).fwidx = s.fwidx := rfl
@[simp] theorem setPid_hPid (v : Byte) (s : State) : (s.setPid v).hPid = v := rfl
@[simp] theorem setPid_hIpid (v : Byte) (s : State) : (s.setPid v).hIpid = s.hIpid := rfl
@[simp] theorem setPid_hCodeLo (v : Byte) (s : State) : (s.setPid v).hCodeLo = s.hCodeLo := rfl
@[simp] theorem setPid_hCodeHi (v : Byte) (s : State) : (s.setPid v).hCodeHi = s.hCodeHi := rfl
@[simp] theorem setPid_hLaser (v : Byte) (s : State) : (s.setPid v).hLaser = s.hLaser := rfl
@[simp] theorem setPid_hStatus (v : Byte) (s : State) : (s.setPid v).hStatus = s.hStatus := rfl
@[simp] theorem setPid_hDxl (v : Byte) (s : State) : (s.setPid v).hDxl = s.hDxl := rfl
@[simp] theorem setPid_hDxh (v : Byte) (s : State) : (s.setPid v).hDxh = s.hDxh := rfl
@[simp] theorem setPid_hDyl (v : Byte) (s : State) : (s.setPid v).hDyl = s.hDyl := rfl
@[simp] theorem setPid_hDyh (v : Byte) (s : State) : (s.setPid v).hDyh = s.hDyh := rfl
@[simp] theorem setPid_hDump (v : Byte) (s : State) : (s.setPid v).hDump = s.hDump := rfl
@[simp] theorem setPid_dx (v : Byte) (s : State) : (s.setPid v).dx = s.dx := rfl
@[simp] theorem setPid_dy (v : Byte) (s : State) : (s.setPid v).dy = s.dy := rfl
@[simp] theorem setPid_dstate (v : Byte) (s : State) : (s.setPid v).dstate = s.dstate := rfl
@[simp] theorem setPid_seqpos (v : Byte) (s : State) : (s.setPid v).seqpos = s.seqpos := rfl
@[simp] theorem setPid_pend (v : Byte) (s : State) : (s.setPid v).pend = s.pend := rfl
@[simp] theorem setPid_failinfo (v : Byte) (s : State) : (s.setPid v).failinfo = s.failinfo := rfl
@[simp] theorem setPid_dumped (v : Byte) (s : State) : (s.setPid v).dumped = s.dumped := rfl
@[simp] theorem setPid_t0 (v : Byte) (s : State) : (s.setPid v).t0 = s.t0 := rfl
@[simp] theorem setPid_t1 (v : Byte) (s : State) : (s.setPid v).t1 = s.t1 := rfl
@[simp] theorem setPid_t2 (v : Byte) (s : State) : (s.setPid v).t2 = s.t2 := rfl
@[simp] theorem setPid_out (v : Byte) (s : State) : (s.setPid v).out = s.out := rfl
@[simp] theorem setPid_frame (v : Byte) (s : State) : (s.setPid v).frame = s.frame := rfl
@[simp] theorem setPid_ret (v : Byte) (s : State) : (s.setPid v).ret = s.ret := rfl
@[simp] theorem setPid_bench (v : Byte) (s : State) : (s.setPid v).bench = s.bench := rfl
@[simp] theorem setPid_din (v : Byte) (s : State) : (s.setPid v).din = s.din := rfl
@[simp] theorem setPid_dinCount (v : Byte) (s : State) : (s.setPid v).dinCount = s.dinCount := rfl
@[simp] theorem setPid_edges (v : Byte) (s : State) : (s.setPid v).edges = s.edges := rfl
@[simp] theorem setPid_edgeCount (v : Byte) (s : State) : (s.setPid v).edgeCount = s.edgeCount := rfl

/-! ### State.setIpid -/

@[simp] theorem setIpid_cfg (v : Byte) (s : State) : (s.setIpid v).cfg = s.cfg := rfl
@[simp] theorem setIpid_linesCfg (v : Byte) (s : State) : (s.setIpid v).linesCfg = s.linesCfg := rfl
@[simp] theorem setIpid_sel (v : Byte) (s : State) : (s.setIpid v).sel = s.sel := rfl
@[simp] theorem setIpid_clk (v : Byte) (s : State) : (s.setIpid v).clk = s.clk := rfl
@[simp] theorem setIpid_dout (v : Byte) (s : State) : (s.setIpid v).dout = s.dout := rfl
@[simp] theorem setIpid_sr (v : Byte) (s : State) : (s.setIpid v).sr = s.sr := rfl
@[simp] theorem setIpid_bitcnt (v : Byte) (s : State) : (s.setIpid v).bitcnt = s.bitcnt := rfl
@[simp] theorem setIpid_fwidx (v : Byte) (s : State) : (s.setIpid v).fwidx = s.fwidx := rfl
@[simp] theorem setIpid_hPid (v : Byte) (s : State) : (s.setIpid v).hPid = s.hPid := rfl
@[simp] theorem setIpid_hIpid (v : Byte) (s : State) : (s.setIpid v).hIpid = v := rfl
@[simp] theorem setIpid_hCodeLo (v : Byte) (s : State) : (s.setIpid v).hCodeLo = s.hCodeLo := rfl
@[simp] theorem setIpid_hCodeHi (v : Byte) (s : State) : (s.setIpid v).hCodeHi = s.hCodeHi := rfl
@[simp] theorem setIpid_hLaser (v : Byte) (s : State) : (s.setIpid v).hLaser = s.hLaser := rfl
@[simp] theorem setIpid_hStatus (v : Byte) (s : State) : (s.setIpid v).hStatus = s.hStatus := rfl
@[simp] theorem setIpid_hDxl (v : Byte) (s : State) : (s.setIpid v).hDxl = s.hDxl := rfl
@[simp] theorem setIpid_hDxh (v : Byte) (s : State) : (s.setIpid v).hDxh = s.hDxh := rfl
@[simp] theorem setIpid_hDyl (v : Byte) (s : State) : (s.setIpid v).hDyl = s.hDyl := rfl
@[simp] theorem setIpid_hDyh (v : Byte) (s : State) : (s.setIpid v).hDyh = s.hDyh := rfl
@[simp] theorem setIpid_hDump (v : Byte) (s : State) : (s.setIpid v).hDump = s.hDump := rfl
@[simp] theorem setIpid_dx (v : Byte) (s : State) : (s.setIpid v).dx = s.dx := rfl
@[simp] theorem setIpid_dy (v : Byte) (s : State) : (s.setIpid v).dy = s.dy := rfl
@[simp] theorem setIpid_dstate (v : Byte) (s : State) : (s.setIpid v).dstate = s.dstate := rfl
@[simp] theorem setIpid_seqpos (v : Byte) (s : State) : (s.setIpid v).seqpos = s.seqpos := rfl
@[simp] theorem setIpid_pend (v : Byte) (s : State) : (s.setIpid v).pend = s.pend := rfl
@[simp] theorem setIpid_failinfo (v : Byte) (s : State) : (s.setIpid v).failinfo = s.failinfo := rfl
@[simp] theorem setIpid_dumped (v : Byte) (s : State) : (s.setIpid v).dumped = s.dumped := rfl
@[simp] theorem setIpid_t0 (v : Byte) (s : State) : (s.setIpid v).t0 = s.t0 := rfl
@[simp] theorem setIpid_t1 (v : Byte) (s : State) : (s.setIpid v).t1 = s.t1 := rfl
@[simp] theorem setIpid_t2 (v : Byte) (s : State) : (s.setIpid v).t2 = s.t2 := rfl
@[simp] theorem setIpid_out (v : Byte) (s : State) : (s.setIpid v).out = s.out := rfl
@[simp] theorem setIpid_frame (v : Byte) (s : State) : (s.setIpid v).frame = s.frame := rfl
@[simp] theorem setIpid_ret (v : Byte) (s : State) : (s.setIpid v).ret = s.ret := rfl
@[simp] theorem setIpid_bench (v : Byte) (s : State) : (s.setIpid v).bench = s.bench := rfl
@[simp] theorem setIpid_din (v : Byte) (s : State) : (s.setIpid v).din = s.din := rfl
@[simp] theorem setIpid_dinCount (v : Byte) (s : State) : (s.setIpid v).dinCount = s.dinCount := rfl
@[simp] theorem setIpid_edges (v : Byte) (s : State) : (s.setIpid v).edges = s.edges := rfl
@[simp] theorem setIpid_edgeCount (v : Byte) (s : State) : (s.setIpid v).edgeCount = s.edgeCount := rfl

/-! ### State.setLaser -/

@[simp] theorem setLaser_cfg (v : Byte) (s : State) : (s.setLaser v).cfg = s.cfg := rfl
@[simp] theorem setLaser_linesCfg (v : Byte) (s : State) : (s.setLaser v).linesCfg = s.linesCfg := rfl
@[simp] theorem setLaser_sel (v : Byte) (s : State) : (s.setLaser v).sel = s.sel := rfl
@[simp] theorem setLaser_clk (v : Byte) (s : State) : (s.setLaser v).clk = s.clk := rfl
@[simp] theorem setLaser_dout (v : Byte) (s : State) : (s.setLaser v).dout = s.dout := rfl
@[simp] theorem setLaser_sr (v : Byte) (s : State) : (s.setLaser v).sr = s.sr := rfl
@[simp] theorem setLaser_bitcnt (v : Byte) (s : State) : (s.setLaser v).bitcnt = s.bitcnt := rfl
@[simp] theorem setLaser_fwidx (v : Byte) (s : State) : (s.setLaser v).fwidx = s.fwidx := rfl
@[simp] theorem setLaser_hPid (v : Byte) (s : State) : (s.setLaser v).hPid = s.hPid := rfl
@[simp] theorem setLaser_hIpid (v : Byte) (s : State) : (s.setLaser v).hIpid = s.hIpid := rfl
@[simp] theorem setLaser_hCodeLo (v : Byte) (s : State) : (s.setLaser v).hCodeLo = s.hCodeLo := rfl
@[simp] theorem setLaser_hCodeHi (v : Byte) (s : State) : (s.setLaser v).hCodeHi = s.hCodeHi := rfl
@[simp] theorem setLaser_hLaser (v : Byte) (s : State) : (s.setLaser v).hLaser = v := rfl
@[simp] theorem setLaser_hStatus (v : Byte) (s : State) : (s.setLaser v).hStatus = s.hStatus := rfl
@[simp] theorem setLaser_hDxl (v : Byte) (s : State) : (s.setLaser v).hDxl = s.hDxl := rfl
@[simp] theorem setLaser_hDxh (v : Byte) (s : State) : (s.setLaser v).hDxh = s.hDxh := rfl
@[simp] theorem setLaser_hDyl (v : Byte) (s : State) : (s.setLaser v).hDyl = s.hDyl := rfl
@[simp] theorem setLaser_hDyh (v : Byte) (s : State) : (s.setLaser v).hDyh = s.hDyh := rfl
@[simp] theorem setLaser_hDump (v : Byte) (s : State) : (s.setLaser v).hDump = s.hDump := rfl
@[simp] theorem setLaser_dx (v : Byte) (s : State) : (s.setLaser v).dx = s.dx := rfl
@[simp] theorem setLaser_dy (v : Byte) (s : State) : (s.setLaser v).dy = s.dy := rfl
@[simp] theorem setLaser_dstate (v : Byte) (s : State) : (s.setLaser v).dstate = s.dstate := rfl
@[simp] theorem setLaser_seqpos (v : Byte) (s : State) : (s.setLaser v).seqpos = s.seqpos := rfl
@[simp] theorem setLaser_pend (v : Byte) (s : State) : (s.setLaser v).pend = s.pend := rfl
@[simp] theorem setLaser_failinfo (v : Byte) (s : State) : (s.setLaser v).failinfo = s.failinfo := rfl
@[simp] theorem setLaser_dumped (v : Byte) (s : State) : (s.setLaser v).dumped = s.dumped := rfl
@[simp] theorem setLaser_t0 (v : Byte) (s : State) : (s.setLaser v).t0 = s.t0 := rfl
@[simp] theorem setLaser_t1 (v : Byte) (s : State) : (s.setLaser v).t1 = s.t1 := rfl
@[simp] theorem setLaser_t2 (v : Byte) (s : State) : (s.setLaser v).t2 = s.t2 := rfl
@[simp] theorem setLaser_out (v : Byte) (s : State) : (s.setLaser v).out = s.out := rfl
@[simp] theorem setLaser_frame (v : Byte) (s : State) : (s.setLaser v).frame = s.frame := rfl
@[simp] theorem setLaser_ret (v : Byte) (s : State) : (s.setLaser v).ret = s.ret := rfl
@[simp] theorem setLaser_bench (v : Byte) (s : State) : (s.setLaser v).bench = s.bench := rfl
@[simp] theorem setLaser_din (v : Byte) (s : State) : (s.setLaser v).din = s.din := rfl
@[simp] theorem setLaser_dinCount (v : Byte) (s : State) : (s.setLaser v).dinCount = s.dinCount := rfl
@[simp] theorem setLaser_edges (v : Byte) (s : State) : (s.setLaser v).edges = s.edges := rfl
@[simp] theorem setLaser_edgeCount (v : Byte) (s : State) : (s.setLaser v).edgeCount = s.edgeCount := rfl

/-! ### State.setStatus -/

@[simp] theorem setStatus_cfg (v : Byte) (s : State) : (s.setStatus v).cfg = s.cfg := rfl
@[simp] theorem setStatus_linesCfg (v : Byte) (s : State) : (s.setStatus v).linesCfg = s.linesCfg := rfl
@[simp] theorem setStatus_sel (v : Byte) (s : State) : (s.setStatus v).sel = s.sel := rfl
@[simp] theorem setStatus_clk (v : Byte) (s : State) : (s.setStatus v).clk = s.clk := rfl
@[simp] theorem setStatus_dout (v : Byte) (s : State) : (s.setStatus v).dout = s.dout := rfl
@[simp] theorem setStatus_sr (v : Byte) (s : State) : (s.setStatus v).sr = s.sr := rfl
@[simp] theorem setStatus_bitcnt (v : Byte) (s : State) : (s.setStatus v).bitcnt = s.bitcnt := rfl
@[simp] theorem setStatus_fwidx (v : Byte) (s : State) : (s.setStatus v).fwidx = s.fwidx := rfl
@[simp] theorem setStatus_hPid (v : Byte) (s : State) : (s.setStatus v).hPid = s.hPid := rfl
@[simp] theorem setStatus_hIpid (v : Byte) (s : State) : (s.setStatus v).hIpid = s.hIpid := rfl
@[simp] theorem setStatus_hCodeLo (v : Byte) (s : State) : (s.setStatus v).hCodeLo = s.hCodeLo := rfl
@[simp] theorem setStatus_hCodeHi (v : Byte) (s : State) : (s.setStatus v).hCodeHi = s.hCodeHi := rfl
@[simp] theorem setStatus_hLaser (v : Byte) (s : State) : (s.setStatus v).hLaser = s.hLaser := rfl
@[simp] theorem setStatus_hStatus (v : Byte) (s : State) : (s.setStatus v).hStatus = v := rfl
@[simp] theorem setStatus_hDxl (v : Byte) (s : State) : (s.setStatus v).hDxl = s.hDxl := rfl
@[simp] theorem setStatus_hDxh (v : Byte) (s : State) : (s.setStatus v).hDxh = s.hDxh := rfl
@[simp] theorem setStatus_hDyl (v : Byte) (s : State) : (s.setStatus v).hDyl = s.hDyl := rfl
@[simp] theorem setStatus_hDyh (v : Byte) (s : State) : (s.setStatus v).hDyh = s.hDyh := rfl
@[simp] theorem setStatus_hDump (v : Byte) (s : State) : (s.setStatus v).hDump = s.hDump := rfl
@[simp] theorem setStatus_dx (v : Byte) (s : State) : (s.setStatus v).dx = s.dx := rfl
@[simp] theorem setStatus_dy (v : Byte) (s : State) : (s.setStatus v).dy = s.dy := rfl
@[simp] theorem setStatus_dstate (v : Byte) (s : State) : (s.setStatus v).dstate = s.dstate := rfl
@[simp] theorem setStatus_seqpos (v : Byte) (s : State) : (s.setStatus v).seqpos = s.seqpos := rfl
@[simp] theorem setStatus_pend (v : Byte) (s : State) : (s.setStatus v).pend = s.pend := rfl
@[simp] theorem setStatus_failinfo (v : Byte) (s : State) : (s.setStatus v).failinfo = s.failinfo := rfl
@[simp] theorem setStatus_dumped (v : Byte) (s : State) : (s.setStatus v).dumped = s.dumped := rfl
@[simp] theorem setStatus_t0 (v : Byte) (s : State) : (s.setStatus v).t0 = s.t0 := rfl
@[simp] theorem setStatus_t1 (v : Byte) (s : State) : (s.setStatus v).t1 = s.t1 := rfl
@[simp] theorem setStatus_t2 (v : Byte) (s : State) : (s.setStatus v).t2 = s.t2 := rfl
@[simp] theorem setStatus_out (v : Byte) (s : State) : (s.setStatus v).out = s.out := rfl
@[simp] theorem setStatus_frame (v : Byte) (s : State) : (s.setStatus v).frame = s.frame := rfl
@[simp] theorem setStatus_ret (v : Byte) (s : State) : (s.setStatus v).ret = s.ret := rfl
@[simp] theorem setStatus_bench (v : Byte) (s : State) : (s.setStatus v).bench = s.bench := rfl
@[simp] theorem setStatus_din (v : Byte) (s : State) : (s.setStatus v).din = s.din := rfl
@[simp] theorem setStatus_dinCount (v : Byte) (s : State) : (s.setStatus v).dinCount = s.dinCount := rfl
@[simp] theorem setStatus_edges (v : Byte) (s : State) : (s.setStatus v).edges = s.edges := rfl
@[simp] theorem setStatus_edgeCount (v : Byte) (s : State) : (s.setStatus v).edgeCount = s.edgeCount := rfl

/-! ### State.setDxl -/

@[simp] theorem setDxl_cfg (v : Byte) (s : State) : (s.setDxl v).cfg = s.cfg := rfl
@[simp] theorem setDxl_linesCfg (v : Byte) (s : State) : (s.setDxl v).linesCfg = s.linesCfg := rfl
@[simp] theorem setDxl_sel (v : Byte) (s : State) : (s.setDxl v).sel = s.sel := rfl
@[simp] theorem setDxl_clk (v : Byte) (s : State) : (s.setDxl v).clk = s.clk := rfl
@[simp] theorem setDxl_dout (v : Byte) (s : State) : (s.setDxl v).dout = s.dout := rfl
@[simp] theorem setDxl_sr (v : Byte) (s : State) : (s.setDxl v).sr = s.sr := rfl
@[simp] theorem setDxl_bitcnt (v : Byte) (s : State) : (s.setDxl v).bitcnt = s.bitcnt := rfl
@[simp] theorem setDxl_fwidx (v : Byte) (s : State) : (s.setDxl v).fwidx = s.fwidx := rfl
@[simp] theorem setDxl_hPid (v : Byte) (s : State) : (s.setDxl v).hPid = s.hPid := rfl
@[simp] theorem setDxl_hIpid (v : Byte) (s : State) : (s.setDxl v).hIpid = s.hIpid := rfl
@[simp] theorem setDxl_hCodeLo (v : Byte) (s : State) : (s.setDxl v).hCodeLo = s.hCodeLo := rfl
@[simp] theorem setDxl_hCodeHi (v : Byte) (s : State) : (s.setDxl v).hCodeHi = s.hCodeHi := rfl
@[simp] theorem setDxl_hLaser (v : Byte) (s : State) : (s.setDxl v).hLaser = s.hLaser := rfl
@[simp] theorem setDxl_hStatus (v : Byte) (s : State) : (s.setDxl v).hStatus = s.hStatus := rfl
@[simp] theorem setDxl_hDxl (v : Byte) (s : State) : (s.setDxl v).hDxl = v := rfl
@[simp] theorem setDxl_hDxh (v : Byte) (s : State) : (s.setDxl v).hDxh = s.hDxh := rfl
@[simp] theorem setDxl_hDyl (v : Byte) (s : State) : (s.setDxl v).hDyl = s.hDyl := rfl
@[simp] theorem setDxl_hDyh (v : Byte) (s : State) : (s.setDxl v).hDyh = s.hDyh := rfl
@[simp] theorem setDxl_hDump (v : Byte) (s : State) : (s.setDxl v).hDump = s.hDump := rfl
@[simp] theorem setDxl_dx (v : Byte) (s : State) : (s.setDxl v).dx = s.dx := rfl
@[simp] theorem setDxl_dy (v : Byte) (s : State) : (s.setDxl v).dy = s.dy := rfl
@[simp] theorem setDxl_dstate (v : Byte) (s : State) : (s.setDxl v).dstate = s.dstate := rfl
@[simp] theorem setDxl_seqpos (v : Byte) (s : State) : (s.setDxl v).seqpos = s.seqpos := rfl
@[simp] theorem setDxl_pend (v : Byte) (s : State) : (s.setDxl v).pend = s.pend := rfl
@[simp] theorem setDxl_failinfo (v : Byte) (s : State) : (s.setDxl v).failinfo = s.failinfo := rfl
@[simp] theorem setDxl_dumped (v : Byte) (s : State) : (s.setDxl v).dumped = s.dumped := rfl
@[simp] theorem setDxl_t0 (v : Byte) (s : State) : (s.setDxl v).t0 = s.t0 := rfl
@[simp] theorem setDxl_t1 (v : Byte) (s : State) : (s.setDxl v).t1 = s.t1 := rfl
@[simp] theorem setDxl_t2 (v : Byte) (s : State) : (s.setDxl v).t2 = s.t2 := rfl
@[simp] theorem setDxl_out (v : Byte) (s : State) : (s.setDxl v).out = s.out := rfl
@[simp] theorem setDxl_frame (v : Byte) (s : State) : (s.setDxl v).frame = s.frame := rfl
@[simp] theorem setDxl_ret (v : Byte) (s : State) : (s.setDxl v).ret = s.ret := rfl
@[simp] theorem setDxl_bench (v : Byte) (s : State) : (s.setDxl v).bench = s.bench := rfl
@[simp] theorem setDxl_din (v : Byte) (s : State) : (s.setDxl v).din = s.din := rfl
@[simp] theorem setDxl_dinCount (v : Byte) (s : State) : (s.setDxl v).dinCount = s.dinCount := rfl
@[simp] theorem setDxl_edges (v : Byte) (s : State) : (s.setDxl v).edges = s.edges := rfl
@[simp] theorem setDxl_edgeCount (v : Byte) (s : State) : (s.setDxl v).edgeCount = s.edgeCount := rfl

/-! ### State.setDxh -/

@[simp] theorem setDxh_cfg (v : Byte) (s : State) : (s.setDxh v).cfg = s.cfg := rfl
@[simp] theorem setDxh_linesCfg (v : Byte) (s : State) : (s.setDxh v).linesCfg = s.linesCfg := rfl
@[simp] theorem setDxh_sel (v : Byte) (s : State) : (s.setDxh v).sel = s.sel := rfl
@[simp] theorem setDxh_clk (v : Byte) (s : State) : (s.setDxh v).clk = s.clk := rfl
@[simp] theorem setDxh_dout (v : Byte) (s : State) : (s.setDxh v).dout = s.dout := rfl
@[simp] theorem setDxh_sr (v : Byte) (s : State) : (s.setDxh v).sr = s.sr := rfl
@[simp] theorem setDxh_bitcnt (v : Byte) (s : State) : (s.setDxh v).bitcnt = s.bitcnt := rfl
@[simp] theorem setDxh_fwidx (v : Byte) (s : State) : (s.setDxh v).fwidx = s.fwidx := rfl
@[simp] theorem setDxh_hPid (v : Byte) (s : State) : (s.setDxh v).hPid = s.hPid := rfl
@[simp] theorem setDxh_hIpid (v : Byte) (s : State) : (s.setDxh v).hIpid = s.hIpid := rfl
@[simp] theorem setDxh_hCodeLo (v : Byte) (s : State) : (s.setDxh v).hCodeLo = s.hCodeLo := rfl
@[simp] theorem setDxh_hCodeHi (v : Byte) (s : State) : (s.setDxh v).hCodeHi = s.hCodeHi := rfl
@[simp] theorem setDxh_hLaser (v : Byte) (s : State) : (s.setDxh v).hLaser = s.hLaser := rfl
@[simp] theorem setDxh_hStatus (v : Byte) (s : State) : (s.setDxh v).hStatus = s.hStatus := rfl
@[simp] theorem setDxh_hDxl (v : Byte) (s : State) : (s.setDxh v).hDxl = s.hDxl := rfl
@[simp] theorem setDxh_hDxh (v : Byte) (s : State) : (s.setDxh v).hDxh = v := rfl
@[simp] theorem setDxh_hDyl (v : Byte) (s : State) : (s.setDxh v).hDyl = s.hDyl := rfl
@[simp] theorem setDxh_hDyh (v : Byte) (s : State) : (s.setDxh v).hDyh = s.hDyh := rfl
@[simp] theorem setDxh_hDump (v : Byte) (s : State) : (s.setDxh v).hDump = s.hDump := rfl
@[simp] theorem setDxh_dx (v : Byte) (s : State) : (s.setDxh v).dx = s.dx := rfl
@[simp] theorem setDxh_dy (v : Byte) (s : State) : (s.setDxh v).dy = s.dy := rfl
@[simp] theorem setDxh_dstate (v : Byte) (s : State) : (s.setDxh v).dstate = s.dstate := rfl
@[simp] theorem setDxh_seqpos (v : Byte) (s : State) : (s.setDxh v).seqpos = s.seqpos := rfl
@[simp] theorem setDxh_pend (v : Byte) (s : State) : (s.setDxh v).pend = s.pend := rfl
@[simp] theorem setDxh_failinfo (v : Byte) (s : State) : (s.setDxh v).failinfo = s.failinfo := rfl
@[simp] theorem setDxh_dumped (v : Byte) (s : State) : (s.setDxh v).dumped = s.dumped := rfl
@[simp] theorem setDxh_t0 (v : Byte) (s : State) : (s.setDxh v).t0 = s.t0 := rfl
@[simp] theorem setDxh_t1 (v : Byte) (s : State) : (s.setDxh v).t1 = s.t1 := rfl
@[simp] theorem setDxh_t2 (v : Byte) (s : State) : (s.setDxh v).t2 = s.t2 := rfl
@[simp] theorem setDxh_out (v : Byte) (s : State) : (s.setDxh v).out = s.out := rfl
@[simp] theorem setDxh_frame (v : Byte) (s : State) : (s.setDxh v).frame = s.frame := rfl
@[simp] theorem setDxh_ret (v : Byte) (s : State) : (s.setDxh v).ret = s.ret := rfl
@[simp] theorem setDxh_bench (v : Byte) (s : State) : (s.setDxh v).bench = s.bench := rfl
@[simp] theorem setDxh_din (v : Byte) (s : State) : (s.setDxh v).din = s.din := rfl
@[simp] theorem setDxh_dinCount (v : Byte) (s : State) : (s.setDxh v).dinCount = s.dinCount := rfl
@[simp] theorem setDxh_edges (v : Byte) (s : State) : (s.setDxh v).edges = s.edges := rfl
@[simp] theorem setDxh_edgeCount (v : Byte) (s : State) : (s.setDxh v).edgeCount = s.edgeCount := rfl

/-! ### State.setDyl -/

@[simp] theorem setDyl_cfg (v : Byte) (s : State) : (s.setDyl v).cfg = s.cfg := rfl
@[simp] theorem setDyl_linesCfg (v : Byte) (s : State) : (s.setDyl v).linesCfg = s.linesCfg := rfl
@[simp] theorem setDyl_sel (v : Byte) (s : State) : (s.setDyl v).sel = s.sel := rfl
@[simp] theorem setDyl_clk (v : Byte) (s : State) : (s.setDyl v).clk = s.clk := rfl
@[simp] theorem setDyl_dout (v : Byte) (s : State) : (s.setDyl v).dout = s.dout := rfl
@[simp] theorem setDyl_sr (v : Byte) (s : State) : (s.setDyl v).sr = s.sr := rfl
@[simp] theorem setDyl_bitcnt (v : Byte) (s : State) : (s.setDyl v).bitcnt = s.bitcnt := rfl
@[simp] theorem setDyl_fwidx (v : Byte) (s : State) : (s.setDyl v).fwidx = s.fwidx := rfl
@[simp] theorem setDyl_hPid (v : Byte) (s : State) : (s.setDyl v).hPid = s.hPid := rfl
@[simp] theorem setDyl_hIpid (v : Byte) (s : State) : (s.setDyl v).hIpid = s.hIpid := rfl
@[simp] theorem setDyl_hCodeLo (v : Byte) (s : State) : (s.setDyl v).hCodeLo = s.hCodeLo := rfl
@[simp] theorem setDyl_hCodeHi (v : Byte) (s : State) : (s.setDyl v).hCodeHi = s.hCodeHi := rfl
@[simp] theorem setDyl_hLaser (v : Byte) (s : State) : (s.setDyl v).hLaser = s.hLaser := rfl
@[simp] theorem setDyl_hStatus (v : Byte) (s : State) : (s.setDyl v).hStatus = s.hStatus := rfl
@[simp] theorem setDyl_hDxl (v : Byte) (s : State) : (s.setDyl v).hDxl = s.hDxl := rfl
@[simp] theorem setDyl_hDxh (v : Byte) (s : State) : (s.setDyl v).hDxh = s.hDxh := rfl
@[simp] theorem setDyl_hDyl (v : Byte) (s : State) : (s.setDyl v).hDyl = v := rfl
@[simp] theorem setDyl_hDyh (v : Byte) (s : State) : (s.setDyl v).hDyh = s.hDyh := rfl
@[simp] theorem setDyl_hDump (v : Byte) (s : State) : (s.setDyl v).hDump = s.hDump := rfl
@[simp] theorem setDyl_dx (v : Byte) (s : State) : (s.setDyl v).dx = s.dx := rfl
@[simp] theorem setDyl_dy (v : Byte) (s : State) : (s.setDyl v).dy = s.dy := rfl
@[simp] theorem setDyl_dstate (v : Byte) (s : State) : (s.setDyl v).dstate = s.dstate := rfl
@[simp] theorem setDyl_seqpos (v : Byte) (s : State) : (s.setDyl v).seqpos = s.seqpos := rfl
@[simp] theorem setDyl_pend (v : Byte) (s : State) : (s.setDyl v).pend = s.pend := rfl
@[simp] theorem setDyl_failinfo (v : Byte) (s : State) : (s.setDyl v).failinfo = s.failinfo := rfl
@[simp] theorem setDyl_dumped (v : Byte) (s : State) : (s.setDyl v).dumped = s.dumped := rfl
@[simp] theorem setDyl_t0 (v : Byte) (s : State) : (s.setDyl v).t0 = s.t0 := rfl
@[simp] theorem setDyl_t1 (v : Byte) (s : State) : (s.setDyl v).t1 = s.t1 := rfl
@[simp] theorem setDyl_t2 (v : Byte) (s : State) : (s.setDyl v).t2 = s.t2 := rfl
@[simp] theorem setDyl_out (v : Byte) (s : State) : (s.setDyl v).out = s.out := rfl
@[simp] theorem setDyl_frame (v : Byte) (s : State) : (s.setDyl v).frame = s.frame := rfl
@[simp] theorem setDyl_ret (v : Byte) (s : State) : (s.setDyl v).ret = s.ret := rfl
@[simp] theorem setDyl_bench (v : Byte) (s : State) : (s.setDyl v).bench = s.bench := rfl
@[simp] theorem setDyl_din (v : Byte) (s : State) : (s.setDyl v).din = s.din := rfl
@[simp] theorem setDyl_dinCount (v : Byte) (s : State) : (s.setDyl v).dinCount = s.dinCount := rfl
@[simp] theorem setDyl_edges (v : Byte) (s : State) : (s.setDyl v).edges = s.edges := rfl
@[simp] theorem setDyl_edgeCount (v : Byte) (s : State) : (s.setDyl v).edgeCount = s.edgeCount := rfl

/-! ### State.setDyh -/

@[simp] theorem setDyh_cfg (v : Byte) (s : State) : (s.setDyh v).cfg = s.cfg := rfl
@[simp] theorem setDyh_linesCfg (v : Byte) (s : State) : (s.setDyh v).linesCfg = s.linesCfg := rfl
@[simp] theorem setDyh_sel (v : Byte) (s : State) : (s.setDyh v).sel = s.sel := rfl
@[simp] theorem setDyh_clk (v : Byte) (s : State) : (s.setDyh v).clk = s.clk := rfl
@[simp] theorem setDyh_dout (v : Byte) (s : State) : (s.setDyh v).dout = s.dout := rfl
@[simp] theorem setDyh_sr (v : Byte) (s : State) : (s.setDyh v).sr = s.sr := rfl
@[simp] theorem setDyh_bitcnt (v : Byte) (s : State) : (s.setDyh v).bitcnt = s.bitcnt := rfl
@[simp] theorem setDyh_fwidx (v : Byte) (s : State) : (s.setDyh v).fwidx = s.fwidx := rfl
@[simp] theorem setDyh_hPid (v : Byte) (s : State) : (s.setDyh v).hPid = s.hPid := rfl
@[simp] theorem setDyh_hIpid (v : Byte) (s : State) : (s.setDyh v).hIpid = s.hIpid := rfl
@[simp] theorem setDyh_hCodeLo (v : Byte) (s : State) : (s.setDyh v).hCodeLo = s.hCodeLo := rfl
@[simp] theorem setDyh_hCodeHi (v : Byte) (s : State) : (s.setDyh v).hCodeHi = s.hCodeHi := rfl
@[simp] theorem setDyh_hLaser (v : Byte) (s : State) : (s.setDyh v).hLaser = s.hLaser := rfl
@[simp] theorem setDyh_hStatus (v : Byte) (s : State) : (s.setDyh v).hStatus = s.hStatus := rfl
@[simp] theorem setDyh_hDxl (v : Byte) (s : State) : (s.setDyh v).hDxl = s.hDxl := rfl
@[simp] theorem setDyh_hDxh (v : Byte) (s : State) : (s.setDyh v).hDxh = s.hDxh := rfl
@[simp] theorem setDyh_hDyl (v : Byte) (s : State) : (s.setDyh v).hDyl = s.hDyl := rfl
@[simp] theorem setDyh_hDyh (v : Byte) (s : State) : (s.setDyh v).hDyh = v := rfl
@[simp] theorem setDyh_hDump (v : Byte) (s : State) : (s.setDyh v).hDump = s.hDump := rfl
@[simp] theorem setDyh_dx (v : Byte) (s : State) : (s.setDyh v).dx = s.dx := rfl
@[simp] theorem setDyh_dy (v : Byte) (s : State) : (s.setDyh v).dy = s.dy := rfl
@[simp] theorem setDyh_dstate (v : Byte) (s : State) : (s.setDyh v).dstate = s.dstate := rfl
@[simp] theorem setDyh_seqpos (v : Byte) (s : State) : (s.setDyh v).seqpos = s.seqpos := rfl
@[simp] theorem setDyh_pend (v : Byte) (s : State) : (s.setDyh v).pend = s.pend := rfl
@[simp] theorem setDyh_failinfo (v : Byte) (s : State) : (s.setDyh v).failinfo = s.failinfo := rfl
@[simp] theorem setDyh_dumped (v : Byte) (s : State) : (s.setDyh v).dumped = s.dumped := rfl
@[simp] theorem setDyh_t0 (v : Byte) (s : State) : (s.setDyh v).t0 = s.t0 := rfl
@[simp] theorem setDyh_t1 (v : Byte) (s : State) : (s.setDyh v).t1 = s.t1 := rfl
@[simp] theorem setDyh_t2 (v : Byte) (s : State) : (s.setDyh v).t2 = s.t2 := rfl
@[simp] theorem setDyh_out (v : Byte) (s : State) : (s.setDyh v).out = s.out := rfl
@[simp] theorem setDyh_frame (v : Byte) (s : State) : (s.setDyh v).frame = s.frame := rfl
@[simp] theorem setDyh_ret (v : Byte) (s : State) : (s.setDyh v).ret = s.ret := rfl
@[simp] theorem setDyh_bench (v : Byte) (s : State) : (s.setDyh v).bench = s.bench := rfl
@[simp] theorem setDyh_din (v : Byte) (s : State) : (s.setDyh v).din = s.din := rfl
@[simp] theorem setDyh_dinCount (v : Byte) (s : State) : (s.setDyh v).dinCount = s.dinCount := rfl
@[simp] theorem setDyh_edges (v : Byte) (s : State) : (s.setDyh v).edges = s.edges := rfl
@[simp] theorem setDyh_edgeCount (v : Byte) (s : State) : (s.setDyh v).edgeCount = s.edgeCount := rfl

/-! ### State.setDump -/

@[simp] theorem setDump_cfg (v : Byte) (s : State) : (s.setDump v).cfg = s.cfg := rfl
@[simp] theorem setDump_linesCfg (v : Byte) (s : State) : (s.setDump v).linesCfg = s.linesCfg := rfl
@[simp] theorem setDump_sel (v : Byte) (s : State) : (s.setDump v).sel = s.sel := rfl
@[simp] theorem setDump_clk (v : Byte) (s : State) : (s.setDump v).clk = s.clk := rfl
@[simp] theorem setDump_dout (v : Byte) (s : State) : (s.setDump v).dout = s.dout := rfl
@[simp] theorem setDump_sr (v : Byte) (s : State) : (s.setDump v).sr = s.sr := rfl
@[simp] theorem setDump_bitcnt (v : Byte) (s : State) : (s.setDump v).bitcnt = s.bitcnt := rfl
@[simp] theorem setDump_fwidx (v : Byte) (s : State) : (s.setDump v).fwidx = s.fwidx := rfl
@[simp] theorem setDump_hPid (v : Byte) (s : State) : (s.setDump v).hPid = s.hPid := rfl
@[simp] theorem setDump_hIpid (v : Byte) (s : State) : (s.setDump v).hIpid = s.hIpid := rfl
@[simp] theorem setDump_hCodeLo (v : Byte) (s : State) : (s.setDump v).hCodeLo = s.hCodeLo := rfl
@[simp] theorem setDump_hCodeHi (v : Byte) (s : State) : (s.setDump v).hCodeHi = s.hCodeHi := rfl
@[simp] theorem setDump_hLaser (v : Byte) (s : State) : (s.setDump v).hLaser = s.hLaser := rfl
@[simp] theorem setDump_hStatus (v : Byte) (s : State) : (s.setDump v).hStatus = s.hStatus := rfl
@[simp] theorem setDump_hDxl (v : Byte) (s : State) : (s.setDump v).hDxl = s.hDxl := rfl
@[simp] theorem setDump_hDxh (v : Byte) (s : State) : (s.setDump v).hDxh = s.hDxh := rfl
@[simp] theorem setDump_hDyl (v : Byte) (s : State) : (s.setDump v).hDyl = s.hDyl := rfl
@[simp] theorem setDump_hDyh (v : Byte) (s : State) : (s.setDump v).hDyh = s.hDyh := rfl
@[simp] theorem setDump_hDump (v : Byte) (s : State) : (s.setDump v).hDump = v := rfl
@[simp] theorem setDump_dx (v : Byte) (s : State) : (s.setDump v).dx = s.dx := rfl
@[simp] theorem setDump_dy (v : Byte) (s : State) : (s.setDump v).dy = s.dy := rfl
@[simp] theorem setDump_dstate (v : Byte) (s : State) : (s.setDump v).dstate = s.dstate := rfl
@[simp] theorem setDump_seqpos (v : Byte) (s : State) : (s.setDump v).seqpos = s.seqpos := rfl
@[simp] theorem setDump_pend (v : Byte) (s : State) : (s.setDump v).pend = s.pend := rfl
@[simp] theorem setDump_failinfo (v : Byte) (s : State) : (s.setDump v).failinfo = s.failinfo := rfl
@[simp] theorem setDump_dumped (v : Byte) (s : State) : (s.setDump v).dumped = s.dumped := rfl
@[simp] theorem setDump_t0 (v : Byte) (s : State) : (s.setDump v).t0 = s.t0 := rfl
@[simp] theorem setDump_t1 (v : Byte) (s : State) : (s.setDump v).t1 = s.t1 := rfl
@[simp] theorem setDump_t2 (v : Byte) (s : State) : (s.setDump v).t2 = s.t2 := rfl
@[simp] theorem setDump_out (v : Byte) (s : State) : (s.setDump v).out = s.out := rfl
@[simp] theorem setDump_frame (v : Byte) (s : State) : (s.setDump v).frame = s.frame := rfl
@[simp] theorem setDump_ret (v : Byte) (s : State) : (s.setDump v).ret = s.ret := rfl
@[simp] theorem setDump_bench (v : Byte) (s : State) : (s.setDump v).bench = s.bench := rfl
@[simp] theorem setDump_din (v : Byte) (s : State) : (s.setDump v).din = s.din := rfl
@[simp] theorem setDump_dinCount (v : Byte) (s : State) : (s.setDump v).dinCount = s.dinCount := rfl
@[simp] theorem setDump_edges (v : Byte) (s : State) : (s.setDump v).edges = s.edges := rfl
@[simp] theorem setDump_edgeCount (v : Byte) (s : State) : (s.setDump v).edgeCount = s.edgeCount := rfl

/-! ### State.setDeltas -/

@[simp] theorem setDeltas_cfg (x y : Half) (s : State) : (s.setDeltas x y).cfg = s.cfg := rfl
@[simp] theorem setDeltas_linesCfg (x y : Half) (s : State) : (s.setDeltas x y).linesCfg = s.linesCfg := rfl
@[simp] theorem setDeltas_sel (x y : Half) (s : State) : (s.setDeltas x y).sel = s.sel := rfl
@[simp] theorem setDeltas_clk (x y : Half) (s : State) : (s.setDeltas x y).clk = s.clk := rfl
@[simp] theorem setDeltas_dout (x y : Half) (s : State) : (s.setDeltas x y).dout = s.dout := rfl
@[simp] theorem setDeltas_sr (x y : Half) (s : State) : (s.setDeltas x y).sr = s.sr := rfl
@[simp] theorem setDeltas_bitcnt (x y : Half) (s : State) : (s.setDeltas x y).bitcnt = s.bitcnt := rfl
@[simp] theorem setDeltas_fwidx (x y : Half) (s : State) : (s.setDeltas x y).fwidx = s.fwidx := rfl
@[simp] theorem setDeltas_hPid (x y : Half) (s : State) : (s.setDeltas x y).hPid = s.hPid := rfl
@[simp] theorem setDeltas_hIpid (x y : Half) (s : State) : (s.setDeltas x y).hIpid = s.hIpid := rfl
@[simp] theorem setDeltas_hCodeLo (x y : Half) (s : State) : (s.setDeltas x y).hCodeLo = s.hCodeLo := rfl
@[simp] theorem setDeltas_hCodeHi (x y : Half) (s : State) : (s.setDeltas x y).hCodeHi = s.hCodeHi := rfl
@[simp] theorem setDeltas_hLaser (x y : Half) (s : State) : (s.setDeltas x y).hLaser = s.hLaser := rfl
@[simp] theorem setDeltas_hStatus (x y : Half) (s : State) : (s.setDeltas x y).hStatus = s.hStatus := rfl
@[simp] theorem setDeltas_hDxl (x y : Half) (s : State) : (s.setDeltas x y).hDxl = s.hDxl := rfl
@[simp] theorem setDeltas_hDxh (x y : Half) (s : State) : (s.setDeltas x y).hDxh = s.hDxh := rfl
@[simp] theorem setDeltas_hDyl (x y : Half) (s : State) : (s.setDeltas x y).hDyl = s.hDyl := rfl
@[simp] theorem setDeltas_hDyh (x y : Half) (s : State) : (s.setDeltas x y).hDyh = s.hDyh := rfl
@[simp] theorem setDeltas_hDump (x y : Half) (s : State) : (s.setDeltas x y).hDump = s.hDump := rfl
@[simp] theorem setDeltas_dx (x y : Half) (s : State) : (s.setDeltas x y).dx = x := rfl
@[simp] theorem setDeltas_dy (x y : Half) (s : State) : (s.setDeltas x y).dy = y := rfl
@[simp] theorem setDeltas_dstate (x y : Half) (s : State) : (s.setDeltas x y).dstate = s.dstate := rfl
@[simp] theorem setDeltas_seqpos (x y : Half) (s : State) : (s.setDeltas x y).seqpos = s.seqpos := rfl
@[simp] theorem setDeltas_pend (x y : Half) (s : State) : (s.setDeltas x y).pend = s.pend := rfl
@[simp] theorem setDeltas_failinfo (x y : Half) (s : State) : (s.setDeltas x y).failinfo = s.failinfo := rfl
@[simp] theorem setDeltas_dumped (x y : Half) (s : State) : (s.setDeltas x y).dumped = s.dumped := rfl
@[simp] theorem setDeltas_t0 (x y : Half) (s : State) : (s.setDeltas x y).t0 = s.t0 := rfl
@[simp] theorem setDeltas_t1 (x y : Half) (s : State) : (s.setDeltas x y).t1 = s.t1 := rfl
@[simp] theorem setDeltas_t2 (x y : Half) (s : State) : (s.setDeltas x y).t2 = s.t2 := rfl
@[simp] theorem setDeltas_out (x y : Half) (s : State) : (s.setDeltas x y).out = s.out := rfl
@[simp] theorem setDeltas_frame (x y : Half) (s : State) : (s.setDeltas x y).frame = s.frame := rfl
@[simp] theorem setDeltas_ret (x y : Half) (s : State) : (s.setDeltas x y).ret = s.ret := rfl
@[simp] theorem setDeltas_bench (x y : Half) (s : State) : (s.setDeltas x y).bench = s.bench := rfl
@[simp] theorem setDeltas_din (x y : Half) (s : State) : (s.setDeltas x y).din = s.din := rfl
@[simp] theorem setDeltas_dinCount (x y : Half) (s : State) : (s.setDeltas x y).dinCount = s.dinCount := rfl
@[simp] theorem setDeltas_edges (x y : Half) (s : State) : (s.setDeltas x y).edges = s.edges := rfl
@[simp] theorem setDeltas_edgeCount (x y : Half) (s : State) : (s.setDeltas x y).edgeCount = s.edgeCount := rfl

/-! ### State.setDumped -/

@[simp] theorem setDumped_cfg (s : State) : s.setDumped.cfg = s.cfg := rfl
@[simp] theorem setDumped_linesCfg (s : State) : s.setDumped.linesCfg = s.linesCfg := rfl
@[simp] theorem setDumped_sel (s : State) : s.setDumped.sel = s.sel := rfl
@[simp] theorem setDumped_clk (s : State) : s.setDumped.clk = s.clk := rfl
@[simp] theorem setDumped_dout (s : State) : s.setDumped.dout = s.dout := rfl
@[simp] theorem setDumped_sr (s : State) : s.setDumped.sr = s.sr := rfl
@[simp] theorem setDumped_bitcnt (s : State) : s.setDumped.bitcnt = s.bitcnt := rfl
@[simp] theorem setDumped_fwidx (s : State) : s.setDumped.fwidx = s.fwidx := rfl
@[simp] theorem setDumped_hPid (s : State) : s.setDumped.hPid = s.hPid := rfl
@[simp] theorem setDumped_hIpid (s : State) : s.setDumped.hIpid = s.hIpid := rfl
@[simp] theorem setDumped_hCodeLo (s : State) : s.setDumped.hCodeLo = s.hCodeLo := rfl
@[simp] theorem setDumped_hCodeHi (s : State) : s.setDumped.hCodeHi = s.hCodeHi := rfl
@[simp] theorem setDumped_hLaser (s : State) : s.setDumped.hLaser = s.hLaser := rfl
@[simp] theorem setDumped_hStatus (s : State) : s.setDumped.hStatus = s.hStatus := rfl
@[simp] theorem setDumped_hDxl (s : State) : s.setDumped.hDxl = s.hDxl := rfl
@[simp] theorem setDumped_hDxh (s : State) : s.setDumped.hDxh = s.hDxh := rfl
@[simp] theorem setDumped_hDyl (s : State) : s.setDumped.hDyl = s.hDyl := rfl
@[simp] theorem setDumped_hDyh (s : State) : s.setDumped.hDyh = s.hDyh := rfl
@[simp] theorem setDumped_hDump (s : State) : s.setDumped.hDump = s.hDump := rfl
@[simp] theorem setDumped_dx (s : State) : s.setDumped.dx = s.dx := rfl
@[simp] theorem setDumped_dy (s : State) : s.setDumped.dy = s.dy := rfl
@[simp] theorem setDumped_dstate (s : State) : s.setDumped.dstate = s.dstate := rfl
@[simp] theorem setDumped_seqpos (s : State) : s.setDumped.seqpos = s.seqpos := rfl
@[simp] theorem setDumped_pend (s : State) : s.setDumped.pend = s.pend := rfl
@[simp] theorem setDumped_failinfo (s : State) : s.setDumped.failinfo = s.failinfo := rfl
@[simp] theorem setDumped_dumped (s : State) : s.setDumped.dumped = true := rfl
@[simp] theorem setDumped_t0 (s : State) : s.setDumped.t0 = s.t0 := rfl
@[simp] theorem setDumped_t1 (s : State) : s.setDumped.t1 = s.t1 := rfl
@[simp] theorem setDumped_t2 (s : State) : s.setDumped.t2 = s.t2 := rfl
@[simp] theorem setDumped_out (s : State) : s.setDumped.out = s.out := rfl
@[simp] theorem setDumped_frame (s : State) : s.setDumped.frame = s.frame := rfl
@[simp] theorem setDumped_ret (s : State) : s.setDumped.ret = s.ret := rfl
@[simp] theorem setDumped_bench (s : State) : s.setDumped.bench = s.bench := rfl
@[simp] theorem setDumped_din (s : State) : s.setDumped.din = s.din := rfl
@[simp] theorem setDumped_dinCount (s : State) : s.setDumped.dinCount = s.dinCount := rfl
@[simp] theorem setDumped_edges (s : State) : s.setDumped.edges = s.edges := rfl
@[simp] theorem setDumped_edgeCount (s : State) : s.setDumped.edgeCount = s.edgeCount := rfl

/-! ### State.setSeqpos -/

@[simp] theorem setSeqpos_cfg (k : Nat) (s : State) : (s.setSeqpos k).cfg = s.cfg := rfl
@[simp] theorem setSeqpos_linesCfg (k : Nat) (s : State) : (s.setSeqpos k).linesCfg = s.linesCfg := rfl
@[simp] theorem setSeqpos_sel (k : Nat) (s : State) : (s.setSeqpos k).sel = s.sel := rfl
@[simp] theorem setSeqpos_clk (k : Nat) (s : State) : (s.setSeqpos k).clk = s.clk := rfl
@[simp] theorem setSeqpos_dout (k : Nat) (s : State) : (s.setSeqpos k).dout = s.dout := rfl
@[simp] theorem setSeqpos_sr (k : Nat) (s : State) : (s.setSeqpos k).sr = s.sr := rfl
@[simp] theorem setSeqpos_bitcnt (k : Nat) (s : State) : (s.setSeqpos k).bitcnt = s.bitcnt := rfl
@[simp] theorem setSeqpos_fwidx (k : Nat) (s : State) : (s.setSeqpos k).fwidx = s.fwidx := rfl
@[simp] theorem setSeqpos_hPid (k : Nat) (s : State) : (s.setSeqpos k).hPid = s.hPid := rfl
@[simp] theorem setSeqpos_hIpid (k : Nat) (s : State) : (s.setSeqpos k).hIpid = s.hIpid := rfl
@[simp] theorem setSeqpos_hCodeLo (k : Nat) (s : State) : (s.setSeqpos k).hCodeLo = s.hCodeLo := rfl
@[simp] theorem setSeqpos_hCodeHi (k : Nat) (s : State) : (s.setSeqpos k).hCodeHi = s.hCodeHi := rfl
@[simp] theorem setSeqpos_hLaser (k : Nat) (s : State) : (s.setSeqpos k).hLaser = s.hLaser := rfl
@[simp] theorem setSeqpos_hStatus (k : Nat) (s : State) : (s.setSeqpos k).hStatus = s.hStatus := rfl
@[simp] theorem setSeqpos_hDxl (k : Nat) (s : State) : (s.setSeqpos k).hDxl = s.hDxl := rfl
@[simp] theorem setSeqpos_hDxh (k : Nat) (s : State) : (s.setSeqpos k).hDxh = s.hDxh := rfl
@[simp] theorem setSeqpos_hDyl (k : Nat) (s : State) : (s.setSeqpos k).hDyl = s.hDyl := rfl
@[simp] theorem setSeqpos_hDyh (k : Nat) (s : State) : (s.setSeqpos k).hDyh = s.hDyh := rfl
@[simp] theorem setSeqpos_hDump (k : Nat) (s : State) : (s.setSeqpos k).hDump = s.hDump := rfl
@[simp] theorem setSeqpos_dx (k : Nat) (s : State) : (s.setSeqpos k).dx = s.dx := rfl
@[simp] theorem setSeqpos_dy (k : Nat) (s : State) : (s.setSeqpos k).dy = s.dy := rfl
@[simp] theorem setSeqpos_dstate (k : Nat) (s : State) : (s.setSeqpos k).dstate = s.dstate := rfl
@[simp] theorem setSeqpos_seqpos (k : Nat) (s : State) : (s.setSeqpos k).seqpos = k := rfl
@[simp] theorem setSeqpos_pend (k : Nat) (s : State) : (s.setSeqpos k).pend = s.pend := rfl
@[simp] theorem setSeqpos_failinfo (k : Nat) (s : State) : (s.setSeqpos k).failinfo = s.failinfo := rfl
@[simp] theorem setSeqpos_dumped (k : Nat) (s : State) : (s.setSeqpos k).dumped = s.dumped := rfl
@[simp] theorem setSeqpos_t0 (k : Nat) (s : State) : (s.setSeqpos k).t0 = s.t0 := rfl
@[simp] theorem setSeqpos_t1 (k : Nat) (s : State) : (s.setSeqpos k).t1 = s.t1 := rfl
@[simp] theorem setSeqpos_t2 (k : Nat) (s : State) : (s.setSeqpos k).t2 = s.t2 := rfl
@[simp] theorem setSeqpos_out (k : Nat) (s : State) : (s.setSeqpos k).out = s.out := rfl
@[simp] theorem setSeqpos_frame (k : Nat) (s : State) : (s.setSeqpos k).frame = s.frame := rfl
@[simp] theorem setSeqpos_ret (k : Nat) (s : State) : (s.setSeqpos k).ret = s.ret := rfl
@[simp] theorem setSeqpos_bench (k : Nat) (s : State) : (s.setSeqpos k).bench = s.bench := rfl
@[simp] theorem setSeqpos_din (k : Nat) (s : State) : (s.setSeqpos k).din = s.din := rfl
@[simp] theorem setSeqpos_dinCount (k : Nat) (s : State) : (s.setSeqpos k).dinCount = s.dinCount := rfl
@[simp] theorem setSeqpos_edges (k : Nat) (s : State) : (s.setSeqpos k).edges = s.edges := rfl
@[simp] theorem setSeqpos_edgeCount (k : Nat) (s : State) : (s.setSeqpos k).edgeCount = s.edgeCount := rfl

/-! ### State.eventMove -/

@[simp] theorem eventMove_cfg (s : State) : s.eventMove.cfg = s.cfg := by
  unfold State.eventMove; split <;> rfl
@[simp] theorem eventMove_linesCfg (s : State) : s.eventMove.linesCfg = s.linesCfg := by
  unfold State.eventMove; split <;> rfl
@[simp] theorem eventMove_sel (s : State) : s.eventMove.sel = s.sel := by
  unfold State.eventMove; split <;> rfl
@[simp] theorem eventMove_clk (s : State) : s.eventMove.clk = s.clk := by
  unfold State.eventMove; split <;> rfl
@[simp] theorem eventMove_dout (s : State) : s.eventMove.dout = s.dout := by
  unfold State.eventMove; split <;> rfl
@[simp] theorem eventMove_sr (s : State) : s.eventMove.sr = s.sr := by
  unfold State.eventMove; split <;> rfl
@[simp] theorem eventMove_bitcnt (s : State) : s.eventMove.bitcnt = s.bitcnt := by
  unfold State.eventMove; split <;> rfl
@[simp] theorem eventMove_fwidx (s : State) : s.eventMove.fwidx = s.fwidx := by
  unfold State.eventMove; split <;> rfl
@[simp] theorem eventMove_hPid (s : State) : s.eventMove.hPid = s.hPid := by
  unfold State.eventMove; split <;> rfl
@[simp] theorem eventMove_hIpid (s : State) : s.eventMove.hIpid = s.hIpid := by
  unfold State.eventMove; split <;> rfl
@[simp] theorem eventMove_hCodeLo (s : State) : s.eventMove.hCodeLo = s.hCodeLo := by
  unfold State.eventMove; split <;> rfl
@[simp] theorem eventMove_hCodeHi (s : State) : s.eventMove.hCodeHi = s.hCodeHi := by
  unfold State.eventMove; split <;> rfl
@[simp] theorem eventMove_hLaser (s : State) : s.eventMove.hLaser = s.hLaser := by
  unfold State.eventMove; split <;> rfl
@[simp] theorem eventMove_hStatus (s : State) : s.eventMove.hStatus = s.hStatus := by
  unfold State.eventMove; split <;> rfl
@[simp] theorem eventMove_hDxl (s : State) : s.eventMove.hDxl = s.hDxl := by
  unfold State.eventMove; split <;> rfl
@[simp] theorem eventMove_hDxh (s : State) : s.eventMove.hDxh = s.hDxh := by
  unfold State.eventMove; split <;> rfl
@[simp] theorem eventMove_hDyl (s : State) : s.eventMove.hDyl = s.hDyl := by
  unfold State.eventMove; split <;> rfl
@[simp] theorem eventMove_hDyh (s : State) : s.eventMove.hDyh = s.hDyh := by
  unfold State.eventMove; split <;> rfl
@[simp] theorem eventMove_hDump (s : State) : s.eventMove.hDump = s.hDump := by
  unfold State.eventMove; split <;> rfl
@[simp] theorem eventMove_dx (s : State) : s.eventMove.dx = s.dx := by
  unfold State.eventMove; split <;> rfl
@[simp] theorem eventMove_dy (s : State) : s.eventMove.dy = s.dy := by
  unfold State.eventMove; split <;> rfl
@[simp] theorem eventMove_dstate (s : State) : s.eventMove.dstate = s.dstate := by
  unfold State.eventMove; split <;> rfl
@[simp] theorem eventMove_seqpos (s : State) : s.eventMove.seqpos = s.seqpos := by
  unfold State.eventMove; split <;> rfl
@[simp] theorem eventMove_failinfo (s : State) : s.eventMove.failinfo = s.failinfo := by
  unfold State.eventMove; split <;> rfl
@[simp] theorem eventMove_dumped (s : State) : s.eventMove.dumped = s.dumped := by
  unfold State.eventMove; split <;> rfl
@[simp] theorem eventMove_t0 (s : State) : s.eventMove.t0 = s.t0 := by
  unfold State.eventMove; split <;> rfl
@[simp] theorem eventMove_t1 (s : State) : s.eventMove.t1 = s.t1 := by
  unfold State.eventMove; split <;> rfl
@[simp] theorem eventMove_t2 (s : State) : s.eventMove.t2 = s.t2 := by
  unfold State.eventMove; split <;> rfl
@[simp] theorem eventMove_out (s : State) : s.eventMove.out = s.out := by
  unfold State.eventMove; split <;> rfl
@[simp] theorem eventMove_frame (s : State) : s.eventMove.frame = s.frame := by
  unfold State.eventMove; split <;> rfl
@[simp] theorem eventMove_ret (s : State) : s.eventMove.ret = s.ret := by
  unfold State.eventMove; split <;> rfl
@[simp] theorem eventMove_bench (s : State) : s.eventMove.bench = s.bench := by
  unfold State.eventMove; split <;> rfl
@[simp] theorem eventMove_din (s : State) : s.eventMove.din = s.din := by
  unfold State.eventMove; split <;> rfl
@[simp] theorem eventMove_dinCount (s : State) : s.eventMove.dinCount = s.dinCount := by
  unfold State.eventMove; split <;> rfl

/-! ### The calls and the frames: what lies outside the bus -/

@[simp] theorem afterInit_rest (s : State) :
    s.afterInit.fwidx = s.fwidx ∧ s.afterInit.hPid = s.hPid ∧ s.afterInit.hIpid = s.hIpid ∧
    s.afterInit.hCodeLo = s.hCodeLo ∧ s.afterInit.hCodeHi = s.hCodeHi ∧ s.afterInit.hLaser = s.hLaser ∧
    s.afterInit.hStatus = s.hStatus ∧ s.afterInit.hDxl = s.hDxl ∧ s.afterInit.hDxh = s.hDxh ∧
    s.afterInit.hDyl = s.hDyl ∧ s.afterInit.hDyh = s.hDyh ∧ s.afterInit.hDump = s.hDump ∧ s.afterInit.dx = s.dx ∧
    s.afterInit.dy = s.dy ∧ s.afterInit.dstate = s.dstate ∧ s.afterInit.seqpos = s.seqpos ∧
    s.afterInit.pend = s.pend ∧ s.afterInit.failinfo = s.failinfo ∧ s.afterInit.dumped = s.dumped ∧
    s.afterInit.out = s.out ∧ s.afterInit.bench = s.bench ∧ s.afterInit.edges = s.edges ∧
    s.afterInit.edgeCount = s.edgeCount ∧ s.afterInit.cfg = s.cfg ∧ s.afterInit.ret = s.ret :=
  ⟨rfl, rfl, rfl, rfl, rfl, rfl, rfl, rfl, rfl, rfl, rfl, rfl, rfl, rfl, rfl, rfl, rfl, rfl, rfl, rfl, rfl, rfl, rfl, rfl, rfl⟩

@[simp] theorem afterCycle_rest (s : State) :
    s.afterCycle.linesCfg = s.linesCfg ∧ s.afterCycle.sel = s.sel ∧ s.afterCycle.clk = s.clk ∧
    s.afterCycle.fwidx = s.fwidx ∧ s.afterCycle.hPid = s.hPid ∧ s.afterCycle.hIpid = s.hIpid ∧
    s.afterCycle.hCodeLo = s.hCodeLo ∧ s.afterCycle.hCodeHi = s.hCodeHi ∧ s.afterCycle.hLaser = s.hLaser ∧
    s.afterCycle.hStatus = s.hStatus ∧ s.afterCycle.hDxl = s.hDxl ∧ s.afterCycle.hDxh = s.hDxh ∧
    s.afterCycle.hDyl = s.hDyl ∧ s.afterCycle.hDyh = s.hDyh ∧ s.afterCycle.hDump = s.hDump ∧
    s.afterCycle.dx = s.dx ∧ s.afterCycle.dy = s.dy ∧ s.afterCycle.dstate = s.dstate ∧
    s.afterCycle.seqpos = s.seqpos ∧ s.afterCycle.pend = s.pend ∧ s.afterCycle.failinfo = s.failinfo ∧
    s.afterCycle.dumped = s.dumped ∧ s.afterCycle.out = s.out ∧ s.afterCycle.bench = s.bench ∧
    s.afterCycle.edges = s.edges ∧ s.afterCycle.edgeCount = s.edgeCount ∧ s.afterCycle.cfg = s.cfg ∧
    s.afterCycle.ret = s.ret :=
  ⟨rfl, rfl, rfl, rfl, rfl, rfl, rfl, rfl, rfl, rfl, rfl, rfl, rfl, rfl, rfl, rfl, rfl, rfl, rfl, rfl, rfl, rfl, rfl, rfl, rfl, rfl, rfl, rfl⟩

@[simp] theorem afterWait_rest (p : DelayName) (s : State) :
    (s.afterWait p).linesCfg = s.linesCfg ∧ (s.afterWait p).sel = s.sel ∧ (s.afterWait p).clk = s.clk ∧
    (s.afterWait p).fwidx = s.fwidx ∧ (s.afterWait p).hPid = s.hPid ∧ (s.afterWait p).hIpid = s.hIpid ∧
    (s.afterWait p).hCodeLo = s.hCodeLo ∧ (s.afterWait p).hCodeHi = s.hCodeHi ∧
    (s.afterWait p).hLaser = s.hLaser ∧ (s.afterWait p).hStatus = s.hStatus ∧ (s.afterWait p).hDxl = s.hDxl ∧
    (s.afterWait p).hDxh = s.hDxh ∧ (s.afterWait p).hDyl = s.hDyl ∧ (s.afterWait p).hDyh = s.hDyh ∧
    (s.afterWait p).hDump = s.hDump ∧ (s.afterWait p).dx = s.dx ∧ (s.afterWait p).dy = s.dy ∧
    (s.afterWait p).dstate = s.dstate ∧ (s.afterWait p).seqpos = s.seqpos ∧ (s.afterWait p).pend = s.pend ∧
    (s.afterWait p).failinfo = s.failinfo ∧ (s.afterWait p).dumped = s.dumped ∧ (s.afterWait p).out = s.out ∧
    (s.afterWait p).bench = s.bench ∧ (s.afterWait p).edges = s.edges ∧ (s.afterWait p).edgeCount = s.edgeCount ∧
    (s.afterWait p).cfg = s.cfg ∧ (s.afterWait p).ret = s.ret :=
  ⟨rfl, rfl, rfl, rfl, rfl, rfl, rfl, rfl, rfl, rfl, rfl, rfl, rfl, rfl, rfl, rfl, rfl, rfl, rfl, rfl, rfl, rfl, rfl, rfl, rfl, rfl, rfl, rfl⟩

@[simp] theorem afterDelayIn_rest (p : DelayName) (s : State) :
    (s.afterDelayIn p).linesCfg = s.linesCfg ∧ (s.afterDelayIn p).sel = s.sel ∧ (s.afterDelayIn p).clk = s.clk ∧
    (s.afterDelayIn p).fwidx = s.fwidx ∧ (s.afterDelayIn p).hPid = s.hPid ∧ (s.afterDelayIn p).hIpid = s.hIpid ∧
    (s.afterDelayIn p).hCodeLo = s.hCodeLo ∧ (s.afterDelayIn p).hCodeHi = s.hCodeHi ∧
    (s.afterDelayIn p).hLaser = s.hLaser ∧ (s.afterDelayIn p).hStatus = s.hStatus ∧
    (s.afterDelayIn p).hDxl = s.hDxl ∧ (s.afterDelayIn p).hDxh = s.hDxh ∧ (s.afterDelayIn p).hDyl = s.hDyl ∧
    (s.afterDelayIn p).hDyh = s.hDyh ∧ (s.afterDelayIn p).hDump = s.hDump ∧ (s.afterDelayIn p).dx = s.dx ∧
    (s.afterDelayIn p).dy = s.dy ∧ (s.afterDelayIn p).dstate = s.dstate ∧ (s.afterDelayIn p).seqpos = s.seqpos ∧
    (s.afterDelayIn p).pend = s.pend ∧ (s.afterDelayIn p).failinfo = s.failinfo ∧
    (s.afterDelayIn p).dumped = s.dumped ∧ (s.afterDelayIn p).out = s.out ∧ (s.afterDelayIn p).bench = s.bench ∧
    (s.afterDelayIn p).edges = s.edges ∧ (s.afterDelayIn p).edgeCount = s.edgeCount ∧
    (s.afterDelayIn p).cfg = s.cfg ∧ (s.afterDelayIn p).ret = s.ret :=
  ⟨rfl, rfl, rfl, rfl, rfl, rfl, rfl, rfl, rfl, rfl, rfl, rfl, rfl, rfl, rfl, rfl, rfl, rfl, rfl, rfl, rfl, rfl, rfl, rfl, rfl, rfl, rfl, rfl⟩

@[simp] theorem afterDelayOut_rest (p : DelayName) (s : State) :
    (s.afterDelayOut p).linesCfg = s.linesCfg ∧ (s.afterDelayOut p).sel = s.sel ∧
    (s.afterDelayOut p).clk = s.clk ∧ (s.afterDelayOut p).fwidx = s.fwidx ∧ (s.afterDelayOut p).hPid = s.hPid ∧
    (s.afterDelayOut p).hIpid = s.hIpid ∧ (s.afterDelayOut p).hCodeLo = s.hCodeLo ∧
    (s.afterDelayOut p).hCodeHi = s.hCodeHi ∧ (s.afterDelayOut p).hLaser = s.hLaser ∧
    (s.afterDelayOut p).hStatus = s.hStatus ∧ (s.afterDelayOut p).hDxl = s.hDxl ∧
    (s.afterDelayOut p).hDxh = s.hDxh ∧ (s.afterDelayOut p).hDyl = s.hDyl ∧ (s.afterDelayOut p).hDyh = s.hDyh ∧
    (s.afterDelayOut p).hDump = s.hDump ∧ (s.afterDelayOut p).dx = s.dx ∧ (s.afterDelayOut p).dy = s.dy ∧
    (s.afterDelayOut p).dstate = s.dstate ∧ (s.afterDelayOut p).seqpos = s.seqpos ∧
    (s.afterDelayOut p).pend = s.pend ∧ (s.afterDelayOut p).failinfo = s.failinfo ∧
    (s.afterDelayOut p).dumped = s.dumped ∧ (s.afterDelayOut p).out = s.out ∧
    (s.afterDelayOut p).bench = s.bench ∧ (s.afterDelayOut p).edges = s.edges ∧
    (s.afterDelayOut p).edgeCount = s.edgeCount ∧ (s.afterDelayOut p).cfg = s.cfg ∧
    (s.afterDelayOut p).ret = s.ret :=
  ⟨rfl, rfl, rfl, rfl, rfl, rfl, rfl, rfl, rfl, rfl, rfl, rfl, rfl, rfl, rfl, rfl, rfl, rfl, rfl, rfl, rfl, rfl, rfl, rfl, rfl, rfl, rfl, rfl⟩

@[simp] theorem afterAssert_rest (s : State) :
    s.afterAssert.fwidx = s.fwidx ∧ s.afterAssert.hPid = s.hPid ∧ s.afterAssert.hIpid = s.hIpid ∧
    s.afterAssert.hCodeLo = s.hCodeLo ∧ s.afterAssert.hCodeHi = s.hCodeHi ∧ s.afterAssert.hLaser = s.hLaser ∧
    s.afterAssert.hStatus = s.hStatus ∧ s.afterAssert.hDxl = s.hDxl ∧ s.afterAssert.hDxh = s.hDxh ∧
    s.afterAssert.hDyl = s.hDyl ∧ s.afterAssert.hDyh = s.hDyh ∧ s.afterAssert.hDump = s.hDump ∧
    s.afterAssert.dx = s.dx ∧ s.afterAssert.dy = s.dy ∧ s.afterAssert.dstate = s.dstate ∧
    s.afterAssert.seqpos = s.seqpos ∧ s.afterAssert.pend = s.pend ∧ s.afterAssert.failinfo = s.failinfo ∧
    s.afterAssert.dumped = s.dumped ∧ s.afterAssert.out = s.out ∧ s.afterAssert.bench = s.bench ∧
    s.afterAssert.edges = s.edges ∧ s.afterAssert.edgeCount = s.edgeCount ∧ s.afterAssert.cfg = s.cfg ∧
    s.afterAssert.ret = s.ret :=
  ⟨rfl, rfl, rfl, rfl, rfl, rfl, rfl, rfl, rfl, rfl, rfl, rfl, rfl, rfl, rfl, rfl, rfl, rfl, rfl, rfl, rfl, rfl, rfl, rfl, rfl⟩

@[simp] theorem afterDeassert_rest (s : State) :
    s.afterDeassert.fwidx = s.fwidx ∧ s.afterDeassert.hPid = s.hPid ∧ s.afterDeassert.hIpid = s.hIpid ∧
    s.afterDeassert.hCodeLo = s.hCodeLo ∧ s.afterDeassert.hCodeHi = s.hCodeHi ∧
    s.afterDeassert.hLaser = s.hLaser ∧ s.afterDeassert.hStatus = s.hStatus ∧ s.afterDeassert.hDxl = s.hDxl ∧
    s.afterDeassert.hDxh = s.hDxh ∧ s.afterDeassert.hDyl = s.hDyl ∧ s.afterDeassert.hDyh = s.hDyh ∧
    s.afterDeassert.hDump = s.hDump ∧ s.afterDeassert.dx = s.dx ∧ s.afterDeassert.dy = s.dy ∧
    s.afterDeassert.dstate = s.dstate ∧ s.afterDeassert.seqpos = s.seqpos ∧ s.afterDeassert.pend = s.pend ∧
    s.afterDeassert.failinfo = s.failinfo ∧ s.afterDeassert.dumped = s.dumped ∧ s.afterDeassert.out = s.out ∧
    s.afterDeassert.bench = s.bench ∧ s.afterDeassert.edges = s.edges ∧ s.afterDeassert.edgeCount = s.edgeCount ∧
    s.afterDeassert.cfg = s.cfg ∧ s.afterDeassert.ret = s.ret :=
  ⟨rfl, rfl, rfl, rfl, rfl, rfl, rfl, rfl, rfl, rfl, rfl, rfl, rfl, rfl, rfl, rfl, rfl, rfl, rfl, rfl, rfl, rfl, rfl, rfl, rfl⟩

@[simp] theorem afterXfer_rest (o : Byte) (s : State) :
    (s.afterXfer o).linesCfg = s.linesCfg ∧ (s.afterXfer o).sel = s.sel ∧ (s.afterXfer o).clk = s.clk ∧
    (s.afterXfer o).fwidx = s.fwidx ∧ (s.afterXfer o).hPid = s.hPid ∧ (s.afterXfer o).hIpid = s.hIpid ∧
    (s.afterXfer o).hCodeLo = s.hCodeLo ∧ (s.afterXfer o).hCodeHi = s.hCodeHi ∧
    (s.afterXfer o).hLaser = s.hLaser ∧ (s.afterXfer o).hStatus = s.hStatus ∧ (s.afterXfer o).hDxl = s.hDxl ∧
    (s.afterXfer o).hDxh = s.hDxh ∧ (s.afterXfer o).hDyl = s.hDyl ∧ (s.afterXfer o).hDyh = s.hDyh ∧
    (s.afterXfer o).hDump = s.hDump ∧ (s.afterXfer o).dx = s.dx ∧ (s.afterXfer o).dy = s.dy ∧
    (s.afterXfer o).dstate = s.dstate ∧ (s.afterXfer o).seqpos = s.seqpos ∧ (s.afterXfer o).pend = s.pend ∧
    (s.afterXfer o).failinfo = s.failinfo ∧ (s.afterXfer o).dumped = s.dumped ∧ (s.afterXfer o).out = s.out ∧
    (s.afterXfer o).bench = s.bench ∧ (s.afterXfer o).edges = s.edges ∧ (s.afterXfer o).edgeCount = s.edgeCount ∧
    (s.afterXfer o).cfg = s.cfg ∧ (s.afterXfer o).ret = s.ret :=
  ⟨rfl, rfl, rfl, rfl, rfl, rfl, rfl, rfl, rfl, rfl, rfl, rfl, rfl, rfl, rfl, rfl, rfl, rfl, rfl, rfl, rfl, rfl, rfl, rfl, rfl, rfl, rfl, rfl⟩

@[simp] theorem afterWrite_rest (a : Addr) (v : Byte) (s : State) :
    (s.afterWrite a v).linesCfg = s.linesCfg ∧ (s.afterWrite a v).sel = s.sel ∧ (s.afterWrite a v).clk = s.clk ∧
    (s.afterWrite a v).fwidx = s.fwidx ∧ (s.afterWrite a v).hPid = s.hPid ∧ (s.afterWrite a v).hIpid = s.hIpid ∧
    (s.afterWrite a v).hCodeLo = s.hCodeLo ∧ (s.afterWrite a v).hCodeHi = s.hCodeHi ∧
    (s.afterWrite a v).hLaser = s.hLaser ∧ (s.afterWrite a v).hStatus = s.hStatus ∧
    (s.afterWrite a v).hDxl = s.hDxl ∧ (s.afterWrite a v).hDxh = s.hDxh ∧ (s.afterWrite a v).hDyl = s.hDyl ∧
    (s.afterWrite a v).hDyh = s.hDyh ∧ (s.afterWrite a v).hDump = s.hDump ∧ (s.afterWrite a v).dx = s.dx ∧
    (s.afterWrite a v).dy = s.dy ∧ (s.afterWrite a v).dstate = s.dstate ∧ (s.afterWrite a v).seqpos = s.seqpos ∧
    (s.afterWrite a v).pend = s.pend ∧ (s.afterWrite a v).failinfo = s.failinfo ∧
    (s.afterWrite a v).dumped = s.dumped ∧ (s.afterWrite a v).out = s.out ∧ (s.afterWrite a v).bench = s.bench ∧
    (s.afterWrite a v).edges = s.edges ∧ (s.afterWrite a v).edgeCount = s.edgeCount ∧
    (s.afterWrite a v).cfg = s.cfg ∧ (s.afterWrite a v).ret = s.ret :=
  ⟨rfl, rfl, rfl, rfl, rfl, rfl, rfl, rfl, rfl, rfl, rfl, rfl, rfl, rfl, rfl, rfl, rfl, rfl, rfl, rfl, rfl, rfl, rfl, rfl, rfl, rfl, rfl, rfl⟩

@[simp] theorem afterReadFrame_rest (a : Addr) (d : Byte) (s : State) :
    (s.afterReadFrame a d).linesCfg = s.linesCfg ∧ (s.afterReadFrame a d).sel = s.sel ∧
    (s.afterReadFrame a d).clk = s.clk ∧ (s.afterReadFrame a d).fwidx = s.fwidx ∧
    (s.afterReadFrame a d).hPid = s.hPid ∧ (s.afterReadFrame a d).hIpid = s.hIpid ∧
    (s.afterReadFrame a d).hCodeLo = s.hCodeLo ∧ (s.afterReadFrame a d).hCodeHi = s.hCodeHi ∧
    (s.afterReadFrame a d).hLaser = s.hLaser ∧ (s.afterReadFrame a d).hStatus = s.hStatus ∧
    (s.afterReadFrame a d).hDxl = s.hDxl ∧ (s.afterReadFrame a d).hDxh = s.hDxh ∧
    (s.afterReadFrame a d).hDyl = s.hDyl ∧ (s.afterReadFrame a d).hDyh = s.hDyh ∧
    (s.afterReadFrame a d).hDump = s.hDump ∧ (s.afterReadFrame a d).dx = s.dx ∧
    (s.afterReadFrame a d).dy = s.dy ∧ (s.afterReadFrame a d).dstate = s.dstate ∧
    (s.afterReadFrame a d).seqpos = s.seqpos ∧ (s.afterReadFrame a d).pend = s.pend ∧
    (s.afterReadFrame a d).failinfo = s.failinfo ∧ (s.afterReadFrame a d).dumped = s.dumped ∧
    (s.afterReadFrame a d).out = s.out ∧ (s.afterReadFrame a d).bench = s.bench ∧
    (s.afterReadFrame a d).edges = s.edges ∧ (s.afterReadFrame a d).edgeCount = s.edgeCount ∧
    (s.afterReadFrame a d).cfg = s.cfg ∧ (s.afterReadFrame a d).ret = s.ret :=
  ⟨rfl, rfl, rfl, rfl, rfl, rfl, rfl, rfl, rfl, rfl, rfl, rfl, rfl, rfl, rfl, rfl, rfl, rfl, rfl, rfl, rfl, rfl, rfl, rfl, rfl, rfl, rfl, rfl⟩

@[simp] theorem afterRead_rest (a : Addr) (s : State) :
    (s.afterRead a).linesCfg = s.linesCfg ∧ (s.afterRead a).sel = s.sel ∧ (s.afterRead a).clk = s.clk ∧
    (s.afterRead a).fwidx = s.fwidx ∧ (s.afterRead a).hPid = s.hPid ∧ (s.afterRead a).hIpid = s.hIpid ∧
    (s.afterRead a).hCodeLo = s.hCodeLo ∧ (s.afterRead a).hCodeHi = s.hCodeHi ∧
    (s.afterRead a).hLaser = s.hLaser ∧ (s.afterRead a).hStatus = s.hStatus ∧ (s.afterRead a).hDxl = s.hDxl ∧
    (s.afterRead a).hDxh = s.hDxh ∧ (s.afterRead a).hDyl = s.hDyl ∧ (s.afterRead a).hDyh = s.hDyh ∧
    (s.afterRead a).hDump = s.hDump ∧ (s.afterRead a).dx = s.dx ∧ (s.afterRead a).dy = s.dy ∧
    (s.afterRead a).dstate = s.dstate ∧ (s.afterRead a).seqpos = s.seqpos ∧ (s.afterRead a).pend = s.pend ∧
    (s.afterRead a).failinfo = s.failinfo ∧ (s.afterRead a).dumped = s.dumped ∧ (s.afterRead a).out = s.out ∧
    (s.afterRead a).bench = s.bench ∧ (s.afterRead a).edges = s.edges ∧ (s.afterRead a).edgeCount = s.edgeCount ∧
    (s.afterRead a).cfg = s.cfg ∧ (s.afterRead a).ret = s.ret :=
  ⟨rfl, rfl, rfl, rfl, rfl, rfl, rfl, rfl, rfl, rfl, rfl, rfl, rfl, rfl, rfl, rfl, rfl, rfl, rfl, rfl, rfl, rfl, rfl, rfl, rfl, rfl, rfl, rfl⟩

@[simp] theorem afterBurst_rest (bytes : List Byte) (s : State) :
    (s.afterBurst bytes).linesCfg = s.linesCfg ∧ (s.afterBurst bytes).sel = s.sel ∧
    (s.afterBurst bytes).clk = s.clk ∧ (s.afterBurst bytes).hPid = s.hPid ∧
    (s.afterBurst bytes).hIpid = s.hIpid ∧ (s.afterBurst bytes).hCodeLo = s.hCodeLo ∧
    (s.afterBurst bytes).hCodeHi = s.hCodeHi ∧ (s.afterBurst bytes).hLaser = s.hLaser ∧
    (s.afterBurst bytes).hStatus = s.hStatus ∧ (s.afterBurst bytes).hDxl = s.hDxl ∧
    (s.afterBurst bytes).hDxh = s.hDxh ∧ (s.afterBurst bytes).hDyl = s.hDyl ∧
    (s.afterBurst bytes).hDyh = s.hDyh ∧ (s.afterBurst bytes).hDump = s.hDump ∧ (s.afterBurst bytes).dx = s.dx ∧
    (s.afterBurst bytes).dy = s.dy ∧ (s.afterBurst bytes).dstate = s.dstate ∧
    (s.afterBurst bytes).seqpos = s.seqpos ∧ (s.afterBurst bytes).pend = s.pend ∧
    (s.afterBurst bytes).failinfo = s.failinfo ∧ (s.afterBurst bytes).dumped = s.dumped ∧
    (s.afterBurst bytes).out = s.out ∧ (s.afterBurst bytes).bench = s.bench ∧
    (s.afterBurst bytes).edges = s.edges ∧ (s.afterBurst bytes).edgeCount = s.edgeCount ∧
    (s.afterBurst bytes).cfg = s.cfg ∧ (s.afterBurst bytes).ret = s.ret :=
  ⟨rfl, rfl, rfl, rfl, rfl, rfl, rfl, rfl, rfl, rfl, rfl, rfl, rfl, rfl, rfl, rfl, rfl, rfl, rfl, rfl, rfl, rfl, rfl, rfl, rfl, rfl, rfl⟩

end Sys2Proof.Machine
end

