-- ==== Sys2Proof/Tests/Slice0.lean ====
section
/-! SUPPORT. Tests with results from 95_test_vectors.md (its S and V vectors) or worked by hand from the encoding tables, and
witnesses that the statements' hypotheses can be met, at the boundaries of their clauses. -/

namespace Sys2Proof.Tests

set_option Elab.async false

open Sys2Proof.Machine

/-! ### Small states -/

/-- The bits of a byte as DIN carries it, most significant first. -/
def bits (v : Byte) : List Bool := [7, 6, 5, 4, 3, 2, 1, 0].map v.getLsbD

/-- The samples of a list of in bytes. -/
def feed (bytes : List Byte) : List Bool := bytes.flatMap bits

/-- Idle lines under a parameter assignment, with in bytes to come. -/
def idleOf (p : Params) (bytes : List Byte) : State :=
  { State.resetWith p with linesCfg := true, sel := some true, clk := some false, dout := some false, din := feed bytes }

/-- Idle lines under the defaults. -/
def idle (bytes : List Byte) : State := idleOf Params.defaults bytes

/-- The same in a Device State. -/
def idleIn (d : DState) (bytes : List Byte) : State := { idle bytes with dstate := d }

/-- Idle lines after a list of calls. -/
def afterAccess (cs : List Call) : State := { idle [] with t1 := cs }

/-- Idle lines after one read of the status register. -/
def statusWas (v : Byte) : State := { idle [] with t2 := [.read 0x02#7 v] }

/-- Selected lines under the defaults. -/
def selected (bytes : List Byte) : State := { idle bytes with sel := some false }

/-- The steady-state loop of Ready. -/
def looping (bytes : List Byte) : State := { idleIn .ready bytes with seqpos := 1 }

/-- A parameter assignment with an image. -/
def withFw (fw : List Byte) : Params := { Params.defaults with fw := fw }

/-- The answer is a next state with a property. -/
def nextIs (o : Host.Outcome State Fault Refusal) (f : State → Bool) : Bool :=
  match o with
  | .next t => f t
  | _ => false

/-- The answer is a given refusal. -/
def refusedWith (o : Host.Outcome State Fault Refusal) (r : Refusal) : Bool :=
  match o with
  | .refused x => x == r
  | _ => false

/-! ### Well-formedness: an ill-formed term for each check -/

/-- R9 b: a mask with two bits. -/
theorem test_wf_mask_two_bits : Params.wf { Params.defaults with maskMot := 0x81#8 } = false := by decide +kernel

/-- R9 b: a mask with no bit. -/
theorem test_wf_mask_no_bit : Params.wf { Params.defaults with maskFault := 0x00#8 } = false := by decide +kernel

/-- R9 b: two equal masks. -/
theorem test_wf_masks_equal : Params.wf { Params.defaults with maskLpValid := 0x80#8 } = false := by decide +kernel

/-- R9 c: two of the five decoder addresses equal. -/
theorem test_wf_motion_addrs : Params.wf { Params.defaults with addrDeltaYH := 0x02#7 } = false := by decide +kernel

/-- R9 d. -/
theorem test_wf_code_addrs : Params.wf { Params.defaults with addrCodeHi := 0x25#7 } = false := by decide +kernel

/-- R9 e. -/
theorem test_wf_id_addrs : Params.wf { Params.defaults with addrInvProductId := 0x00#7 } = false := by decide +kernel

/-- R8's defaults pass, and two dump-only addresses may coincide (R9). -/
theorem test_wf_defaults : Params.defaults.wf = true ∧
    Params.wf { Params.defaults with addrConfigA := 0x10#7 } = true := by decide +kernel

/-- R93: a burst has FW_LEN data bytes. -/
theorem test_wf_burst_length : (Instr.frameB [0x11#8]).wellFormed (withFw [0x11#8, 0x22#8]) = false := by decide +kernel

/-- R97: with a one-byte image a W frame to the burst address would be read as the burst. -/
theorem test_wf_write_to_burst : (Instr.frameW 0x62#7 0x00#8).wellFormed (withFw [0x11#8]) = false ∧
    (Instr.frameW 0x62#7 0x00#8).wellFormed Params.defaults = true := by decide +kernel

/-- A generic row with a named row's fields is not the canonical spelling; nor is FRAME_Z. -/
theorem test_wf_canonical : (Instr.frameW 0x3A#7 0x5A#8).wellFormed Params.defaults = false ∧
    (Instr.frameR 0x02#7 0x00#8).wellFormed Params.defaults = false ∧
    (Instr.frameB []).wellFormed Params.defaults = false ∧ Instr.frameZ.wellFormed Params.defaults = false := by
  decide +kernel

/-! ### Decoding: words written out from R91 to R94, R98 and R100 -/

/-- What the decoder answers, or nothing. -/
def reads (p : Params) (w : CodeWord) : Option Instr := (decode p w).toOption

/-- W frames: marker 1, seven address bits, eight data bits (R91, R98). -/
theorem test_decode_writes :
    reads Params.defaults (.frame [0b10111010#8, 0b01011010#8]) = some .wrPowerUpReset ∧
    reads Params.defaults (.frame [0b10010011#8, 0b00011000#8]) = some .wrSromLoad ∧
    reads Params.defaults (.frame [0b10010011#8, 0b00010101#8]) = some .wrSromVerify ∧
    reads Params.defaults (.frame [0b10100000#8, 0b10110000#8]) = some (.wrLaserCtrl 0b1011#4) ∧
    reads Params.defaults (.frame [0b10100000#8, 0b10110001#8]) = some (.frameW 0b0100000#7 0b10110001#8) ∧
    reads Params.defaults (.frame [0b11111111#8, 0b11111111#8]) = some (.frameW 0b1111111#7 0b11111111#8) := by
  decide +kernel

/-- R frames: marker 0, seven address bits, the dummy byte (R92, R98). -/
theorem test_decode_reads :
    reads Params.defaults (.frame [0b00000010#8, 0#8]) = some .rdMotion ∧
    reads Params.defaults (.frame [0b00000011#8, 0#8]) = some .rdDeltaXL ∧
    reads Params.defaults (.frame [0b00000100#8, 0#8]) = some .rdDeltaXH ∧
    reads Params.defaults (.frame [0b00000101#8, 0#8]) = some .rdDeltaYL ∧
    reads Params.defaults (.frame [0b00000110#8, 0#8]) = some .rdDeltaYH ∧
    reads Params.defaults (.frame [0b00000000#8, 0#8]) = some .rdProductId ∧
    reads Params.defaults (.frame [0b00111111#8, 0#8]) = some .rdInvProductId ∧
    reads Params.defaults (.frame [0b00100101#8, 0#8]) = some .rdCodeLo ∧
    reads Params.defaults (.frame [0b00100110#8, 0#8]) = some .rdCodeHi := by
  decide +kernel

/-- The other R frames, and an R frame with another data byte (R99). -/
theorem test_decode_reads_dump :
    reads Params.defaults (.frame [0b00100000#8, 0#8]) = some .rdLaserCtrl ∧
    reads Params.defaults (.frame [0b00000001#8, 0#8]) = some .rdRevisionId ∧
    reads Params.defaults (.frame [0b00100100#8, 0#8]) = some .rdObservation ∧
    reads Params.defaults (.frame [0b00101010#8, 0#8]) = some .rdSromId ∧
    reads Params.defaults (.frame [0b00001111#8, 0#8]) = some .rdConfigA ∧
    reads Params.defaults (.frame [0b00010000#8, 0#8]) = some .rdConfigB ∧
    reads Params.defaults (.frame [0b00111001#8, 0#8]) = some .rdConfigC ∧
    reads Params.defaults (.frame [0b00101111#8, 0#8]) = some .rdConfigD ∧
    reads Params.defaults (.frame [0b00000010#8, 0b1#8]) = some (.frameR 0b0000010#7 0b1#8) := by
  decide +kernel

/-- B and Z frames, and a byte string of no format (R93, R94, R97). -/
theorem test_decode_bursts :
    reads (withFw [0x11#8, 0x22#8]) (.frame [0b11100010#8, 0x11#8, 0x22#8]) = some .burstSrom ∧
    reads (withFw [0x11#8, 0x22#8]) (.frame [0b11100010#8, 0x22#8, 0x11#8]) = some (.frameB [0x22#8, 0x11#8]) ∧
    reads (withFw [0x11#8, 0x22#8]) (.frame [0b11100010#8, 0x11#8]) = some (.frameW 0b1100010#7 0x11#8) ∧
    reads (withFw [0x11#8, 0x22#8]) (.frame [0b10000000#8, 0x11#8, 0x22#8]) = none ∧
    reads Params.defaults (.frame []) = some .selCycle := by
  decide +kernel

/-- Operation ids 0 to 8 (R100). -/
theorem test_decode_bus_ops :
    reads Params.defaults (.op 0b00000#8 0#8 0#8) = some .init ∧
    reads Params.defaults (.op 0b00001#8 0#8 0#8) = some .selAssert ∧
    reads Params.defaults (.op 0b00010#8 0#8 0#8) = some .selDeassert ∧
    reads Params.defaults (.op 0b00011#8 0xBA#8 0#8) = some (.xfer 0xBA#8) ∧
    reads Params.defaults (.op 0b00100#8 12#8 0#8) = some (.delay .tPowerUp) ∧
    reads Params.defaults (.op 0b00101#8 0x3A#8 0x5A#8) = some (.wrreg 0x3A#7 0x5A#8) ∧
    reads Params.defaults (.op 0b00110#8 0x3F#8 0#8) = some (.rdreg 0x3F#7) ∧
    reads Params.defaults (.op 0b00111#8 0#8 0#8) = some .upload ∧
    reads Params.defaults (.op 0b01000#8 0#8 0#8) = some .verify := by
  decide +kernel

/-- Operation ids 9 to 18 (R100). -/
theorem test_decode_state_ops :
    reads Params.defaults (.op 0b01001#8 0#8 0#8) = some .stReset ∧
    reads Params.defaults (.op 0b01010#8 0#8 0#8) = some .stPowerup ∧
    reads Params.defaults (.op 0b01011#8 0#8 0#8) = some .stDrain ∧
    reads Params.defaults (.op 0b01100#8 0#8 0#8) = some .stFwupload ∧
    reads Params.defaults (.op 0b01101#8 0#8 0#8) = some .stPidcheck ∧
    reads Params.defaults (.op 0b01110#8 0#8 0#8) = some .stIpidcheck ∧
    reads Params.defaults (.op 0b01111#8 0#8 0#8) = some .stIntegrity ∧
    reads Params.defaults (.op 0b10000#8 0#8 0#8) = some .stLasercfg ∧
    reads Params.defaults (.op 0b10001#8 0#8 0#8) = some .stReady ∧
    reads Params.defaults (.op 0b10010#8 0#8 0#8) = some .stFailed := by
  decide +kernel

/-- Operation ids 19 to 23, and the first unassigned id (R100). -/
theorem test_decode_decoder_ops :
    reads Params.defaults (.op 0b10011#8 0#8 0#8) = some .dump ∧
    reads Params.defaults (.op 0b10100#8 0#8 0#8) = some .testclr ∧
    reads Params.defaults (.op 0b10101#8 0#8 0#8) = some .poll ∧
    reads Params.defaults (.op 0b10110#8 0xA0#8 0#8) = some (.statusDecode 0xA0#8) ∧
    reads Params.defaults (.op 0b10111#8 0x34#8 0x12#8) = some (.delta16 0x34#8 0x12#8) ∧
    reads Params.defaults (.op 0b11000#8 0#8 0#8) = none := by
  decide +kernel

/-- V13: marker assembly with either WRITE_MARKER. -/
theorem test_markers :
    markW Params.defaults 0x00#7 = 0x80#8 ∧ markW Params.defaults 0x7F#7 = 0xFF#8 ∧
    markR Params.defaults 0x7F#7 = 0x7F#8 ∧ markW Params.defaults 0x13#7 = 0x93#8 ∧
    markW { Params.defaults with writeMarker := false } 0x3A#7 = 0x3A#8 ∧
    markR { Params.defaults with writeMarker := false } 0x3A#7 = 0xBA#8 ∧
    markR { Params.defaults with writeMarker := false } 0x00#7 = 0x80#8 := by
  decide +kernel

/-! ### Bus Primitive -/

/-- V3: INIT from the reset state. -/
theorem test_init : nextIs (exec .init State.reset) (fun t =>
    t.t0 == [.cfg, .sel true, .clk false, .dout false] && t.t1 == [.init] && t.t2 == [.init] && t.linesCfg &&
      t.sel == some true && t.clk == some false && t.dout == some false) = true := by decide +kernel

/-- V1: XFER(0xBA) with samples 0,0,1,1,0,0,1,1. -/
theorem test_xfer_v1 : nextIs (exec (.xfer 0xBA#8) (selected [0x33#8])) (fun t =>
    t.ret == .byte 0x33#8 && t.sr == 0x33#8 && t.dout == some false && t.clk == some false && t.bitcnt == 0#4 &&
      t.t1 == [.xfer 0xBA#8 0x33#8] && t.t0.length == 48 &&
      t.t0.take 12 == [.dout true, .dly .tClkLow, .clk true, .din false, .dly .tClkHigh, .clk false,
        .dout false, .dly .tClkLow, .clk true, .din false, .dly .tClkHigh, .clk false]) = true := by decide +kernel

/-- V2, last row: XFER(0x01) with samples 1,0,0,0,0,0,0,0 shows both bit orders at once. -/
theorem test_xfer_v2 : nextIs (exec (.xfer 0x01#8) { selected [] with
      din := [true, false, false, false, false, false, false, false] }) (fun t =>
    t.ret == .byte 0x80#8 && t.dout == some true && t.t0.take 1 == [.dout false]) = true := by decide +kernel

/-- V4: the select edges. -/
theorem test_select_edges :
    nextIs (exec .selAssert (idle [])) (fun t => t.sel == some false &&
      t.t0 == [.dly .tSelPreA, .sel false, .dly .tSelPostA]) = true ∧
    nextIs (exec .selDeassert (selected [])) (fun t => t.sel == some true && t.t2 == [.selCycle] &&
      t.t0 == [.dly .tSelPreD, .sel true, .dly .tSelPostD]) = true := by decide +kernel

/-- V5: the refused calls. -/
theorem test_refused_calls :
    refusedWith (exec .selAssert (selected [])) .selectNotHigh = true ∧
    refusedWith (exec .selDeassert (idle [])) .selectNotLow = true ∧
    refusedWith (exec (.xfer 0#8) (idle [])) .selectNotLow = true ∧
    refusedWith (exec (.xfer 0#8) State.reset) .linesNotConfigured = true := by decide +kernel

/-- V6: DELAY logs its parameter, before INIT too. -/
theorem test_delay : nextIs (exec (.delay .tPowerUp) State.reset) (fun t =>
    t.t0 == [.dly .tPowerUp] && t.t1 == [.delay .tPowerUp] && t.t2 == [.wait .tPowerUp]) = true := by decide +kernel

/-! ### Register access and frames -/

/-- V10: WRREG 0x3A, 0x5A with in bytes AA, 55. -/
theorem test_wrreg : nextIs (exec (.wrreg 0x3A#7 0x5A#8) (idle [0xAA#8, 0x55#8])) (fun t =>
    t.t1 == [.assert, .xfer 0xBA#8 0xAA#8, .delay .tWrPhase, .xfer 0x5A#8 0x55#8, .deassert, .delay .tInterTxn] &&
      t.t2 == [.write 0x3A#7 0x5A#8] && t.t0.length == 104 && t.sr == 0x55#8) = true := by decide +kernel

/-- V12: RDREG 0x3F with in bytes FF, 80: the first is ignored, no sign extension. -/
theorem test_rdreg : nextIs (exec (.rdreg 0x3F#7) (idle [0xFF#8, 0x80#8])) (fun t =>
    t.ret == .byte 0x80#8 && t.t2 == [.read 0x3F#7 0x80#8] && t.t0.length == 104 &&
      t.t1 == [.assert, .xfer 0x3F#8 0xFF#8, .delay .tRdAddrData, .xfer 0x00#8 0x80#8, .deassert, .delay .tInterTxn])
    = true := by decide +kernel

/-- V11 by the named row: RD_PRODUCT_ID reads 0x33. -/
theorem test_rd_product_id : nextIs (exec .rdProductId (idle [0x00#8, 0x33#8])) (fun t =>
    t.ret == .byte 0x33#8 && t.t2 == [.read 0x00#7 0x33#8]) = true := by decide +kernel

/-- R98: the order of the two bytes of WR_LASER_CTRL, high nibble 0xB. -/
theorem test_wr_laser_ctrl : nextIs (exec (.wrLaserCtrl 0xB#4) (idle [0#8, 0#8])) (fun t =>
    t.t2 == [.write 0x20#7 0xB0#8]) = true := by decide +kernel

/-- V4 by the named row: SEL_CYCLE has no clock event. -/
theorem test_sel_cycle : nextIs (exec .selCycle (idle [])) (fun t =>
    t.t2 == [.selCycle] && t.t1 == [.assert, .deassert] && t.t0.length == 6) = true := by decide +kernel

/-! ### Firmware loader -/

/-- V20: UPLOAD with the image 11 22. -/
theorem test_upload : nextIs (exec .upload (idleOf (withFw [0x11#8, 0x22#8]) [0#8, 0#8, 0#8, 0#8, 0#8])) (fun t =>
    t.t1 == [.assert, .xfer 0x93#8 0#8, .delay .tWrPhase, .xfer 0x18#8 0#8, .deassert, .delay .tInterTxn,
      .delay .tLoadSettle, .assert, .xfer 0xE2#8 0#8, .delay .tBurstByte, .xfer 0x11#8 0#8, .delay .tBurstByte,
      .xfer 0x22#8 0#8, .delay .tBurstByte, .deassert] &&
    t.t2 == [.write 0x13#7 0x18#8, .wait .tLoadSettle, .burst 0x62#7 [0x11#8, 0x22#8]] && t.t0.length == 258 &&
      t.fwidx == 2 && t.sel == some true) = true := by decide +kernel

/-- V21: UPLOAD with the empty image. -/
theorem test_upload_empty : nextIs (exec .upload (idle [0#8, 0#8, 0#8])) (fun t =>
    t.t1.length == 11 && t.t0.length == 160 && t.fwidx == 0 &&
      t.t2 == [.write 0x13#7 0x18#8, .wait .tLoadSettle, .burst 0x62#7 []]) = true := by decide +kernel

/-- V22, first row: lo EF, hi BE verifies. -/
theorem test_verify : nextIs (exec .verify (idle [0#8, 0#8, 0#8, 0xEF#8, 0#8, 0xBE#8])) (fun t =>
    t.ret == .verified true && t.t1.length == 19 &&
      t.t2 == [.write 0x13#7 0x15#8, .wait .tVerifySettle, .read 0x25#7 0xEF#8, .read 0x26#7 0xBE#8]) = true := by
  decide +kernel

/-- V22, fourth row: the bytes swapped do not verify. -/
theorem test_verify_swapped : nextIs (exec .verify (idle [0#8, 0#8, 0#8, 0xBE#8, 0#8, 0xEF#8])) (fun t =>
    t.ret == .verified false && t.hCodeLo == 0xBE#8 && t.hCodeHi == 0xEF#8) = true := by decide +kernel

/-! ### Initialization state machine -/

/-- R161: the first step from reset, whatever the samples are. -/
theorem test_st_reset : nextIs (step State.reset) (fun t =>
    t.dstate == .powerUp && t.t2 == [.init, .selCycle, .write 0x3A#7 0x5A#8] && t.t0.length == 114) = true := by
  decide +kernel

/-- R163: ST_DRAIN stores nothing. -/
theorem test_st_drain : nextIs (exec .stDrain (idleIn .drain
      [0#8, 0x20#8, 0#8, 0xDE#8, 0#8, 0xAD#8, 0#8, 0xBE#8, 0#8, 0xEF#8])) (fun t =>
    t.dstate == .firmwareUpload && t.hStatus == 0#8 && t.hDxl == 0#8 &&
      t.t2 == [.read 0x02#7 0x20#8, .read 0x03#7 0xDE#8, .read 0x04#7 0xAD#8, .read 0x05#7 0xBE#8, .read 0x06#7 0xEF#8])
    = true := by decide +kernel

/-- V30: the product id 0x33 passes, 0x32 fails with its byte. -/
theorem test_st_pidcheck :
    nextIs (exec .stPidcheck (idleIn .productIdCheck [0#8, 0x33#8])) (fun t =>
      t.dstate == .inverseIdCheck && t.hPid == 0x33#8 && t.out == []) = true ∧
    nextIs (exec .stPidcheck (idleIn .productIdCheck [0#8, 0x32#8])) (fun t =>
      t.dstate == .failed .productIdMismatch && t.failinfo == some [0x32#8] &&
        t.out == [.initFailed .productIdMismatch [0x32#8]]) = true := by decide +kernel

/-- V31: with H_PID 0x33, 0xCC passes and 0xCD fails. -/
theorem test_st_ipidcheck :
    nextIs (exec .stIpidcheck { idleIn .inverseIdCheck [0#8, 0xCC#8] with hPid := 0x33#8 }) (fun t =>
      t.dstate == .integrityCheck) = true ∧
    nextIs (exec .stIpidcheck { idleIn .inverseIdCheck [0#8, 0xCD#8] with hPid := 0x33#8 }) (fun t =>
      t.dstate == .failed .inverseIdMismatch && t.failinfo == some [0xCD#8]) = true := by decide +kernel

/-- R167: lo 00, hi 00 fails with both bytes, low first. -/
theorem test_st_integrity : nextIs (exec .stIntegrity (idleIn .integrityCheck [0#8, 0#8, 0#8, 0x01#8, 0#8, 0x02#8]))
    (fun t => t.dstate == .failed .integrityMismatch &&
      t.out == [.initFailed .integrityMismatch [0x01#8, 0x02#8]]) = true := by decide +kernel

/-- V32: read B5, write B0; read 0F, write 00. -/
theorem test_st_lasercfg :
    nextIs (exec .stLasercfg (idleIn .laserConfig [0#8, 0xB5#8, 0#8, 0#8])) (fun t =>
      t.dstate == .ready && t.t2 == [.read 0x20#7 0xB5#8, .write 0x20#7 0xB0#8]) = true ∧
    nextIs (exec .stLasercfg (idleIn .laserConfig [0#8, 0x0F#8, 0#8, 0#8])) (fun t =>
      t.t2 == [.read 0x20#7 0x0F#8, .write 0x20#7 0x00#8]) = true := by decide +kernel

/-- R170: the dump comes first, once, and its first report is the product id. -/
theorem test_st_ready : nextIs (exec .stReady (idleIn .ready [0#8, 0x33#8])) (fun t =>
    t.dumped && t.seqpos == 1 && t.t2.length == 9 && t.out.take 1 == [.regDump .productId 0x33#8]) = true := by
  decide +kernel

/-- R171, V46: a failed block consumes the event and sends nothing. -/
theorem test_st_failed : nextIs (exec .stFailed { idleIn (.failed .integrityMismatch) [] with pend := true }) (fun t =>
    !t.pend && t.t0 == [] && t.out == []) = true := by decide +kernel

/-! ### Motion decoder -/

/-- V47: TESTCLR returns the bit and clears it. -/
theorem test_testclr :
    nextIs (exec .testclr { idle [] with pend := true }) (fun t => t.ret == .bit true && !t.pend) = true ∧
    nextIs (exec .testclr (idle [])) (fun t => t.ret == .bit false && !t.pend) = true := by decide +kernel

/-- V40: default masks. -/
theorem test_status_decode :
    nextIs (exec (.statusDecode 0xA0#8) (idle [])) (fun t => t.ret == .flags true false true) = true ∧
    nextIs (exec (.statusDecode 0x80#8) (idle [])) (fun t => t.ret == .flags true false false) = true ∧
    nextIs (exec (.statusDecode 0x60#8) (idle [])) (fun t => t.ret == .flags false true true) = true := by decide +kernel

/-- V48: other masks. -/
theorem test_status_decode_masks : nextIs (exec (.statusDecode 0x05#8) (idleOf { Params.defaults with
      maskMot := 0x01#8, maskFault := 0x02#8, maskLpValid := 0x04#8 } [])) (fun t => t.ret == .flags true false true)
    = true := by decide +kernel

/-- V41: corners of DELTA16. -/
theorem test_delta16 :
    delta16 0xFF#8 0x00#8 = 0x00FF#16 ∧ toInt16 (delta16 0x34#8 0x12#8) = 4660 ∧
    toInt16 (delta16 0xFF#8 0x7F#8) = 32767 ∧ toInt16 (delta16 0x00#8 0x80#8) = -32768 ∧
    toInt16 (delta16 0xFF#8 0xFF#8) = -1 := by decide +kernel

/-- V44: status A0 and the four delta bytes. -/
theorem test_poll_sample : nextIs (exec .poll (looping
      [0#8, 0xA0#8, 0#8, 0x34#8, 0#8, 0x12#8, 0#8, 0xFF#8, 0#8, 0xFF#8])) (fun t =>
    t.out == [.motionSample 4660 (-1)] && t.dx == 0x1234#16 && t.dy == 0xFFFF#16 && t.t0.length == 520 &&
      t.t1.length == 30) = true := by decide +kernel

/-- V42: status 80 is a fault although it reports motion; no delta register is read. -/
theorem test_poll_fault : nextIs (exec .poll (looping [0#8, 0x80#8])) (fun t =>
    t.out == [.motionFault 0x80#8] && t.t2 == [.read 0x02#7 0x80#8] && t.hDxl == 0#8 && t.dstate == .ready) = true := by
  decide +kernel

/-! ### The machine -/

/-- V47: two edges before one TESTCLR are one pending event; a rising edge is none under the default MOT_EDGE. -/
theorem test_events_merge :
    (State.eventMove (State.eventMove { idle [] with edges := [some .falling, some .falling] })).pend = true ∧
    (State.eventMove { idle [] with edges := [some .rising] }).pend = false := by decide +kernel

/-- A placed word is what the next step runs: V11 by RDREG's id with operand bytes of zero. -/
theorem test_with_fetch_word : nextIs (step { State.reset.withFetchWord 8 6 with din := feed [0x00#8, 0x33#8] }) (fun t =>
    t.ret == .byte 0x33#8 && t.bench == [] && t.t2 == [.read 0x00#7 0x33#8]) = true := by decide +kernel

/-- A bad parameter assignment is refused (R9). -/
theorem test_bad_parameters : refusedWith (step (State.resetWith { Params.defaults with maskMot := 0x00#8 })) .parameters
    = true := by decide +kernel

/-! ### Witnesses: states that meet the hypotheses of the statements, clause by clause -/

/-- Hypothesis "idle lines": the frames, UPLOAD, VERIFY, DUMP and the first clause of SelectEdgesMoveSelWithDelays. -/
theorem witness_idle : (idle []).Idle ∧ (idleOf (withFw [0x11#8, 0x22#8]) []).Idle := by decide +kernel

/-- Hypothesis "selected lines": XFER and SEL_DEASSERT. -/
theorem witness_selected : (selected []).Selected := by decide +kernel

/-- MisusedBusPrimitivesAreRefused, its clauses in order. -/
theorem witness_misused :
    State.reset.linesCfg = false ∧ ((selected []).linesCfg = true ∧ (selected []).sel ≠ some true) ∧
    ((idle []).linesCfg = true ∧ (idle []).sel ≠ some false) ∧
    (({ idle [] with clk := some true }).clk ≠ some false ∧ ({ idle [] with clk := some true }).sel = some true) ∧
    (({ selected [] with clk := none }).clk ≠ some false ∧ ({ selected [] with clk := none }).sel = some false) := by
  decide +kernel

/-- DelayLogsItsParameter, both clauses. -/
theorem witness_delay : (selected []).sel = some false ∧ State.reset.sel ≠ some false ∧
    (afterAccess [.assert, .xfer 0x80#8 0#8, .delay .tWrPhase, .xfer 0#8 0#8, .deassert]).JustClosedAccess ∧
    (afterAccess [.assert, .xfer 0x00#8 0#8, .delay .tRdAddrData, .xfer 0#8 0#8, .deassert]).JustClosedAccess ∧
    ¬ (DelayName.tPowerUp = .tInterTxn ∧ State.reset.JustClosedAccess) :=
  ⟨by decide +kernel, by decide +kernel, ⟨[], _, _, _, _, .inl ⟨rfl, by decide +kernel⟩⟩,
    ⟨[], _, _, _, _, .inr ⟨rfl, by decide +kernel⟩⟩, fun h => by cases h.1⟩

/-- A T_INTER_TXN right after a frame of no format is a Wait, though an earlier frame was a write (R40). -/
theorem test_wait_after_no_format :
    nextIs (exec (.delay .tInterTxn) { afterAccess [.assert, .xfer 0#8 0#8, .deassert] with t2 := [.write 0#7 0#8] })
      (fun t => t.t2 == [.write 0#7 0#8, .wait .tInterTxn]) = true := by decide +kernel

/-- BusPrimitivesTouchOnlyTheBus: each of the five answers a next state somewhere. -/
theorem witness_bus_primitives :
    nextIs (exec .init State.reset) (fun _ => true) = true ∧ nextIs (exec .selAssert (idle [])) (fun _ => true) = true ∧
    nextIs (exec .selDeassert (selected [])) (fun _ => true) = true ∧
    nextIs (exec (.xfer 0xFF#8) (selected [])) (fun _ => true) = true ∧
    nextIs (exec (.delay .tSelPreA) State.reset) (fun _ => true) = true := by decide +kernel

/-- ReadFrameTrace, the last clause: the data byte is the dummy byte. -/
theorem witness_dummy_byte : (0x00#8 : Byte) = (idle []).cfg.dummyByte := by decide +kernel

/-- NamedReadFramesAreReads: a pair of the list. -/
theorem witness_named_read : (Instr.rdConfigD, (0x2F#7 : Addr)) ∈ namedReads (idle []).cfg ∧
    (idle []).MayRead 0x2F#7 ∧ (idle []).MayRead 0x03#7 ∧
    ({ idle [] with t2 := [.read 0x03#7 0#8] }).MayRead 0x04#7 := by decide +kernel

/-- SingleDeltaReadsKeepOrderAndStatus: out of turn; in turn under a fault, under no laser power, under a valid status and
before any; the named row is one. DeltaTurnFollowsTheFixedOrder: places, and a transaction that is no delta read. -/
theorem witness_delta_reads :
    (deltaPlace Params.defaults 0x06#7 = some 3 ∧ 3 ≠ nextDelta Params.defaults (idle []).t2 ∧
      (Instr.rdDeltaYH, (0x06#7 : Addr)) ∈ namedReads (idle []).cfg) ∧
    (0 = nextDelta (statusWas 0x60#8).cfg (statusWas 0x60#8).t2 ∧
      (statusWas 0x60#8).t2 = [] ++ .read (statusWas 0x60#8).cfg.addrMotion 0x60#8 :: []) ∧
    (0x60#8 &&& Params.defaults.maskFault ≠ 0#8 ∧ 0x80#8 &&& Params.defaults.maskLpValid = 0#8) ∧
    (0x20#8 &&& Params.defaults.maskLpValid ≠ 0#8 ∧ 0x20#8 &&& Params.defaults.maskFault = 0#8) ∧
    0 = nextDelta (idle []).cfg (idle []).t2 ∧ deltaPlace Params.defaults 0x00#7 = none ∧
    Params.defaults.wf = true := by decide +kernel

/-- Out of the fixed order, and under an invalid status, a single read is refused (R67, R68, U1, U2). -/
theorem test_single_delta_reads :
    refusedWith (exec .rdDeltaXH (idle [])) .deltaOrder = true ∧
    refusedWith (exec (.rdreg 0x03#7) { idle [] with t2 := [.read 0x03#7 0#8] }) .deltaOrder = true ∧
    refusedWith (exec .rdDeltaXL (statusWas 0x80#8)) .deltaStatus = true ∧
    nextIs (exec .rdDeltaXL { statusWas 0xA0#8 with din := feed [0#8, 0x34#8] }) (fun t => t.ret == .byte 0x34#8) = true ∧
    nextIs (step (State.reset.withFetchWord 16 0x0600)) (fun _ => true) = true := by decide +kernel

/-- FramesNeedIdleLines: before INIT, while selected, and POLL in Ready with the clock high. -/
theorem witness_frames_need_idle :
    (startsAFrame State.reset (.wrreg 0#7 0#8) = true ∧ ¬ State.reset.Idle) ∧
    (startsAFrame (selected []) .selCycle = true ∧ ¬ (selected []).Idle) ∧
    (startsAFrame { looping [] with clk := some true } .poll = true ∧ ¬ ({ looping [] with clk := some true }).Idle) ∧
    (startsAFrame { looping [] with clk := some true, pend := true } .stReady = true ∧
      startsAFrame { idleIn .ready [] with clk := some true } .stReady = true) := by decide +kernel

/-- OnlyTheExpectedCodeVerifies: the expected code, and in the integrity check a pair that is not it. -/
theorem witness_code :
    (idleIn .integrityCheck [0#8, 0#8, 0#8, 0xEF#8, 0#8, 0xBF#8]).Idle ∧
    (idleIn .integrityCheck [0#8, 0#8, 0#8, 0xEF#8, 0#8, 0xBF#8]).cfg.expectedCode = 0xBEEF#16 ∧
    ¬ ((idleIn .integrityCheck [0#8, 0#8, 0#8, 0xEF#8, 0#8, 0xBF#8]).codeLo = 0xEF#8 ∧
      (idleIn .integrityCheck [0#8, 0#8, 0#8, 0xEF#8, 0#8, 0xBF#8]).codeHi = 0xBE#8) := by decide +kernel

/-- StResetRunsItsList and both clauses of StPowerupOnlyWaits. -/
theorem witness_reset_powerup : State.reset.dstate = .reset ∧
    ((idleIn .powerUp []).dstate = .powerUp ∧ (idleIn .powerUp []).sel ≠ some false) ∧
    (({ selected [] with dstate := .powerUp }).dstate = .powerUp ∧
      ({ selected [] with dstate := .powerUp }).sel = some false) := by decide +kernel

/-- StDrainDiscardsFiveReads, StFwuploadUploadsUnconditionally, StLasercfgKeepsTheHighNibble. -/
theorem witness_unfailing_states :
    (idleIn .drain []).Idle ∧ (idleIn .firmwareUpload []).Idle ∧ (idleIn .laserConfig []).Idle ∧
    (idleIn .drain []).dstate = .drain ∧ (idleIn .firmwareUpload []).dstate = .firmwareUpload ∧
    (idleIn .laserConfig []).dstate = .laserConfig := by decide +kernel

/-- StPidcheckComparesTheProductId, both clauses. -/
theorem witness_pidcheck : (idleIn .productIdCheck [0#8, 0x33#8]).Idle ∧
    (idleIn .productIdCheck [0#8, 0x33#8]).inByte 1 = (idle []).cfg.productIdExpected ∧
    (idleIn .productIdCheck [0#8, 0x32#8]).inByte 1 ≠ (idle []).cfg.productIdExpected := by decide +kernel

/-- StIpidcheckXorsWithTheProductId, its clauses, at the expected product id and at H_PID's reset value. -/
theorem witness_ipidcheck :
    ({ idleIn .inverseIdCheck [0#8, 0xCC#8] with hPid := 0x33#8 }).Idle ∧
    (idleIn .inverseIdCheck [0#8, 0xCC#8]).inByte 1 ^^^ 0x33#8 = 0xFF#8 ∧
    (idleIn .inverseIdCheck [0#8, 0x33#8]).inByte 1 ^^^ 0x33#8 ≠ 0xFF#8 ∧
    (0x33#8 : Byte) = (idle []).cfg.productIdExpected ∧
    (idleIn .inverseIdCheck [0#8, 0xFF#8]).Idle ∧
    (idleIn .inverseIdCheck [0#8, 0xFF#8]).inByte 1 ^^^ (idleIn .inverseIdCheck []).hPid = 0xFF#8 ∧
    (idleIn .inverseIdCheck [0#8, 0xFE#8]).inByte 1 ^^^ (idleIn .inverseIdCheck []).hPid ≠ 0xFF#8 := by decide +kernel

/-- ProductIdIsWrittenBeforeItIsRead: reset, a product id check about to pass, and the state it passes into. -/
theorem witness_pid_written : State.reset.PidWritten ∧ (idleIn .productIdCheck [0#8, 0x33#8]).PidWritten ∧
    nextIs (step (idleIn .productIdCheck [0#8, 0x33#8])) (fun t =>
      t.dstate == .inverseIdCheck && t.hPid == t.cfg.productIdExpected &&
        t.t2.contains (.read t.cfg.addrProductId t.hPid)) = true :=
  ⟨fun h => by simp [State.reset, State.resetWith] at h, fun h => by simp [idleIn] at h, by decide +kernel⟩

/-- StIntegrityVerifiesTheUpload, both clauses. -/
theorem witness_integrity :
    codeOf (idleIn .integrityCheck [0#8, 0#8, 0#8, 0xEF#8, 0#8, 0xBE#8]).codeHi
      (idleIn .integrityCheck [0#8, 0#8, 0#8, 0xEF#8, 0#8, 0xBE#8]).codeLo = (idle []).cfg.expectedCode ∧
    codeOf (idleIn .integrityCheck [0#8, 0#8, 0#8, 0xEE#8, 0#8, 0xBE#8]).codeHi
      (idleIn .integrityCheck [0#8, 0#8, 0#8, 0xEE#8, 0#8, 0xBE#8]).codeLo ≠ (idle []).cfg.expectedCode := by
  decide +kernel

/-- StReadyDumpsOnceThenLoops, its clauses in order. -/
theorem witness_ready :
    ((idleIn .ready []).Idle ∧ (idleIn .ready []).seqpos = 0 ∧ (idleIn .ready []).cfg.dumpEnable = true ∧
      (idleIn .ready []).dumped = false) ∧
    ({ idleIn .ready [] with dumped := true }).dumped = true ∧
    ((looping []).seqpos ≠ 0 ∧ (looping []).pend = false) ∧
    (({ looping [] with pend := true }).seqpos ≠ 0 ∧ ({ looping [] with pend := true }).pend = true) := by decide +kernel

/-- StFailedOnlyConsumesTheEvent, and StOperationsRunOnlyInTheirState at a neighbour of the state's own operation. -/
theorem witness_failed_and_wrong_state :
    (idleIn (.failed .productIdMismatch) []).dstate = .failed .productIdMismatch ∧
    Instr.stDrain ∈ [Instr.stReset, .stPowerup, .stDrain] ∧ Instr.stDrain ≠ hardwired (idleIn .powerUp []).dstate := by
  decide +kernel

/-- PollTakesOneOfFourBranches: not Ready; a fault by either flag; a sample; no motion (V40). -/
theorem witness_poll :
    (idle []).dstate ≠ .ready ∧ ((looping []).dstate = .ready ∧ (looping []).Idle) ∧
    (looping [0#8, 0x80#8]).inByte 1 &&& (idle []).cfg.maskLpValid = 0#8 ∧
    (looping [0#8, 0x60#8]).inByte 1 &&& (idle []).cfg.maskFault ≠ 0#8 ∧
    ((looping [0#8, 0xBF#8]).inByte 1 &&& (idle []).cfg.maskLpValid ≠ 0#8 ∧
      (looping [0#8, 0xBF#8]).inByte 1 &&& (idle []).cfg.maskFault = 0#8 ∧
      (looping [0#8, 0xBF#8]).inByte 1 &&& (idle []).cfg.maskMot ≠ 0#8) ∧
    ((looping [0#8, 0x3F#8]).inByte 1 &&& (idle []).cfg.maskLpValid ≠ 0#8 ∧
      (looping [0#8, 0x3F#8]).inByte 1 &&& (idle []).cfg.maskMot = 0#8) := by decide +kernel

/-- DecodeEncodeRoundTrip, EncodeOfDecodedWord, AddressByteIsMarkerOverAddress (its last clause). -/
theorem witness_encoding :
    (Instr.frameB [0x22#8, 0x11#8]).wellFormed (withFw [0x11#8, 0x22#8]) = true ∧
    (Instr.wrLaserCtrl 0xF#4).wellFormed Params.defaults = true ∧
    decode Params.defaults (.op 23#8 0xFF#8 0x80#8) = .ok (.delta16 0xFF#8 0x80#8) ∧
    Params.defaults.writeMarker = true := by decide +kernel

/-- StepRunsTheDecodedWord and StepRunsTheHardwiredOperation. -/
theorem witness_step : State.reset.cfg.wf = true ∧ State.reset.bench = [] ∧
    ({ idle [] with bench := [.op 20#8 0#8 0#8] }).cfg.wf = true ∧
    decode (idle []).cfg (.op 20#8 0#8 0#8) = .ok .testclr := by decide +kernel

/-- BadParametersAreRefused: a mask of no bit, of two bits, equal masks and equal addresses. -/
theorem witness_bad_parameters :
    (∀ k < 8, (0x00#8 : Byte) ≠ BitVec.ofNat 8 (2 ^ k)) ∧ (∀ k < 8, (0x81#8 : Byte) ≠ BitVec.ofNat 8 (2 ^ k)) ∧
    ({ Params.defaults with maskLpValid := 0x80#8 }).maskMot = ({ Params.defaults with maskLpValid := 0x80#8 }).maskLpValid ∧
    ¬ [(0x02#7 : Addr), 0x03#7, 0x04#7, 0x05#7, 0x02#7].Nodup ∧
    ({ Params.defaults with addrCodeHi := 0x25#7 }).addrCodeLo = ({ Params.defaults with addrCodeHi := 0x25#7 }).addrCodeHi := by
  decide +kernel

/-- The step invariants: the reset state meets them and steps to a next state; so does a state about to fail, and a failed
one with its record. -/
theorem witness_step_invariants :
    (State.reset.LinesInv ∧ State.reset.TraceInv ∧ State.reset.FailureInv) ∧
    nextIs (step State.reset) (fun _ => true) = true ∧
    ((idleIn .productIdCheck [0#8, 0x32#8]).LinesInv ∧ (idleIn .productIdCheck [0#8, 0x32#8]).FailureInv) ∧
    nextIs (step (idleIn .productIdCheck [0#8, 0x32#8])) (fun t => t.dstate == .failed .productIdMismatch) = true ∧
    ({ idleIn (.failed .productIdMismatch) [] with
      failinfo := some [0x32#8], out := [.initFailed .productIdMismatch [0x32#8]] }).FailureInv := by
  refine ⟨?_, by decide +kernel, ?_, by decide +kernel, ?_⟩ <;>
    simp [State.LinesInv, State.TraceInv, State.FailureInv, State.reset, State.resetWith, idleIn, idle, idleOf, failures,
      DState.isFailed, eventsOf]

/-- BlockNeverStopsOnItsOwn, DeviceStateFollowsTheTable, TracesOnlyGrow, BlockSendsOnlyTheListedFrames: the reset state, and the
inverse-id check with the id read. -/
theorem witness_own : State.reset.cfg.wf = true ∧ State.reset.Own ∧
    State.Own { idleIn .inverseIdCheck [] with hPid := 0x33#8 } ∧
    nextIs (step { idleIn .inverseIdCheck [] with hPid := 0x33#8 }) (fun _ => true) = true := by
  exact ⟨by decide +kernel, ⟨rfl, fun h => absurd rfl h, fun h => by cases h⟩,
    ⟨rfl, fun _ => by decide +kernel, fun _ => by decide +kernel⟩, by decide +kernel⟩

/-- TerminalStatesAreNeverLeft: both terminal states step, a bench word in Failed too. -/
theorem witness_terminal :
    nextIs (step (looping [])) (fun t => t.dstate == .ready) = true ∧
    nextIs (step { idleIn (.failed .inverseIdMismatch) [] with bench := [.op 20#8 0#8 0#8] })
      (fun t => t.dstate == .failed .inverseIdMismatch) = true := by decide +kernel

/-- EventSetsPendAndMerges, both clauses; EarlyEventStaysPending. -/
theorem witness_events :
    (idle []).edges = [] ∧ ({ idle [] with edges := [none] }).edges = none :: [] ∧
    some Edge.falling = some (idle []).cfg.motEdge ∧ (none : Option Edge) ≠ some (idle []).cfg.motEdge ∧
    some Edge.rising ≠ some (idle []).cfg.motEdge ∧
    nextIs (step { idleIn .drain [] with pend := true }) (fun t => t.pend) = true := by decide +kernel

/-- QuiescentStateStays in both terminal states, and FailedBlockIsSilent. -/
theorem witness_quiescent :
    (looping []).Quiescent ∧ (idleIn (.failed .productIdMismatch) []).Quiescent ∧ (looping []).cfg.wf = true := by
  refine ⟨?_, ?_, by decide +kernel⟩ <;> simp [State.Quiescent, looping, idleIn, idle, idleOf, State.resetWith, DState.isFailed]

/-- InitializationEndsByTheChecks and SuccessfulInitializationTrace: the in bytes of section 5, at the empty image. -/
theorem witness_initialization : Params.defaults.wf = true ∧ Params.defaults.dumpEnable = true ∧
    (State.start Params.defaults (feed (List.replicate 16 0#8 ++ [0x33#8, 0#8, 0xCC#8, 0#8, 0#8, 0#8, 0xEF#8, 0#8, 0xBE#8]))
      0 [] 0).checksOutcome 0 = .ready := by decide +kernel

end Sys2Proof.Tests
end

section
/-! PROOF. The scope rules (00_scope.md): which parameter assignments a step accepts (R9), and that a step only appends to
the traces and to OUT and keeps the parameters (R13, 10_state.md R38, R41). -/

namespace Sys2Proof

/-- The mask test is R9 b's: some one of the eight bits, alone. -/
theorem oneBit_iff {m : Byte} : oneBit m = true ↔ ∃ k < 8, m = BitVec.ofNat 8 (2 ^ k) := by
  simp only [oneBit, List.any_eq_true, List.mem_range, beq_iff_eq]

theorem oneBit_ne_true_of_forall_ne {m : Byte} (h : ∀ k < 8, m ≠ BitVec.ofNat 8 (2 ^ k)) : oneBit m ≠ true := fun h1 =>
  have ⟨k, hk, e⟩ := oneBit_iff.mp h1
  h k hk e

/-- R9, clause by clause, of an accepted parameter assignment. -/
theorem Params.wf_iff {p : Params} : p.wf = true ↔
    ((oneBit p.maskMot = true ∧ oneBit p.maskFault = true ∧ oneBit p.maskLpValid = true) ∧
      (p.maskMot ≠ p.maskFault ∧ p.maskMot ≠ p.maskLpValid ∧ p.maskFault ≠ p.maskLpValid)) ∧
    [p.addrMotion, p.addrDeltaXL, p.addrDeltaXH, p.addrDeltaYL, p.addrDeltaYH].Nodup ∧
    p.addrCodeLo ≠ p.addrCodeHi ∧ p.addrProductId ≠ p.addrInvProductId := by
  simp only [Params.wf, Params.masksOk, Params.motionAddrsOk, Bool.and_eq_true, bne_iff_ne, decide_eq_true_iff, and_assoc]

end Sys2Proof

namespace Sys2Proof.Machine

/-! ### Which parameters a step accepts (R9) -/

theorem step_refuses_parameters {s : State} (h : s.cfg.wf ≠ true) : step s = .refused .parameters :=
  if_neg h

/-- Settles O44: each clause of the hypothesis contradicts one clause of an accepted assignment. -/
theorem badParametersAreRefused : Obligations.BadParametersAreRefused := by
  intro s bad
  refine step_refuses_parameters fun hwf => ?_
  obtain ⟨⟨⟨hMot, hFault, hLpv⟩, neMotFault, neMotLpv, neFaultLpv⟩, hAddrs, neCode, neId⟩ := Params.wf_iff.mp hwf
  rcases bad with b | b | b | b | b | b | b | b | b
  · exact oneBit_ne_true_of_forall_ne b hMot
  · exact oneBit_ne_true_of_forall_ne b hFault
  · exact oneBit_ne_true_of_forall_ne b hLpv
  · exact neMotFault b
  · exact neMotLpv b
  · exact neFaultLpv b
  · exact b hAddrs
  · exact neCode b
  · exact neId b

/-! ### What every step keeps -/

/-- A state's move is the entry into some Device State, or into a failure. -/
theorem moves_inv {d : DState} {u v : State} (h : Moves d u v) :
    (∃ d', v = u.goto d') ∨ ∃ r bs, v = u.raiseFailed r bs := by
  cases d with
  | productIdCheck | inverseIdCheck | integrityCheck =>
    rcases h with h | ⟨bs, h⟩
    · exact .inl ⟨_, h⟩
    · exact .inr ⟨_, bs, h⟩
  | ready | failed => exact h.elim
  | _ => exact .inl ⟨_, h⟩

/-- A relation that also holds across the moves of DSTATE, the bench queue and the event source, and so across a step. -/
structure KeptByStep (R : State → State → Prop) : Prop extends KeptByRegs R where
  goto : ∀ s d, R s (s.goto d)
  fail : ∀ s r bs, R s (s.raiseFailed r bs)
  bench : ∀ s ws, R s { s with bench := ws }
  event : ∀ s, R s s.eventMove

variable {R : State → State → Prop}

theorem KeptByStep.keeps_move (c : KeptByStep R) {d : DState} {u v : State} (h : Moves d u v) : R u v := by
  obtain ⟨d', rfl⟩ | ⟨r, bs, rfl⟩ := moves_inv h
  · exact c.goto u d'
  · exact c.fail u r bs

theorem KeptByStep.keeps_exec (c : KeptByStep R) {i : Instr} {s t : State} (h : exec i s = .next t) : R s t := by
  obtain ⟨u, v, r, hu, hv, rfl⟩ := exec_inv c.toKeptByRegs h
  have huv : R u v := by
    obtain rfl | ⟨-, hm⟩ := hv
    · exact c.refl v
    · exact c.keeps_move hm
  exact c.trans (c.trans hu huv) (c.ret v r)

theorem KeptByStep.keeps_fetch (c : KeptByStep R) {i : Instr} {s t : State} (h : fetch s = .ok (i, t)) : R s t := by
  obtain ⟨-, -, rfl⟩ | ⟨w, rest, -, -, rfl⟩ := fetch_inv h
  · exact c.refl t
  · exact c.bench s rest

/-- Such a relation holds between the states before and after any step, a called word's too. -/
theorem KeptByStep.keeps_step (c : KeptByStep R) {s t : State} (h : step s = .next t) : R s t := by
  obtain ⟨-, i, u, v, hf, he, rfl⟩ := step_inv h
  exact c.trans (c.keeps_fetch hf) (c.trans (c.keeps_exec he) (c.event v))

/-! ### The traces only grow (R13, R38, R41) -/

/-- The second state's traces and OUT begin with the first's, and the parameters are the same. -/
structure Grows (s t : State) : Prop where
  t0 : s.t0 <+: t.t0
  t1 : s.t1 <+: t.t1
  t2 : s.t2 <+: t.t2
  out : s.out <+: t.out
  cfg : t.cfg = s.cfg

theorem Grows.trans {s t u : State} (h : Grows s t) (k : Grows t u) : Grows s u where
  t0 := h.t0.trans k.t0
  t1 := h.t1.trans k.t1
  t2 := h.t2.trans k.t2
  out := h.out.trans k.out
  cfg := k.cfg.trans h.cfg

/-- A change that appends to the traces and to OUT, possibly nothing. -/
theorem Grows.of_append {s t : State} (es : List LineEvent) (cs : List Call) (ts : List Txn) (os : List OutEvent)
    (h0 : t.t0 = s.t0 ++ es) (h1 : t.t1 = s.t1 ++ cs) (h2 : t.t2 = s.t2 ++ ts) (ho : t.out = s.out ++ os)
    (hc : t.cfg = s.cfg) : Grows s t :=
  ⟨⟨es, h0.symm⟩, ⟨cs, h1.symm⟩, ⟨ts, h2.symm⟩, ⟨os, ho.symm⟩, hc⟩

/-- A Bus Primitive call: its line events, the call, and the transactions it completes. -/
theorem Grows.of_call {s t : State} (c : Call) (ts : List Txn) (h0 : t.t0 = (s.traced [c]).t0)
    (h1 : t.t1 = (s.traced [c]).t1) (h2 : t.t2 = s.t2 ++ ts) (ho : t.out = s.out) (hc : t.cfg = s.cfg) : Grows s t :=
  .of_append (eventsOf [c]) [c] ts [] h0 h1 h2 (ho.trans (List.append_nil _).symm) hc

/-- A change of registers only. -/
theorem Grows.of_same {s t : State} (h0 : t.t0 = s.t0) (h1 : t.t1 = s.t1) (h2 : t.t2 = s.t2) (ho : t.out = s.out)
    (hc : t.cfg = s.cfg) : Grows s t :=
  .of_append [] [] [] [] (by simp [h0]) (by simp [h1]) (by simp [h2]) (by simp [ho]) hc

theorem Grows.emit (s : State) (e : OutEvent) : Grows s (s.emit e) :=
  .of_append [] [] [] [e] (by simp) (by simp) (by simp) rfl rfl

theorem Grows.fail (s : State) (r : Reason) (bs : List Byte) : Grows s (s.raiseFailed r bs) :=
  .of_append [] [] [] [.initFailed r bs] (by simp) (by simp) (by simp) rfl rfl

theorem grows_keptByBus : KeptByBus Grows where
  refl _ := .of_same rfl rfl rfl rfl rfl
  trans := Grows.trans
  init _ := .of_call .init [.init] rfl rfl rfl rfl rfl
  assert _ _ := .of_call .assert [] rfl rfl (List.append_nil _).symm rfl rfl
  deassert s _ := .of_call .deassert (classify s.cfg s.frame) rfl rfl rfl rfl rfl
  xfer s o _ := .of_call (.xfer o (s.inByte 0)) [] rfl rfl (List.append_nil _).symm rfl rfl
  delayIn _ p _ := .of_call (.delay p) [] rfl rfl (List.append_nil _).symm rfl rfl
  delayOut s p _ := .of_call (.delay p) (waitTxn s p) rfl rfl rfl rfl rfl
  fwidx _ _ := .of_same rfl rfl rfl rfl rfl

theorem grows_keptByInit : KeptByInit Grows where
  toKeptByBus := grows_keptByBus
  pid _ _ _ := .of_same rfl rfl rfl rfl rfl
  ipid _ _ := .of_same rfl rfl rfl rfl rfl
  codeLo _ _ := .of_same rfl rfl rfl rfl rfl
  codeHi _ _ := .of_same rfl rfl rfl rfl rfl
  laser _ _ := .of_same rfl rfl rfl rfl rfl

theorem grows_keptByRegs : KeptByRegs Grows where
  toKeptByInit := grows_keptByInit
  status _ _ := .of_same rfl rfl rfl rfl rfl
  dxl _ _ := .of_same rfl rfl rfl rfl rfl
  dxh _ _ := .of_same rfl rfl rfl rfl rfl
  dyl _ _ := .of_same rfl rfl rfl rfl rfl
  dyh _ _ := .of_same rfl rfl rfl rfl rfl
  deltas _ _ _ := .of_same rfl rfl rfl rfl rfl
  dump _ _ := .of_same rfl rfl rfl rfl rfl
  dumped _ := .of_same rfl rfl rfl rfl rfl
  seqpos _ _ := .of_same rfl rfl rfl rfl rfl
  clear _ := .of_same rfl rfl rfl rfl rfl
  ret _ _ := .of_same rfl rfl rfl rfl rfl
  emitSample s _ _ := .emit s _
  emitFault s _ := .emit s _
  emitDump s _ _ := .emit s _

theorem grows_keptByStep : KeptByStep Grows where
  toKeptByRegs := grows_keptByRegs
  goto _ _ := .of_same rfl rfl rfl rfl rfl
  fail := .fail
  bench _ _ := .of_same rfl rfl rfl rfl rfl
  event s := .of_same (eventMove_t0 s) (eventMove_t1 s) (eventMove_t2 s) (eventMove_out s) (eventMove_cfg s)

/-- Settles O53: every part of a step appends to the traces or leaves them. -/
theorem tracesOnlyGrow : Obligations.TracesOnlyGrow := by
  intro s t h
  obtain ⟨h0, h1, h2, ho, hc⟩ := grows_keptByStep.keeps_step h
  exact ⟨h0, h1, h2, ho, hc⟩

end Sys2Proof.Machine
end

section
/-! PROOF. The invariants of the state (10_state.md). The lines and the traces T0 and T1 are written by the Bus Primitive
alone (R22, R27, R36, R39, R40); FAILINFO, DSTATE and H_PID by the move of a Device State's action and by ST_PIDCHECK (R28,
R35); and from idle lines the block's own operations run to completion (R44, R123). -/

namespace Sys2Proof.Machine

/-! ### Reset and the hardwired operation (R31, R32, R42) -/

/-- Settles O45: the fields of `State.resetWith`, one by one. -/
theorem resetLeavesTheListedValues : Obligations.ResetLeavesTheListedValues := fun p =>
  ⟨State.resetWith p, rfl, by simp [State.resetWith]⟩

theorem reset_linesInv (p : Params) : (State.resetWith p).LinesInv :=
  ⟨rfl, fun _ => ⟨rfl, rfl, rfl⟩, fun h => nomatch h⟩

theorem reset_traceInv (p : Params) : (State.resetWith p).TraceInv := rfl

theorem reset_failureInv (p : Params) : (State.resetWith p).FailureInv :=
  ⟨⟨nofun, nofun⟩, rfl, nofun⟩

theorem reset_pidWritten (p : Params) : (State.resetWith p).PidWritten := nofun

theorem reset_own (p : Params) : (State.resetWith p).Own :=
  ⟨rfl, fun h => absurd rfl h, nofun⟩

/-- Settles O46: the reset state of every assignment, at the defaults. -/
theorem resetMeetsTheInvariants : Obligations.ResetMeetsTheInvariants :=
  ⟨reset_linesInv _, reset_traceInv _, reset_failureInv _, reset_own _⟩

/-- With nothing called from outside, the fetch answers the action of the Device State. -/
theorem fetch_hardwired {s : State} (h : s.bench = []) : fetch s = .ok (hardwired s.dstate, s) := by
  unfold fetch
  rw [h]

/-- Settles O43: the parameters pass, and the fetch answers the action of the Device State. -/
theorem stepRunsTheHardwiredOperation : Obligations.StepRunsTheHardwiredOperation := by
  intro s hwf hb
  unfold step
  rw [if_pos hwf, fetch_hardwired hb]

/-! ### Invariants of the bus: what the Bus Primitive alone writes -/

/-- The lines, BITCNT and the traces T0 and T1 are the same. -/
structure SameBus (s t : State) : Prop where
  linesCfg : t.linesCfg = s.linesCfg
  sel : t.sel = s.sel
  clk : t.clk = s.clk
  dout : t.dout = s.dout
  bitcnt : t.bitcnt = s.bitcnt
  t0 : t.t0 = s.t0
  t1 : t.t1 = s.t1

theorem eventMove_sameBus (s : State) : SameBus s s.eventMove where
  linesCfg := eventMove_linesCfg s
  sel := eventMove_sel s
  clk := eventMove_clk s
  dout := eventMove_dout s
  bitcnt := eventMove_bitcnt s
  t0 := eventMove_t0 s
  t1 := eventMove_t1 s

/-- A property of the bus that the five Bus Primitive calls keep. -/
structure BusInvariant (P : State → Prop) : Prop where
  congr : ∀ {s t}, SameBus s t → P s → P t
  init : ∀ s, P s → P s.afterInit
  assert : ∀ s, s.Idle → P s → P s.afterAssert
  deassert : ∀ s, s.Selected → P s → P s.afterDeassert
  xfer : ∀ s o, s.Selected → P s → P (s.afterXfer o)
  delayIn : ∀ s p, P s → P (s.afterDelayIn p)
  delayOut : ∀ s p, P s → P (s.afterDelayOut p)

variable {P : State → Prop}

theorem BusInvariant.keptByBus (c : BusInvariant P) : KeptByBus fun s t => P s → P t where
  refl _ := id
  trans h k := k ∘ h
  init := c.init
  assert := c.assert
  deassert := c.deassert
  xfer := c.xfer
  delayIn s p _ := c.delayIn s p
  delayOut s p _ := c.delayOut s p
  fwidx _ _ := c.congr ⟨rfl, rfl, rfl, rfl, rfl, rfl, rfl⟩

theorem BusInvariant.keptByInit (c : BusInvariant P) : KeptByInit fun s t => P s → P t where
  toKeptByBus := c.keptByBus
  pid _ _ _ := c.congr ⟨rfl, rfl, rfl, rfl, rfl, rfl, rfl⟩
  ipid _ _ := c.congr ⟨rfl, rfl, rfl, rfl, rfl, rfl, rfl⟩
  codeLo _ _ := c.congr ⟨rfl, rfl, rfl, rfl, rfl, rfl, rfl⟩
  codeHi _ _ := c.congr ⟨rfl, rfl, rfl, rfl, rfl, rfl, rfl⟩
  laser _ _ := c.congr ⟨rfl, rfl, rfl, rfl, rfl, rfl, rfl⟩

theorem BusInvariant.keptByRegs (c : BusInvariant P) : KeptByRegs fun s t => P s → P t where
  toKeptByInit := c.keptByInit
  status _ _ := c.congr ⟨rfl, rfl, rfl, rfl, rfl, rfl, rfl⟩
  dxl _ _ := c.congr ⟨rfl, rfl, rfl, rfl, rfl, rfl, rfl⟩
  dxh _ _ := c.congr ⟨rfl, rfl, rfl, rfl, rfl, rfl, rfl⟩
  dyl _ _ := c.congr ⟨rfl, rfl, rfl, rfl, rfl, rfl, rfl⟩
  dyh _ _ := c.congr ⟨rfl, rfl, rfl, rfl, rfl, rfl, rfl⟩
  deltas _ _ _ := c.congr ⟨rfl, rfl, rfl, rfl, rfl, rfl, rfl⟩
  dump _ _ := c.congr ⟨rfl, rfl, rfl, rfl, rfl, rfl, rfl⟩
  dumped _ := c.congr ⟨rfl, rfl, rfl, rfl, rfl, rfl, rfl⟩
  seqpos _ _ := c.congr ⟨rfl, rfl, rfl, rfl, rfl, rfl, rfl⟩
  clear _ := c.congr ⟨rfl, rfl, rfl, rfl, rfl, rfl, rfl⟩
  ret _ _ := c.congr ⟨rfl, rfl, rfl, rfl, rfl, rfl, rfl⟩
  emitSample _ _ _ := c.congr ⟨rfl, rfl, rfl, rfl, rfl, rfl, rfl⟩
  emitFault _ _ := c.congr ⟨rfl, rfl, rfl, rfl, rfl, rfl, rfl⟩
  emitDump _ _ _ := c.congr ⟨rfl, rfl, rfl, rfl, rfl, rfl, rfl⟩

/-- Every step keeps a property of the bus that the Bus Primitive calls keep. -/
theorem BusInvariant.keptByStep (c : BusInvariant P) : KeptByStep fun s t => P s → P t where
  toKeptByRegs := c.keptByRegs
  goto _ _ := c.congr ⟨rfl, rfl, rfl, rfl, rfl, rfl, rfl⟩
  fail _ _ _ := c.congr ⟨rfl, rfl, rfl, rfl, rfl, rfl, rfl⟩
  bench _ _ := c.congr ⟨rfl, rfl, rfl, rfl, rfl, rfl, rfl⟩
  event s := c.congr (eventMove_sameBus s)

/-- Both traces grown by the same calls: T0 gains exactly their line events. -/
theorem State.TraceInv.of_traced {s t : State} (cs : List Call) (h0 : t.t0 = (s.traced cs).t0) (h1 : t.t1 = (s.traced cs).t1)
    (h : s.TraceInv) : t.TraceInv := by
  unfold State.TraceInv at h ⊢
  rw [h0, h1]
  simp only [State.traced, h, eventsOf_append]

theorem traceInv_busInvariant : BusInvariant State.TraceInv where
  congr e h := e.t0.trans (h.trans (congrArg eventsOf e.t1.symm))
  init _ := .of_traced [.init] rfl rfl
  assert _ _ := .of_traced [.assert] rfl rfl
  deassert _ _ := .of_traced [.deassert] rfl rfl
  xfer s o _ := .of_traced [.xfer o (s.inByte 0)] rfl rfl
  delayIn _ p := .of_traced [.delay p] rfl rfl
  delayOut _ p := .of_traced [.delay p] rfl rfl

/-- Settles O48: each call appends itself to T1 and its line events to T0, and nothing else writes either. -/
theorem stepKeepsTraceInv : Obligations.StepKeepsTraceInv := fun _ _ h hs =>
  traceInv_busInvariant.keptByStep.keeps_step hs h

/-- Configured lines that are driven, with the clock low and BITCNT 0, meet the invariant. -/
theorem State.LinesInv.of_driven {s : State} (hb : s.bitcnt = 0#4) (hl : s.linesCfg = true) (hs : s.sel.isSome = true)
    (hc : s.clk = some false) (hd : s.dout.isSome = true) : s.LinesInv :=
  ⟨hb, fun h => absurd (hl.symm.trans h) (by decide), fun _ => ⟨hs, hc, hd⟩⟩

theorem linesInv_busInvariant : BusInvariant State.LinesInv where
  congr := by
    rintro s t ⟨hl, hs, hc, hd, hb, -, -⟩ h
    unfold State.LinesInv
    rw [hl, hs, hc, hd, hb]
    exact h
  init _ := fun ⟨hb, _⟩ => .of_driven hb rfl rfl rfl rfl
  assert _ := fun ⟨hl, _, hc⟩ ⟨hb, _, hd⟩ => .of_driven hb hl rfl hc (hd hl).2.2
  deassert _ := fun ⟨hl, _, hc⟩ ⟨hb, _, hd⟩ => .of_driven hb hl rfl hc (hd hl).2.2
  xfer _ _ := fun ⟨hl, _, hc⟩ ⟨_, _, hd⟩ => .of_driven rfl hl (hd hl).1 hc rfl
  delayIn _ _ h := h
  delayOut _ _ h := h

/-- Settles O47: a call leaves BITCNT 0 and driven lines driven, INIT drives them, and nothing else writes them. -/
theorem stepKeepsLinesInv : Obligations.StepKeepsLinesInv := fun _ _ h hs =>
  linesInv_busInvariant.keptByStep.keeps_step hs h

end Sys2Proof.Machine
end

section
/-! PROOF. What only the move of a Device State's action writes: FAILINFO and the one InitFailed (10_state.md R35,
60_exceptions.md R203), and H_PID on the way into the inverse-id check (10_state.md R28, 43_init_state_machine.md R165). -/

namespace Sys2Proof.Machine

/-! ### What an operation leaves unchanged before its move -/

theorem failures_append (xs ys : List OutEvent) : failures (xs ++ ys) = failures xs + failures ys :=
  List.countP_append

/-- The first state's traces, OUT and parameters go on in the second, which is in the same Device State with the same record
of failure and the same calls queued; H_PID moves in the product-id check only. -/
structure SameBeforeMove (s t : State) : Prop extends Grows s t where
  dstate : t.dstate = s.dstate
  failinfo : t.failinfo = s.failinfo
  failures : failures t.out = failures s.out
  bench : t.bench = s.bench
  hPid : s.dstate ≠ .productIdCheck → t.hPid = s.hPid

theorem SameBeforeMove.trans {s t u : State} (h : SameBeforeMove s t) (k : SameBeforeMove t u) : SameBeforeMove s u where
  toGrows := h.toGrows.trans k.toGrows
  dstate := k.dstate.trans h.dstate
  failinfo := k.failinfo.trans h.failinfo
  failures := k.failures.trans h.failures
  bench := k.bench.trans h.bench
  hPid hd := (k.hPid (h.dstate ▸ hd)).trans (h.hPid hd)

/-- An event that is no InitFailed is no record of a failure. -/
theorem SameBeforeMove.emit (s : State) {e : OutEvent} (he : Machine.failures [e] = 0) : SameBeforeMove s (s.emit e) where
  toGrows := .emit s e
  dstate := rfl
  failinfo := rfl
  failures := by rw [emit_out, failures_append, he, Nat.add_zero]
  bench := rfl
  hPid _ := rfl

theorem sameBeforeMove_keptByBus : KeptByBus SameBeforeMove where
  refl s := ⟨grows_keptByBus.refl s, rfl, rfl, rfl, rfl, fun _ => rfl⟩
  trans := SameBeforeMove.trans
  init s := ⟨grows_keptByBus.init s, rfl, rfl, rfl, rfl, fun _ => rfl⟩
  assert s h := ⟨grows_keptByBus.assert s h, rfl, rfl, rfl, rfl, fun _ => rfl⟩
  deassert s h := ⟨grows_keptByBus.deassert s h, rfl, rfl, rfl, rfl, fun _ => rfl⟩
  xfer s o h := ⟨grows_keptByBus.xfer s o h, rfl, rfl, rfl, rfl, fun _ => rfl⟩
  delayIn s p h := ⟨grows_keptByBus.delayIn s p h, rfl, rfl, rfl, rfl, fun _ => rfl⟩
  delayOut s p h := ⟨grows_keptByBus.delayOut s p h, rfl, rfl, rfl, rfl, fun _ => rfl⟩
  fwidx s k := ⟨grows_keptByBus.fwidx s k, rfl, rfl, rfl, rfl, fun _ => rfl⟩

theorem sameBeforeMove_keptByInit : KeptByInit SameBeforeMove where
  toKeptByBus := sameBeforeMove_keptByBus
  pid s v h := ⟨grows_keptByInit.pid s v h, rfl, rfl, rfl, rfl, fun hd => absurd h hd⟩
  ipid s v := ⟨grows_keptByInit.ipid s v, rfl, rfl, rfl, rfl, fun _ => rfl⟩
  codeLo s v := ⟨grows_keptByInit.codeLo s v, rfl, rfl, rfl, rfl, fun _ => rfl⟩
  codeHi s v := ⟨grows_keptByInit.codeHi s v, rfl, rfl, rfl, rfl, fun _ => rfl⟩
  laser s v := ⟨grows_keptByInit.laser s v, rfl, rfl, rfl, rfl, fun _ => rfl⟩

theorem sameBeforeMove_keptByRegs : KeptByRegs SameBeforeMove where
  toKeptByInit := sameBeforeMove_keptByInit
  status s v := ⟨grows_keptByRegs.status s v, rfl, rfl, rfl, rfl, fun _ => rfl⟩
  dxl s v := ⟨grows_keptByRegs.dxl s v, rfl, rfl, rfl, rfl, fun _ => rfl⟩
  dxh s v := ⟨grows_keptByRegs.dxh s v, rfl, rfl, rfl, rfl, fun _ => rfl⟩
  dyl s v := ⟨grows_keptByRegs.dyl s v, rfl, rfl, rfl, rfl, fun _ => rfl⟩
  dyh s v := ⟨grows_keptByRegs.dyh s v, rfl, rfl, rfl, rfl, fun _ => rfl⟩
  deltas s x y := ⟨grows_keptByRegs.deltas s x y, rfl, rfl, rfl, rfl, fun _ => rfl⟩
  dump s v := ⟨grows_keptByRegs.dump s v, rfl, rfl, rfl, rfl, fun _ => rfl⟩
  dumped s := ⟨grows_keptByRegs.dumped s, rfl, rfl, rfl, rfl, fun _ => rfl⟩
  seqpos s k := ⟨grows_keptByRegs.seqpos s k, rfl, rfl, rfl, rfl, fun _ => rfl⟩
  clear s := ⟨grows_keptByRegs.clear s, rfl, rfl, rfl, rfl, fun _ => rfl⟩
  ret s r := ⟨grows_keptByRegs.ret s r, rfl, rfl, rfl, rfl, fun _ => rfl⟩
  emitSample s _ _ := .emit s rfl
  emitFault s _ := .emit s rfl
  emitDump s _ _ := .emit s rfl

/-! ### The record of failure (R35, R203) -/

/-- The invariant reads DSTATE, FAILINFO and OUT only, and of OUT its InitFailed events. -/
theorem State.FailureInv.congr {s t : State} (hd : t.dstate = s.dstate) (hf : t.failinfo = s.failinfo)
    (hn : failures t.out = failures s.out) (ho : s.out <+: t.out) (h : s.FailureInv) : t.FailureInv := by
  obtain ⟨hiff, hcount, hlast⟩ := h
  refine ⟨by rw [hd, hf]; exact hiff, by rw [hn, hd]; exact hcount, fun r hr => ?_⟩
  obtain ⟨bytes, hb, hm⟩ := hlast r (hd ▸ hr)
  exact ⟨bytes, hf.trans hb, ho.subset hm⟩

theorem State.FailureInv.of_sameBeforeMove {s t : State} (h : SameBeforeMove s t) (hi : s.FailureInv) : t.FailureInv :=
  hi.congr h.dstate h.failinfo h.failures h.out

/-- Outside Failed nothing is recorded. -/
theorem State.FailureInv.none_recorded {s : State} (h : s.FailureInv) (hd : s.dstate.isFailed = false) :
    s.failinfo = none ∧ failures s.out = 0 := by
  obtain ⟨hiff, hcount, -⟩ := h
  rw [hd] at hiff hcount
  exact ⟨by simpa using hiff, hcount⟩

/-- The entry into a state that is no failure, from one that is none, records nothing. -/
theorem State.FailureInv.goto {s : State} {d : DState} (h : s.FailureInv) (hs : s.dstate.isFailed = false)
    (hd : d.isFailed = false) : (s.goto d).FailureInv := by
  obtain ⟨hf, hn⟩ := h.none_recorded hs
  refine ⟨by simp [hd, hf], by simp [hd, hn], fun r hr => ?_⟩
  rw [goto_dstate] at hr
  rw [hr] at hd
  cases hd

/-- The first failure is recorded once (R203). -/
theorem State.FailureInv.raiseFailed {s : State} (h : s.FailureInv) (hs : s.dstate.isFailed = false) (r : Reason)
    (bytes : List Byte) : (s.raiseFailed r bytes).FailureInv := by
  obtain ⟨-, hn⟩ := h.none_recorded hs
  refine ⟨by simp [DState.isFailed], ?_, fun r' hr => ?_⟩
  · rw [raiseFailed_out, failures_append, hn]
    rfl
  · cases hr
    exact ⟨bytes, rfl, by simp⟩

/-- A move leaves a state that is no failure, for another such state or for a failure. -/
theorem moves_from_running {d : DState} {u v : State} (h : Moves d u v) :
    d.isFailed = false ∧ ((∃ d', d'.isFailed = false ∧ v = u.goto d') ∨ ∃ r bs, v = u.raiseFailed r bs) := by
  cases d with
  | productIdCheck | inverseIdCheck | integrityCheck =>
    rcases h with h | ⟨bs, h⟩
    · exact ⟨rfl, .inl ⟨_, rfl, h⟩⟩
    · exact ⟨rfl, .inr ⟨_, bs, h⟩⟩
  | ready | failed => exact h.elim
  | _ => exact ⟨rfl, .inl ⟨_, rfl, h⟩⟩

theorem exec_keeps_failureInv {i : Instr} {s t : State} (h : exec i s = .next t) (hs : s.FailureInv) : t.FailureInv := by
  obtain ⟨u, v, r, hu, hv, rfl⟩ := exec_inv sameBeforeMove_keptByRegs h
  have hi := hs.of_sameBeforeMove hu
  have hv' : v.FailureInv := by
    rcases hv with rfl | ⟨-, hm⟩
    · exact hi
    · obtain ⟨hrun, hto⟩ := moves_from_running hm
      rw [← hu.dstate] at hrun
      obtain ⟨d, hd, rfl⟩ | ⟨r, bs, rfl⟩ := hto
      · exact hi.goto hrun hd
      · exact hi.raiseFailed hrun r bs
  exact hv'

/-- Settles O49: an operation keeps the record before its move, a move makes it at the one entry into Failed, and the fetch
and the event source touch none of it. -/
theorem stepKeepsFailureInv : Obligations.StepKeepsFailureInv := by
  intro s t hs h
  obtain ⟨-, i, u, v, hf, he, rfl⟩ := step_inv h
  have hu : u.FailureInv := by
    obtain ⟨-, -, rfl⟩ | ⟨w, rest, -, -, rfl⟩ := fetch_inv hf
    · exact hs
    · exact hs.congr rfl rfl rfl (grows_keptByStep.bench s rest).out
  exact (exec_keeps_failureInv he hu).congr (eventMove_dstate v) (eventMove_failinfo v) (by rw [eventMove_out])
    (grows_keptByStep.event v).out

/-! ### H_PID on the way into the inverse-id check (R28, R165) -/

/-- RDREG succeeds from idle lines only, with the second in byte (R143, R144). -/
theorem readReg_inv {a : Addr} {v : Byte} {s t : State} (h : readReg a s = .ok (v, t)) :
    s.Idle ∧ v = s.inByte 1 ∧ t = s.afterRead a := by
  have hi : s.Idle := by
    unfold readReg at h
    obtain ⟨_, _, h0, h1⟩ := op_bind_inv h
    cases h0
    unfold readFrame at h1
    obtain ⟨_, _, h2, -⟩ := op_bind_inv h1
    exact (selAssert_inv h2).1
  rw [readReg_ok a hi] at h
  cases h
  exact ⟨hi, rfl, rfl⟩

/-- ST_PIDCHECK reads the product id into H_PID and moves by the comparison with the expected one (R165). -/
theorem exec_stPidcheck_inv {s t : State} (h : exec .stPidcheck s = .next t) :
    t = { ((s.afterRead s.cfg.addrProductId).setPid (s.inByte 1)).check (s.inByte 1 == s.cfg.productIdExpected)
      .inverseIdCheck .productIdMismatch [s.inByte 1] with ret := .none } := by
  obtain ⟨a, u, e, rfl⟩ := finish_inv h
  obtain ⟨_, _, hg, e1⟩ := op_bind_inv e
  obtain ⟨-, rfl⟩ := requireState_inv hg
  rw [op_bind_ok (op_get_apply _)] at e1
  obtain ⟨v, _, hr, e2⟩ := op_bind_inv e1
  obtain ⟨-, rfl, rfl⟩ := readReg_inv hr
  rw [op_bind_ok (update_apply _ _)] at e2
  cases e2
  rfl

/-- ST_PIDCHECK enters the inverse-id check with the id it read in H_PID, which is the expected one. -/
theorem exec_stPidcheck_writes_pid {s t : State} (h : exec .stPidcheck s = .next t) (hd : t.dstate = .inverseIdCheck) :
    t.hPid = t.cfg.productIdExpected ∧ Txn.read t.cfg.addrProductId t.hPid ∈ t.t2 := by
  obtain rfl := exec_stPidcheck_inv h
  cases hc : s.inByte 1 == s.cfg.productIdExpected with
  | true => exact ⟨eq_of_beq hc, List.mem_append_right s.t2 (List.mem_singleton_self _)⟩
  | false => rw [hc] at hd; cases hd

/-- The product-id check alone moves to the inverse-id check (R160). -/
theorem moves_to_inverseIdCheck {d : DState} {u v : State} (h : Moves d u v) (hv : v.dstate = .inverseIdCheck) :
    d = .productIdCheck := by
  cases d with
  | productIdCheck => rfl
  | inverseIdCheck | integrityCheck => obtain rfl | ⟨bs, rfl⟩ := h <;> cases hv
  | ready | failed => exact h.elim
  | _ => obtain rfl := h; cases hv

/-- An instruction that ends in the inverse-id check was run there and left H_PID, or wrote the expected id it read. -/
theorem exec_to_inverseIdCheck {i : Instr} {s t : State} (h : exec i s = .next t) (hd : t.dstate = .inverseIdCheck) :
    (s.dstate = .inverseIdCheck ∧ t.hPid = s.hPid ∧ Grows s t) ∨
      (t.hPid = t.cfg.productIdExpected ∧ Txn.read t.cfg.addrProductId t.hPid ∈ t.t2) := by
  obtain ⟨u, v, r, hu, rfl | ⟨rfl, hm⟩, rfl⟩ := exec_inv sameBeforeMove_keptByRegs h
  · have hs : s.dstate = .inverseIdCheck := hu.dstate.symm.trans hd
    exact .inl ⟨hs, hu.hPid (by rw [hs]; decide), hu.toGrows.trans (grows_keptByRegs.ret _ r)⟩
  · rw [moves_to_inverseIdCheck hm hd] at h
    exact .inr (exec_stPidcheck_writes_pid h hd)

/-- The invariant reads DSTATE, H_PID, the parameters and T2 only. -/
theorem State.PidWritten.congr {s t : State} (hd : t.dstate = s.dstate) (hp : t.hPid = s.hPid) (hc : t.cfg = s.cfg)
    (h2 : s.t2 <+: t.t2) (h : s.PidWritten) : t.PidWritten := by
  intro ht
  obtain ⟨he, hm⟩ := h (hd ▸ ht)
  rw [hp, hc]
  exact ⟨he, h2.subset hm⟩

theorem exec_keeps_pidWritten {i : Instr} {s t : State} (h : exec i s = .next t) (hs : s.PidWritten) : t.PidWritten := by
  intro hd
  obtain ⟨hsd, hp, hg⟩ | hw := exec_to_inverseIdCheck h hd
  · exact hs.congr (hd.trans hsd.symm) hp hg.cfg hg.t2 hd
  · exact hw

theorem step_keeps_pidWritten {s t : State} (hs : s.PidWritten) (h : step s = .next t) : t.PidWritten := by
  obtain ⟨-, i, u, v, hf, he, rfl⟩ := step_inv h
  have hu : u.PidWritten := by
    obtain ⟨-, -, rfl⟩ | ⟨w, rest, -, -, rfl⟩ := fetch_inv hf
    · exact hs
    · exact hs.congr rfl rfl rfl (grows_keptByStep.bench s rest).t2
  exact (exec_keeps_pidWritten he hu).congr (eventMove_dstate v) (eventMove_hPid v) (eventMove_cfg v)
    (grows_keptByStep.event v).t2

/-! ### Nothing faults (R201) -/

theorem finish_ne_fault {α : Type} (op : Op α) (result : α → Ret) (s : State) (f : Fault) :
    finish op result s ≠ .fault f := by
  unfold finish
  split <;> nofun

theorem exec_ne_fault (i : Instr) (s : State) (f : Fault) : exec i s ≠ .fault f := by
  cases i with
  | init => exact finish_ne_fault busInit (fun _ => .none) s f
  | delay p => exact finish_ne_fault (delay p) (fun _ => .none) s f
  | testclr => exact finish_ne_fault testClear _ s f
  | statusDecode v => exact finish_ne_fault (statusDecode v) (fun b => .flags b.1 b.2.1 b.2.2) s f
  | delta16 lo hi => exact finish_ne_fault (pure (delta16 lo hi)) _ s f
  | _ => exact finish_ne_fault _ _ s f

theorem step_ne_fault (s : State) (f : Fault) : step s ≠ .fault f := by
  unfold step
  split
  · split
    · rename_i i t hf
      cases he : exec i t with
      | fault f' => exact absurd he (exec_ne_fault i t f')
      | _ => nofun
    · nofun
  · nofun

/-- Settles O26: every meaning is an operation run to its end, and an operation does not fault; ST_PIDCHECK is the one way
into the inverse-id check and writes H_PID. -/
theorem productIdIsWrittenBeforeItIsRead : Obligations.ProductIdIsWrittenBeforeItIsRead :=
  ⟨fun s i f => ⟨exec_ne_fault i s f, step_ne_fault s f⟩, reset_pidWritten, fun _ _ => step_keeps_pidWritten⟩

end Sys2Proof.Machine
end

section
/-! PROOF. On its own the block never stops (10_state.md R44, 40_bus_primitive.md R123): every frame starts and ends at idle
lines, so an operation made of frames and register updates, started there, runs to its end and leaves idle lines. -/

namespace Sys2Proof.Machine

/-! ### Operations that run from idle lines to idle lines -/

/-- From idle lines the operation is not refused, and leaves idle lines. -/
def RunsIdle {α : Type} (op : Op α) : Prop := ∀ s, s.Idle → ∃ a t, op s = .ok (a, t) ∧ t.Idle

variable {α β : Type}

theorem RunsIdle.bind {x : Op α} {f : α → Op β} (hx : RunsIdle x) (hf : ∀ a, RunsIdle (f a)) : RunsIdle (x >>= f) := by
  intro s hs
  obtain ⟨a, t, e, ht⟩ := hx s hs
  rw [op_bind_ok e]
  exact hf a t ht

theorem RunsIdle.pure (a : α) : RunsIdle (Pure.pure a) := fun s hs => ⟨a, s, rfl, hs⟩

theorem RunsIdle.get : RunsIdle (get : Op State) := fun s hs => ⟨s, s, rfl, hs⟩

theorem RunsIdle.update {f : State → State} (h : ∀ s, s.Idle → (f s).Idle) : RunsIdle (update f) := fun s hs =>
  ⟨(), f s, rfl, h s hs⟩

theorem RunsIdle.ite {p : Prop} [Decidable p] {x y : Op α} (hx : RunsIdle x) (hy : RunsIdle y) :
    RunsIdle (if p then x else y) := by
  split <;> assumption

theorem runsIdle_writeReg (a : Addr) (v : Byte) : RunsIdle (writeReg a v) := fun _ hs =>
  ⟨_, _, writeReg_ok a v hs, afterWrite_idle a v hs⟩

theorem runsIdle_readReg (a : Addr) : RunsIdle (readReg a) := fun _ hs => ⟨_, _, readReg_ok a hs, afterRead_idle a hs⟩

theorem runsIdle_delay (p : DelayName) : RunsIdle (delay p) := fun s hs =>
  have hsel : s.sel ≠ some false := by rw [hs.2.1]; decide
  ⟨_, _, delay_outside p hsel, hs⟩

theorem runsIdle_burstImage : RunsIdle burstImage := fun _ hs => ⟨_, _, burstImage_ok hs, afterBurst_idle _ hs⟩

theorem runsIdle_upload : RunsIdle upload :=
  .bind .get fun _ => .bind (runsIdle_writeReg _ _) fun _ => .bind (runsIdle_delay _) fun _ => runsIdle_burstImage

theorem runsIdle_verify : RunsIdle verify :=
  .bind .get fun _ => .bind (runsIdle_writeReg _ _) fun _ => .bind (runsIdle_delay _) fun _ =>
    .bind (runsIdle_readReg _) fun _ => .bind (.update fun _ hs => hs) fun _ =>
      .bind (runsIdle_readReg _) fun _ => .bind (.update fun _ hs => hs) fun _ => .pure _

theorem runsIdle_dump : RunsIdle dump := fun _ hs => ⟨_, _, dump_ok hs, afterDumpReads_idle _ hs⟩

theorem runsIdle_readSample : RunsIdle readSample :=
  .bind .get fun _ =>
    .bind (runsIdle_readReg _) fun _ => .bind (.update fun _ hs => hs) fun _ =>
    .bind (runsIdle_readReg _) fun _ => .bind (.update fun _ hs => hs) fun _ =>
    .bind (runsIdle_readReg _) fun _ => .bind (.update fun _ hs => hs) fun _ =>
    .bind (runsIdle_readReg _) fun _ => .bind (.update fun _ hs => hs) fun _ =>
    .bind (.update fun _ hs => hs) fun _ => .update fun _ hs => hs

theorem runsIdle_check (ok : State → Bool) (d : DState) (r : Reason) (info : State → List Byte) :
    RunsIdle (update fun s => s.check (ok s) d r (info s)) := .update fun s hs => by
  cases ok s <;> exact hs

theorem runsIdle_statusDecode (v : Byte) : RunsIdle (statusDecode v) := .bind .get fun _ => .pure _

theorem runsIdle_testClear : RunsIdle testClear := fun _ hs => ⟨_, _, rfl, hs⟩

theorem runsIdle_pollReady : RunsIdle pollReady :=
  .bind .get fun _ => .bind (runsIdle_readReg _) fun _ => .bind (.update fun _ hs => hs) fun _ =>
    .bind (runsIdle_statusDecode _) fun _ => .ite (.update fun _ hs => hs) (.ite runsIdle_readSample (.pure ()))

theorem runsIdle_poll : RunsIdle poll := .bind .get fun _ => .ite runsIdle_pollReady (.pure ())

theorem runsIdle_loopIteration : RunsIdle loopIteration :=
  .bind runsIdle_testClear fun _ => .ite runsIdle_poll (.pure ())

theorem runsIdle_readyDump : RunsIdle readyDump := by
  unfold readyDump
  refine .bind .get fun s => ?_
  split
  · exact .bind runsIdle_dump fun _ => .bind (.update fun _ hs => hs) fun _ => .update fun _ hs => hs
  · exact .update (f := State.setSeqpos 1) fun _ hs => hs

/-! ### The action of a Device State runs to its end -/

/-- The operation is not refused in this state, and leaves idle lines. -/
def RunsToIdle (op : Op Unit) (s : State) : Prop := ∃ a t, op s = .ok (a, t) ∧ t.Idle

/-- An action passes its guard in its own Device State (R160). -/
theorem guard_ok {s : State} {d : DState} (h : s.dstate = d) : requireState (· == d) s = .ok ((), s) :=
  requireState_ok (beq_iff_eq.mpr h)

/-- In its own Device State, an action whose body runs from idle lines does. -/
theorem runsToIdle_guarded {s : State} {d : DState} {body : Op Unit} (hd : s.dstate = d) (hs : s.Idle)
    (hb : RunsIdle body) : RunsToIdle (requireState (· == d) >>= fun _ => body) s := by
  unfold RunsToIdle
  rw [op_bind_ok (guard_ok hd)]
  exact hb s hs

/-- ST_RESET needs no idle lines: it configures them (R161). -/
theorem stReset_runsToIdle {s : State} (hd : s.dstate = .reset) : RunsToIdle stReset s := by
  have hi := afterInit_idle s
  have hc := Selected.deassert (Idle.assert hi)
  unfold stReset RunsToIdle
  rw [op_bind_ok (guard_ok hd), op_bind_ok (op_get_apply _), op_bind_ok (busInit_ok s),
    op_bind_ok (selAssert_ok hi), op_bind_ok (selDeassert_ok (Idle.assert hi)), op_bind_ok (writeReg_ok _ _ hc)]
  exact ⟨_, _, update_apply _ _, hc⟩

theorem stPowerup_runsToIdle {s : State} (hd : s.dstate = .powerUp) (hs : s.Idle) : RunsToIdle stPowerup s :=
  runsToIdle_guarded hd hs <| .bind (runsIdle_delay _) fun _ => .update fun _ h => h

theorem stDrain_runsToIdle {s : State} (hd : s.dstate = .drain) (hs : s.Idle) : RunsToIdle stDrain s :=
  runsToIdle_guarded hd hs <| .bind .get fun _ => .bind (runsIdle_readReg _) fun _ => .bind (runsIdle_readReg _) fun _ =>
    .bind (runsIdle_readReg _) fun _ => .bind (runsIdle_readReg _) fun _ => .bind (runsIdle_readReg _) fun _ =>
      .update fun _ h => h

theorem stFwupload_runsToIdle {s : State} (hd : s.dstate = .firmwareUpload) (hs : s.Idle) : RunsToIdle stFwupload s :=
  runsToIdle_guarded hd hs <| .bind runsIdle_upload fun _ => .update fun _ h => h

theorem stPidcheck_runsToIdle {s : State} (hd : s.dstate = .productIdCheck) (hs : s.Idle) : RunsToIdle stPidcheck s :=
  runsToIdle_guarded hd hs <| .bind .get fun _ => .bind (runsIdle_readReg _) fun _ => .bind (.update fun _ h => h) fun _ =>
    runsIdle_check _ _ _ _

theorem stIpidcheck_runsToIdle {s : State} (hd : s.dstate = .inverseIdCheck) (hs : s.Idle) : RunsToIdle stIpidcheck s :=
  runsToIdle_guarded hd hs <| .bind .get fun _ => .bind (runsIdle_readReg _) fun _ => .bind (.update fun _ h => h) fun _ =>
    runsIdle_check _ _ _ _

theorem stIntegrity_runsToIdle {s : State} (hd : s.dstate = .integrityCheck) (hs : s.Idle) : RunsToIdle stIntegrity s :=
  runsToIdle_guarded hd hs <| .bind runsIdle_verify fun _ => runsIdle_check _ _ _ _

theorem stLasercfg_runsToIdle {s : State} (hd : s.dstate = .laserConfig) (hs : s.Idle) : RunsToIdle stLasercfg s :=
  runsToIdle_guarded hd hs <| .bind .get fun _ => .bind (runsIdle_readReg _) fun _ => .bind (.update fun _ h => h) fun _ =>
    .bind (runsIdle_writeReg _ _) fun _ => .update fun _ h => h

theorem stReady_runsToIdle {s : State} (hd : s.dstate = .ready) (hs : s.Idle) : RunsToIdle stReady s :=
  runsToIdle_guarded hd hs <| .bind .get fun _ => .ite runsIdle_readyDump runsIdle_loopIteration

theorem stFailed_runsToIdle {s : State} {r : Reason} (hd : s.dstate = .failed r) (hs : s.Idle) : RunsToIdle stFailed s := by
  unfold stFailed RunsToIdle
  rw [op_bind_ok (requireState_ok (by rw [hd]; rfl))]
  exact runsIdle_loopIteration s hs

theorem RunsToIdle.finish {op : Op Unit} {s : State} (h : RunsToIdle op s) :
    ∃ t, finish op (fun _ => .none) s = .next t ∧ t.Idle := by
  obtain ⟨a, t, e, ht⟩ := h
  exact ⟨_, finish_ok e, ht⟩

/-- Where the lines are idle in every Device State but Reset, the action of the Device State answers a next state with idle
lines. -/
theorem exec_hardwired_runs {s : State} (hi : s.dstate ≠ .reset → s.Idle) :
    ∃ t, exec (hardwired s.dstate) s = .next t ∧ t.Idle := by
  have hs : ∀ {d}, s.dstate = d → d ≠ .reset → s.Idle := fun hd hr => hi (hd ▸ hr)
  cases hd : s.dstate with
  | reset => exact (stReset_runsToIdle hd).finish
  | powerUp => exact (stPowerup_runsToIdle hd (hs hd nofun)).finish
  | drain => exact (stDrain_runsToIdle hd (hs hd nofun)).finish
  | firmwareUpload => exact (stFwupload_runsToIdle hd (hs hd nofun)).finish
  | productIdCheck => exact (stPidcheck_runsToIdle hd (hs hd nofun)).finish
  | inverseIdCheck => exact (stIpidcheck_runsToIdle hd (hs hd nofun)).finish
  | integrityCheck => exact (stIntegrity_runsToIdle hd (hs hd nofun)).finish
  | laserConfig => exact (stLasercfg_runsToIdle hd (hs hd nofun)).finish
  | ready => exact (stReady_runsToIdle hd (hs hd nofun)).finish
  | failed r => exact (stFailed_runsToIdle hd (hs hd nofun)).finish

/-! ### The block on its own -/

theorem moves_bench {d : DState} {u v : State} (h : Moves d u v) : v.bench = u.bench := by
  obtain ⟨d', rfl⟩ | ⟨r, bs, rfl⟩ := moves_inv h <;> rfl

/-- An instruction leaves the calls queued as they are. -/
theorem exec_bench {i : Instr} {s t : State} (h : exec i s = .next t) : t.bench = s.bench := by
  obtain ⟨u, v, r, hu, rfl | ⟨-, hm⟩, rfl⟩ := exec_inv sameBeforeMove_keptByRegs h
  · exact hu.bench
  · exact (moves_bench hm).trans hu.bench

/-- An instruction keeps the parameters (R38). -/
theorem exec_cfg {i : Instr} {s t : State} (h : exec i s = .next t) : t.cfg = s.cfg :=
  (grows_keptByStep.keeps_exec h).cfg

/-- In the inverse-id check H_PID is the expected product id, after any instruction if before it. -/
theorem exec_keeps_expectedPid {i : Instr} {s t : State} (h : exec i s = .next t)
    (hs : s.dstate = .inverseIdCheck → s.hPid = s.cfg.productIdExpected) :
    t.dstate = .inverseIdCheck → t.hPid = t.cfg.productIdExpected := by
  intro hd
  obtain ⟨hsd, hp, hg⟩ | ⟨hw, -⟩ := exec_to_inverseIdCheck h hd
  · rw [hp, hg.cfg, hs hsd]
  · exact hw

/-- The event source leaves all that `Own` speaks of. -/
theorem State.Own.eventMove {s : State} (h : s.Own) : s.eventMove.Own := by
  simpa only [State.Own, State.Idle, eventMove_bench, eventMove_dstate, eventMove_linesCfg, eventMove_sel, eventMove_clk,
    eventMove_hPid, eventMove_cfg] using h

/-- Settles O50: the action of the Device State runs to idle lines, queues no call, and enters the inverse-id check with the
expected id only. -/
theorem blockNeverStopsOnItsOwn : Obligations.BlockNeverStopsOnItsOwn := by
  intro s hwf ⟨hb, hi, hp⟩
  obtain ⟨t, he, ht⟩ := exec_hardwired_runs hi
  have hown : t.Own := ⟨(exec_bench he).trans hb, fun _ => ht, exec_keeps_expectedPid he hp⟩
  refine ⟨t.eventMove, ?_, (eventMove_cfg t).trans (exec_cfg he), hown.eventMove⟩
  rw [stepRunsTheHardwiredOperation s hwf hb, he]
  rfl

end Sys2Proof.Machine
end

section
/-! PROOF. Single reads of the delta registers (20_memory.md R67, R68; 93_implementation_defined.md U1, U2): the place of a
register in the fixed order, the turn after a transaction, and the refusal of a read out of order or under an invalid
status. -/

namespace Sys2Proof.Machine

/-! ### The fixed order (R67, R242) -/

theorem deltaPlace_eq_none_iff {p : Params} {a : Addr} : deltaPlace p a = none ↔ a ∉ deltaAddrs p :=
  List.idxOf?_eq_none_iff

theorem deltaPlace_lt {p : Params} {a : Addr} {k : Nat} (h : deltaPlace p a = some k) : k < 4 :=
  (List.idxOf?_eq_some_iff.mp h).1

/-- Where the four addresses differ, each has the place at which it stands. -/
theorem deltaPlace_getElem {p : Params} (hd : (deltaAddrs p).Nodup) {i : Nat} (hi : i < 4) :
    deltaPlace p ((deltaAddrs p)[i]'hi) = some i := by
  refine List.idxOf?_eq_some_iff.mpr ⟨hi, rfl, fun j hj e => ?_⟩
  exact absurd (hd.getElem_inj_iff.mp e) hj.ne

/-- R9 on the five motion addresses: the status register is none of the delta registers, and these differ. -/
theorem Params.wf_deltaAddrs {p : Params} (h : p.wf = true) : p.addrMotion ∉ deltaAddrs p ∧ (deltaAddrs p).Nodup := by
  obtain ⟨-, hnodup, -⟩ := Params.wf_iff.mp h
  exact List.nodup_cons.mp hnodup

/-- A transaction that reads no delta register leaves the turn. -/
theorem nextDelta_of_no_deltaRead {p : Params} (ts : List Txn) {x : Txn} (h : deltaRead p x = none) :
    nextDelta p (ts ++ [x]) = nextDelta p ts := by
  simp only [nextDelta, List.reverse_append, List.reverse_singleton, List.singleton_append, List.findSome?_cons, h]

theorem deltaRead_eq_none {p : Params} {x : Txn} (h : ∀ a v, x = .read a v → deltaPlace p a = none) :
    deltaRead p x = none := by
  cases x with
  | read a v => exact h a v rfl
  | _ => rfl

/-- Settles O12: the places are the positions in the list of distinct addresses, and the last delta read sets the turn. -/
theorem deltaTurnFollowsTheFixedOrder : Obligations.DeltaTurnFollowsTheFixedOrder := by
  intro p hwf
  obtain ⟨hmotion, hnodup⟩ := Params.wf_deltaAddrs hwf
  refine ⟨deltaPlace_getElem hnodup (i := 0) (by decide), deltaPlace_getElem hnodup (i := 1) (by decide),
    deltaPlace_getElem hnodup (i := 2) (by decide), deltaPlace_getElem hnodup (i := 3) (by decide),
    deltaPlace_eq_none_iff.mpr hmotion, rfl, fun ts a v k hk => ?_, fun ts x hx => ?_⟩
  · have hlt := deltaPlace_lt hk
    rw [nextDelta_read ts v hk]
    split <;> omega
  · exact nextDelta_of_no_deltaRead ts (deltaRead_eq_none hx)

/-! ### Order and status of a single read (R68, R243, U1, U2) -/

theorem faultTest_iff {p : Params} {v : Byte} :
    faultTest p v = true ↔ v &&& p.maskLpValid = 0#8 ∨ v &&& p.maskFault ≠ 0#8 := by
  simp [faultTest, lpvOf, faultOf, flagOf]

/-- A delta register keeps the order exactly in its turn. -/
theorem inDeltaOrder_iff {s : State} {a : Addr} {k : Nat} (h : deltaPlace s.cfg a = some k) :
    s.inDeltaOrder a = true ↔ k = nextDelta s.cfg s.t2 := by
  simp [State.inDeltaOrder, h]

/-- For a delta register it is the last status byte read that counts. -/
theorem underValidStatus_eq {s : State} {a : Addr} {k : Nat} (h : deltaPlace s.cfg a = some k) :
    s.underValidStatus a = statusValid s.cfg s.t2 := by
  simp [State.underValidStatus, h]

/-- The status of a trace whose last status byte is `v`. -/
theorem underValidStatus_last {s : State} {a : Addr} {k : Nat} {v : Byte} {before after : List Txn}
    (hk : deltaPlace s.cfg a = some k) (ht : s.t2 = before ++ .read s.cfg.addrMotion v :: after)
    (hlast : ∀ w, .read s.cfg.addrMotion w ∉ after) : s.underValidStatus a = !faultTest s.cfg v := by
  rw [underValidStatus_eq hk, ht, statusValid_last v hlast]

/-- Each named read frame is RDREG of its row's address (R98, R101). -/
theorem exec_namedRead {s : State} {ia : Instr × Addr} (h : ia ∈ namedReads s.cfg) : exec ia.1 s = execRdreg ia.2 s := by
  fin_cases h <;> rfl

/-- What refuses a single read of `a`, whatever its data byte, refuses FRAME_R, RDREG and the named row of `a`. -/
theorem single_reads_refused {s : State} {a : Addr} {r : Refusal} (h : ∀ d, singleRead a d s = .error r) (d : Byte) :
    exec (.frameR a d) s = .refused r ∧ exec (.rdreg a) s = .refused r ∧
      ∀ ia ∈ namedReads s.cfg, ia.2 = a → exec ia.1 s = .refused r := by
  have hreg : execRdreg a s = .refused r := finish_refused ((singleReadReg_eq s a).trans (h _))
  refine ⟨finish_refused (h d), hreg, ?_⟩
  rintro ia hia rfl
  exact (exec_namedRead hia).trans hreg

/-- Settles O11: the order is tested first, then the status, which is that of the last status byte read. -/
theorem singleDeltaReadsKeepOrderAndStatus : Obligations.SingleDeltaReadsKeepOrderAndStatus := by
  intro s a d k hi hk
  have horder := inDeltaOrder_iff hk
  refine ⟨fun hturn => ?_, fun v before after hturn ht hlast hbad => ?_, fun v before after hturn ht hlast hgood => ?_,
    fun hturn hnone => ?_⟩
  · have ho : s.inDeltaOrder a = false := Bool.eq_false_iff.mpr fun h => hturn (horder.mp h)
    exact single_reads_refused (fun d => singleRead_order d hi ho) d
  · have hv : s.underValidStatus a = false := by
      rw [underValidStatus_last hk ht hlast, faultTest_iff.mpr hbad, Bool.not_true]
    exact single_reads_refused (fun d => singleRead_status d hi (horder.mpr hturn) hv) d
  · have hvalid : faultTest s.cfg v = false := Bool.eq_false_iff.mpr fun h =>
      (faultTest_iff.mp h).elim hgood.1 (absurd hgood.2)
    exact ⟨horder.mpr hturn, by rw [underValidStatus_last hk ht hlast, hvalid, Bool.not_false]⟩
  · exact ⟨horder.mpr hturn, (underValidStatus_eq hk).trans (statusValid_none hnone)⟩

end Sys2Proof.Machine
end

section
/-! PROOF. The words of the frames and operations (30_encoding.md): the address byte (R95), the decoder and the encoder undo
each other (R90 to R100), and the names of one frame have one meaning (R98, R101). -/

namespace Sys2Proof.Machine

/-! ### A byte and its marker and address (R75, R90, R95) -/

theorem markerOf_append (m : Bool) (a : Addr) : markerOf (BitVec.ofBool m ++ a : Byte) = m :=
  BitVec.msb_append.trans (by simp)

theorem addrOf_append (m : Bool) (a : Addr) : addrOf (BitVec.ofBool m ++ a : Byte) = a :=
  BitVec.extractLsb'_append_eq_right

/-- A byte is its marker over its address. -/
theorem append_markerOf_addrOf (b : Byte) : (BitVec.ofBool (markerOf b) ++ addrOf b : Byte) = b := by
  revert b
  decide +kernel

theorem markW_addrOf {p : Params} {b : Byte} (h : markerOf b = p.writeMarker) : markW p (addrOf b) = b := by
  rw [markW, ← h, append_markerOf_addrOf]

theorem markR_addrOf {p : Params} {b : Byte} (h : markerOf b ≠ p.writeMarker) : markR p (addrOf b) = b := by
  rw [markR, ← Bool.eq_not.mpr h, append_markerOf_addrOf]

theorem markW_ne_markR (p : Params) (a a' : Addr) : markW p a ≠ markR p a' := fun h => by
  have hm := congrArg markerOf h
  rw [markerOf_markW, markerOf_markR] at hm
  exact Bool.not_ne_self _ hm.symm

theorem markW_inj {p : Params} {a a' : Addr} (h : markW p a = markW p a') : a = a' := by
  rw [← addrOf_markW p a, h, addrOf_markW]

/-- Settles O41: the marker and the address are the parts of the byte; over a zero bit the address is only widened. -/
theorem addressByteIsMarkerOverAddress : Obligations.AddressByteIsMarkerOverAddress := by
  intro p a
  refine ⟨markerOf_markW p a, addrOf_markW p a, markerOf_markR p a, addrOf_markR p a, markW_ne_markR p a a, fun h => ?_⟩
  rw [markW, markR, h]
  exact ⟨rfl, BitVec.zero_or⟩

/-! ### The named rows of the frame table (R98) -/

/-- The named write rows with their address and data, WR_LASER_CTRL's with the nibble `h`. -/
def namedWrites (p : Params) (h : BitVec 4) : List (Instr × Addr × Byte) :=
  [(.wrPowerUpReset, p.addrPowerUpReset, p.cmdReset), (.wrSromLoad, p.addrSromEnable, p.cmdSromLoad),
   (.wrSromVerify, p.addrSromEnable, p.cmdSromVerify), (.wrLaserCtrl h, p.addrLaserCtrl, laserData h)]

theorem laserData_highNibble {d : Byte} (h : d.extractLsb' 0 4 = 0#4) : laserData (d.extractLsb' 4 4) = d := by
  revert d
  decide +kernel

/-- The row of a write frame is generic, or a named one of this address and data. -/
theorem nameWrite_cases (p : Params) (a : Addr) (d : Byte) :
    nameWrite p a d = .frameW a d ∨ (nameWrite p a d, a, d) ∈ namedWrites p (d.extractLsb' 4 4) := by
  unfold nameWrite
  split_ifs with h1 h2 h3 h4
  · simp [namedWrites, h1]
  · simp [namedWrites, h2]
  · simp [namedWrites, h3]
  · simp [namedWrites, h4, laserData_highNibble]
  · exact .inl rfl

/-- One more named row before the others: the row is that one, or is found among the others. -/
theorem nameRead_ite {p : Params} {a a' : Addr} {d : Byte} {i j : Instr} (hi : (i, a') ∈ namedReads p)
    (hj : j = .frameR a d ∨ (j, a) ∈ namedReads p) :
    (if a = a' then i else j) = .frameR a d ∨ ((if a = a' then i else j), a) ∈ namedReads p := by
  split
  · next h => exact .inr (h ▸ hi)
  · exact hj

/-- The row of a read frame with the dummy byte is generic, or a named one of this address. -/
theorem nameRead_dummyByte_cases (p : Params) (a : Addr) :
    nameRead p a p.dummyByte = .frameR a p.dummyByte ∨ (nameRead p a p.dummyByte, a) ∈ namedReads p := by
  unfold nameRead
  rw [if_neg (not_not.mpr rfl)]
  repeat' refine nameRead_ite (by simp [namedReads]) ?_
  exact .inl rfl

/-- The row of a read frame is generic, or a named one of this address, and then the data byte is the dummy byte. -/
theorem nameRead_cases (p : Params) (a : Addr) (d : Byte) :
    nameRead p a d = .frameR a d ∨ d = p.dummyByte ∧ (nameRead p a d, a) ∈ namedReads p := by
  by_cases hd : d = p.dummyByte
  · subst hd
    exact (nameRead_dummyByte_cases p a).imp_right (.intro rfl)
  · exact .inl (if_pos hd)

/-! ### Decoding what was encoded (R90 to R98, R100) -/

/-- A two-byte write frame fits where it is no burst (R97). -/
theorem operandsOk_frameW {p : Params} {a : Addr} {d : Byte} :
    (Instr.frameW a d).operandsOk p = true ↔ ¬ (a = p.addrSromBurst ∧ p.fw.length = 1) := by
  show (!(a == p.addrSromBurst && p.fw.length == 1)) = true ↔ _
  simp [imp_iff_not_or]

theorem decode_writeBytes {p : Params} {a : Addr} (d : Byte) (h : (Instr.frameW a d).operandsOk p = true) :
    decode p (writeBytes p a d) = .ok (nameWrite p a d) := by
  have hb : ¬ (markW p a = markW p p.addrSromBurst ∧ [d].length = p.fw.length) := fun ⟨ha, hl⟩ =>
    operandsOk_frameW.mp h ⟨markW_inj ha, hl.symm⟩
  simp only [writeBytes, decode, decodeFrame]
  rw [if_neg hb, if_pos (markerOf_markW p a), addrOf_markW]

theorem decode_read (p : Params) (a : Addr) (d : Byte) :
    decode p (.frame [markR p a, d]) = .ok (nameRead p a d) := by
  have hm : markerOf (markR p a) ≠ p.writeMarker := by rw [markerOf_markR]; exact Bool.not_ne_self _
  simp only [decode, decodeFrame]
  rw [if_neg fun h => markW_ne_markR p _ _ h.1.symm, if_neg hm, addrOf_markR]

theorem decode_burst {p : Params} {bytes : List Byte} (h : bytes.length = p.fw.length) :
    decode p (.frame (markW p p.addrSromBurst :: bytes)) = .ok (nameBurst p bytes) :=
  if_pos ⟨rfl, h⟩

theorem delayOfCode_delayCode (d : DelayName) : delayOfCode (delayCode d) = some d := by
  cases d <;> rfl

theorem addrOperand_addrByte {i : Instr} (id : Byte) (a : Addr) : addrOperand i id (addrByte a) = .ok i :=
  if_pos (markerOf_append false a)

theorem addrOf_addrByte (a : Addr) : addrOf (addrByte a) = a := addrOf_append false a

/-- Where the operands fit their frame, decoding an instruction's word gives its canonical spelling. -/
theorem decode_encode {p : Params} {i : Instr} (h : i.operandsOk p = true) : decode p (encode p i) = .ok (canon p i) := by
  cases i with
  | frameW a d => exact decode_writeBytes d h
  | wrPowerUpReset => exact decode_writeBytes p.cmdReset h
  | wrSromLoad => exact decode_writeBytes p.cmdSromLoad h
  | wrSromVerify => exact decode_writeBytes p.cmdSromVerify h
  | wrLaserCtrl n => exact decode_writeBytes (laserData n) h
  | frameB bytes => exact decode_burst (eq_of_beq h)
  | burstSrom => exact (decode_burst rfl).trans (congrArg Except.ok (if_pos rfl))
  | delay d => simp [encode, decode, decodeOp, delayOfCode_delayCode, oneOperand, canon]
  | wrreg a v => simp [encode, decode, decodeOp, addrOperand_addrByte, addrOf_addrByte, canon]
  | rdreg a => simp [encode, decode, decodeOp, addrOperand_addrByte, addrOf_addrByte, canon]
  | frameR | rdMotion | rdDeltaXL | rdDeltaXH | rdDeltaYL | rdDeltaYH | rdProductId | rdInvProductId | rdCodeLo | rdCodeHi
  | rdLaserCtrl | rdRevisionId | rdObservation | rdSromId | rdConfigA | rdConfigB | rdConfigC | rdConfigD =>
    exact decode_read p _ _
  | _ => rfl

/-- Settles O37: a well-formed instruction is its own canonical spelling. -/
theorem decodeEncodeRoundTrip : Obligations.DecodeEncodeRoundTrip := by
  intro p i h
  obtain ⟨hfits, hcanon⟩ := Bool.and_eq_true_iff.mp h
  rw [decode_encode hfits, eq_of_beq hcanon]

/-! ### Encoding what was decoded (R97, R99, R100) -/

theorem encode_namedWrite {p : Params} {h : BitVec 4} {iad : Instr × Addr × Byte} (hm : iad ∈ namedWrites p h) :
    encode p iad.1 = writeBytes p iad.2.1 iad.2.2 := by
  fin_cases hm <;> rfl

theorem encode_namedRead {p : Params} {ia : Instr × Addr} (hm : ia ∈ namedReads p) : encode p ia.1 = readBytes p ia.2 := by
  fin_cases hm <;> rfl

theorem encode_nameWrite (p : Params) (a : Addr) (d : Byte) : encode p (nameWrite p a d) = writeBytes p a d := by
  rcases nameWrite_cases p a d with h | h
  · rw [h, encode]
  · exact encode_namedWrite h

theorem encode_nameRead (p : Params) (a : Addr) (d : Byte) : encode p (nameRead p a d) = .frame [markR p a, d] := by
  rcases nameRead_cases p a d with h | ⟨rfl, h⟩
  · rw [h, encode]
  · exact encode_namedRead h

theorem encode_nameBurst (p : Params) (bytes : List Byte) :
    encode p (nameBurst p bytes) = .frame (markW p p.addrSromBurst :: bytes) := by
  unfold nameBurst
  split
  · next h => rw [h, encode]
  · rfl

theorem encode_of_decodeFrame {p : Params} {bytes : List Byte} {i : Instr} (h : decodeFrame p bytes = .ok i) :
    encode p i = .frame bytes := by
  unfold decodeFrame at h
  split at h
  · cases h
    rfl
  · next b rest =>
    split at h
    · next hb =>
      cases h
      rw [encode_nameBurst, hb.1]
    · split at h
      · split at h
        · next hm =>
          cases h
          rw [encode_nameWrite, writeBytes, markW_addrOf hm]
        · next hm =>
          cases h
          rw [encode_nameRead, markR_addrOf hm]
      · cases h

theorem addrByte_addrOf {x : Byte} (h : markerOf x = false) : addrByte (addrOf x) = x := by
  have := append_markerOf_addrOf x
  rwa [h] at this

theorem delayCode_of_delayOfCode {x : Byte} {d : DelayName} (h : delayOfCode x = some d) : delayCode d = x := by
  unfold delayOfCode at h
  split at h <;> cases h
  all_goals exact BitVec.eq_of_toNat_eq (Eq.symm ‹_›)

theorem noOperand_inv {i j : Instr} {id x y : Byte} (h : noOperand i id x y = .ok j) : j = i ∧ x = 0#8 ∧ y = 0#8 := by
  unfold noOperand at h
  split at h <;> cases h
  exact ⟨rfl, ‹_›⟩

theorem oneOperand_inv {i j : Instr} {id y : Byte} (h : oneOperand i id y = .ok j) : j = i ∧ y = 0#8 := by
  unfold oneOperand at h
  split at h <;> cases h
  exact ⟨rfl, ‹_›⟩

theorem addrOperand_inv {i j : Instr} {id x : Byte} (h : addrOperand i id x = .ok j) :
    j = i ∧ addrByte (addrOf x) = x := by
  unfold addrOperand at h
  split at h <;> cases h
  exact ⟨rfl, addrByte_addrOf ‹_›⟩

/-- A word of an operation without operands is that operation's word. -/
theorem encode_of_noOperand {p : Params} {i j : Instr} {id x y k : Byte} (hi : encode p i = .op k 0#8 0#8)
    (hid : id.toNat = k.toNat) (h : noOperand i id x y = .ok j) : encode p j = .op id x y := by
  obtain ⟨rfl, rfl, rfl⟩ := noOperand_inv h
  rw [hi, BitVec.eq_of_toNat_eq hid]

/-- The ids 3 to 6, 22 and 23 take operands, which their words carry; an id above 23 decodes to nothing. -/
theorem encode_of_decodeOp (p : Params) {id x y : Byte} {i : Instr} (h : decodeOp id x y = .ok i) :
    encode p i = .op id x y := by
  unfold decodeOp at h
  split at h
  case h_4 hid =>
    obtain ⟨rfl, rfl⟩ := oneOperand_inv h
    obtain rfl : id = 3#8 := BitVec.eq_of_toNat_eq hid
    rfl
  case h_5 hid =>
    split at h
    · next d hd =>
      obtain ⟨rfl, rfl⟩ := oneOperand_inv h
      obtain rfl : id = 4#8 := BitVec.eq_of_toNat_eq hid
      rw [encode, delayCode_of_delayOfCode hd]
    · cases h
  case h_6 hid =>
    obtain ⟨rfl, hx⟩ := addrOperand_inv h
    obtain rfl : id = 5#8 := BitVec.eq_of_toNat_eq hid
    rw [encode, hx]
  case h_7 hid =>
    split at h
    · next hy =>
      obtain ⟨rfl, hx⟩ := addrOperand_inv h
      obtain rfl : id = 6#8 := BitVec.eq_of_toNat_eq hid
      rw [encode, hx, hy]
    · cases h
  case h_23 hid =>
    obtain ⟨rfl, rfl⟩ := oneOperand_inv h
    obtain rfl : id = 22#8 := BitVec.eq_of_toNat_eq hid
    rfl
  case h_24 hid =>
    cases h
    obtain rfl : id = 23#8 := BitVec.eq_of_toNat_eq hid
    rfl
  case h_25 => cases h
  all_goals exact encode_of_noOperand rfl (by assumption) h

/-- Settles O38: each frame keeps its bytes, each operation its id and operands. -/
theorem encodeOfDecodedWord : Obligations.EncodeOfDecodedWord := by
  intro p w i h
  cases w with
  | frame bytes => exact encode_of_decodeFrame h
  | op id x y => exact encode_of_decodeOp p h

/-- Settles O40: the decoder run on the nine words. -/
theorem writtenOutWordsDecode : Obligations.WrittenOutWordsDecode := by
  unfold Obligations.WrittenOutWordsDecode
  decide +kernel

/-! ### One meaning per frame (R98, R101) -/

theorem finish_congr {α : Type} {op op' : Op α} (result : α → Ret) {s : State} (h : op s = op' s) :
    finish op result s = finish op' result s := by
  unfold finish
  rw [h]

/-- WR_LASER_CTRL is WRREG of the laser register with its nibble over a zero low nibble. -/
theorem exec_wrLaserCtrl (h : BitVec 4) (s : State) :
    exec (.wrLaserCtrl h) s = execWrreg s.cfg.addrLaserCtrl (laserData h) s :=
  finish_congr (fun _ => .none) (op_bind_ok (op_get_apply s))

/-- Each named write frame is WRREG of its row's address and data. -/
theorem exec_namedWrite {s : State} {h : BitVec 4} {iad : Instr × Addr × Byte} (hm : iad ∈ namedWrites s.cfg h) :
    exec iad.1 s = execWrreg iad.2.1 iad.2.2 s := by
  fin_cases hm
  · rfl
  · rfl
  · rfl
  · exact exec_wrLaserCtrl h s

theorem exec_nameWrite (s : State) (a : Addr) (d : Byte) : exec (nameWrite s.cfg a d) s = execWrreg a d s := by
  rcases nameWrite_cases s.cfg a d with h | h
  · rw [h]
    rfl
  · exact exec_namedWrite h

/-- RDREG is the read frame with the dummy byte (R143). -/
theorem execRdreg_eq_execFrameR (a : Addr) (s : State) : execRdreg a s = execFrameR a s.cfg.dummyByte s := by
  simp only [execRdreg, execFrameR, finish, singleReadReg_eq]

theorem exec_nameRead (s : State) (a : Addr) (d : Byte) : exec (nameRead s.cfg a d) s = execFrameR a d s := by
  rcases nameRead_cases s.cfg a d with h | ⟨rfl, h⟩
  · rw [h]
    rfl
  · rw [exec_namedRead h, execRdreg_eq_execFrameR]

theorem exec_nameBurst (s : State) (bytes : List Byte) : exec (nameBurst s.cfg bytes) s = execFrameB bytes s := by
  unfold nameBurst
  split
  · next h => rw [h]; rfl
  · rfl

/-- Settles O39: the canonical spelling of a frame is the name of its address and data. -/
theorem canonicalSpellingRunsTheSame : Obligations.CanonicalSpellingRunsTheSame := by
  intro s i
  cases i with
  | frameW | wrPowerUpReset | wrSromLoad | wrSromVerify => exact exec_nameWrite s _ _
  | wrLaserCtrl h => exact (exec_nameWrite s _ _).trans (exec_wrLaserCtrl h s).symm
  | frameR a d => exact exec_nameRead s a d
  | frameB bytes => exact exec_nameBurst s bytes
  | rdMotion | rdDeltaXL | rdDeltaXH | rdDeltaYL | rdDeltaYH | rdProductId | rdInvProductId | rdCodeLo | rdCodeHi
  | rdLaserCtrl | rdRevisionId | rdObservation | rdSromId | rdConfigA | rdConfigB | rdConfigC | rdConfigD =>
    exact (exec_nameRead s _ _).trans (execRdreg_eq_execFrameR _ s).symm
  | _ => rfl

/-! ### The frames from idle lines (R93, R94, R98, R101) -/

/-- Settles O9: WRREG of the row's address and data completes. -/
theorem namedWriteFramesAreWrites : Obligations.NamedWriteFramesAreWrites := by
  intro s h hs
  have write (a : Addr) (v : Byte) : execWrreg a v s = answers (s.afterWrite a v) .none := finish_ok (writeReg_ok a v hs)
  exact ⟨write _ _, write _ _, write _ _, (exec_wrLaserCtrl h s).trans (write _ _)⟩

/-- Settles O10: RDREG of the row's address completes where the read is allowed. -/
theorem namedReadFramesAreReads : Obligations.NamedReadFramesAreReads := fun _ hs ia hm hr =>
  (exec_namedRead hm).trans (finish_ok (singleReadReg_ok ia.2 hs hr))

/-- Settles O14: the burst frame, of the bytes given and of the image, in closed form. -/
theorem burstFrameSendsItsBytesUnderOneSelect : Obligations.BurstFrameSendsItsBytesUnderOneSelect := fun _ bytes hs =>
  ⟨finish_ok (burstFrame_ok bytes hs), finish_ok (burstImage_ok hs)⟩

/-- Settles O13: the line events of an assert and a deassert, none of them a clock's. -/
theorem emptySelectCycleHasNoClock : Obligations.EmptySelectCycleHasNoClock := fun _ hs =>
  ⟨_, rfl, finish_ok (selectCycle_ok hs), finish_ok (selectCycle_ok hs)⟩

end Sys2Proof.Machine
end

section
/-! PROOF. On its own the block sends the listed frames and no others (30_encoding.md R98): each frame and each wait of its
operation lists is a listed transaction, and nothing else is added to T2. -/

namespace Sys2Proof.Machine

variable {α β : Type} {p : Params} {s t : State}

/-! ### A frame runs from idle lines only (R123) -/

/-- An operation that begins with SEL_ASSERT succeeds from idle lines only. -/
theorem assert_first_idle {f : Unit → Op α} {a : α} (h : (selAssert >>= f) s = .ok (a, t)) : s.Idle := by
  obtain ⟨_, _, ha, -⟩ := op_bind_inv h
  exact (selAssert_inv ha).1

theorem writeReg_inv {a : Addr} {v : Byte} {u : Unit} (h : writeReg a v s = .ok (u, t)) :
    s.Idle ∧ t = s.afterWrite a v := by
  have hi := assert_first_idle h
  rw [writeReg_ok a v hi] at h
  cases h
  exact ⟨hi, rfl⟩

theorem burstImage_inv {u : Unit} (h : burstImage s = .ok (u, t)) : s.Idle ∧ t = s.afterBurst s.cfg.fw := by
  have hi : s.Idle := assert_first_idle ((op_bind_ok (op_get_apply s)).symm.trans h)
  rw [burstImage_ok hi] at h
  cases h
  exact ⟨hi, rfl⟩

/-! ### Operations that send listed transactions only -/

/-- Under the parameters `p`, which stay, what T2 has gained is listed. -/
def SendsListed (p : Params) (s t : State) : Prop :=
  s.cfg = p → t.cfg = p ∧ ∃ ts, t.t2 = s.t2 ++ ts ∧ ∀ x ∈ ts, listedTxn p x

theorem SendsListed.silent (hc : t.cfg = s.cfg) (h2 : t.t2 = s.t2) : SendsListed p s t := fun hp =>
  ⟨hc.trans hp, [], by rw [h2, List.append_nil], nofun⟩

theorem SendsListed.one {x : Txn} (hx : listedTxn p x) (hc : t.cfg = s.cfg) (h2 : t.t2 = s.t2 ++ [x]) :
    SendsListed p s t := fun hp => ⟨hc.trans hp, [x], h2, fun _ hy => List.mem_singleton.mp hy ▸ hx⟩

theorem SendsListed.trans {u : State} (h : SendsListed p s t) (k : SendsListed p t u) : SendsListed p s u := by
  intro hp
  obtain ⟨ht, ts, h2, hts⟩ := h hp
  obtain ⟨hu, us, k2, hus⟩ := k ht
  refine ⟨hu, ts ++ us, by rw [k2, h2, List.append_assoc], fun x hx => ?_⟩
  exact (List.mem_append.mp hx).elim (hts x) (hus x)

theorem sendsListed_composes : Composes (SendsListed p) where
  refl _ := .silent rfl rfl
  trans := SendsListed.trans

/-- A register update sends nothing. -/
theorem sends_update {f : State → State} (h : ∀ s, (f s).cfg = s.cfg ∧ (f s).t2 = s.t2) :
    Keeps (SendsListed p) (update f) := .update fun s => .silent (h s).1 (h s).2

theorem sends_bind {x : Op α} {f : α → Op β} (hx : Keeps (SendsListed p) x) (hf : ∀ a, Keeps (SendsListed p) (f a)) :
    Keeps (SendsListed p) (x >>= f) := .bind sendsListed_composes hx hf

/-- What reads its parameters off the state reads `p`. -/
theorem sends_get {f : State → Op β} (h : ∀ u, Keeps (SendsListed u.cfg) (f u)) :
    Keeps (SendsListed p) (get >>= f) := by
  rintro s b t e rfl
  rw [op_bind_ok (op_get_apply s)] at e
  exact h s s b t e rfl

theorem sends_writeReg {a : Addr} {v : Byte} (h : listedTxn p (.write a v)) : Keeps (SendsListed p) (writeReg a v) := by
  intro s u t e
  obtain ⟨-, rfl⟩ := writeReg_inv e
  exact .one h rfl rfl

theorem sends_readReg {a : Addr} (h : ∀ v, listedTxn p (.read a v)) : Keeps (SendsListed p) (readReg a) := by
  intro s v t e
  obtain ⟨-, -, rfl⟩ := readReg_inv e
  exact .one (h _) rfl rfl

theorem sends_burstImage : Keeps (SendsListed p) burstImage := by
  rintro s u t e rfl
  obtain ⟨-, rfl⟩ := burstImage_inv e
  exact SendsListed.one (x := .burst _ _) ⟨rfl, rfl⟩ rfl rfl rfl

theorem sends_init : Keeps (SendsListed p) busInit := by
  intro s u t e
  rw [busInit_ok] at e
  cases e
  exact .one (x := .init) trivial rfl rfl

/-- A wait of the block's own lists; inside a frame it would be no transaction. -/
theorem sends_wait {d : DelayName} (h : listedTxn p (.wait d)) (hd : d ≠ .tInterTxn) : Keeps (SendsListed p) (delay d) := by
  intro s u t e
  obtain ⟨-, rfl⟩ | ⟨-, rfl⟩ := delay_inv e
  · exact .silent rfl rfl
  · exact .one h rfl (congrArg (s.t2 ++ ·) (waitTxn_other s hd))

/-- SEL_ASSERT and SEL_DEASSERT with no call between them send the empty select cycle (R94). -/
theorem sends_cycle {f : Unit → Op β} (hf : ∀ a, Keeps (SendsListed p) (f a)) :
    Keeps (SendsListed p) (selAssert >>= fun _ => selDeassert >>= f) := by
  intro s b t e
  obtain ⟨_, _, ha, e1⟩ := op_bind_inv e
  obtain ⟨-, rfl⟩ := selAssert_inv ha
  obtain ⟨_, _, hd, e2⟩ := op_bind_inv e1
  obtain ⟨-, rfl⟩ := selDeassert_inv hd
  exact SendsListed.trans (t := s.afterAssert.afterDeassert) (.one (x := .selCycle) trivial rfl rfl) (hf _ _ _ _ e2)

/-! ### The parts of the block's operation lists -/

/-- A listed read whose value a register update stores. -/
theorem sends_readStore {a : Addr} {g : Byte → State → State} {f : Byte → Op β} (h : ∀ v, listedTxn p (.read a v))
    (hg : ∀ v s, (g v s).cfg = s.cfg ∧ (g v s).t2 = s.t2) (hf : ∀ v, Keeps (SendsListed p) (f v)) :
    Keeps (SendsListed p) (readReg a >>= fun v => update (g v) >>= fun _ => f v) :=
  sends_bind (sends_readReg h) fun v => sends_bind (sends_update (hg v)) fun _ => hf v

theorem sends_pure (a : α) : Keeps (SendsListed p) (pure a) := .pure sendsListed_composes a

theorem sends_upload : Keeps (SendsListed p) upload :=
  sends_get fun _ => sends_bind (sends_writeReg (by simp [listedTxn])) fun _ =>
    sends_bind (sends_wait (by simp [listedTxn]) (by decide)) fun _ => sends_burstImage

theorem sends_verify : Keeps (SendsListed p) verify :=
  sends_get fun _ => sends_bind (sends_writeReg (by simp [listedTxn])) fun _ =>
    sends_bind (sends_wait (by simp [listedTxn]) (by decide)) fun _ =>
    sends_readStore (by simp [listedTxn]) (fun _ _ => ⟨rfl, rfl⟩) fun _ =>
    sends_readStore (by simp [listedTxn]) (fun _ _ => ⟨rfl, rfl⟩) fun _ => sends_pure _

theorem sends_dumpRegs {las : List (DumpLabel × Addr)} (h : ∀ la ∈ las, ∀ v, listedTxn p (.read la.2 v)) :
    Keeps (SendsListed p) (dumpRegs las) := by
  induction las with
  | nil => exact sends_pure ()
  | cons la rest ih =>
    obtain ⟨hla, hrest⟩ := List.forall_mem_cons.mp h
    exact sends_readStore hla (fun _ _ => ⟨rfl, rfl⟩) fun _ => sends_bind (sends_update fun _ => ⟨rfl, rfl⟩) fun _ => ih hrest

theorem sends_dump : Keeps (SendsListed p) dump :=
  sends_get fun _ => sends_dumpRegs (by simp [dumpList, listedTxn])

theorem sends_readyDump : Keeps (SendsListed p) readyDump := by
  unfold readyDump
  refine sends_get fun s => ?_
  split
  · exact sends_bind sends_dump fun _ => sends_bind (sends_update fun _ => ⟨rfl, rfl⟩) fun _ =>
      sends_update fun _ => ⟨rfl, rfl⟩
  · exact sends_update (f := State.setSeqpos 1) fun _ => ⟨rfl, rfl⟩

theorem sends_readSample : Keeps (SendsListed p) readSample :=
  sends_get fun _ =>
    sends_readStore (by simp [listedTxn]) (fun _ _ => ⟨rfl, rfl⟩) fun _ =>
    sends_readStore (by simp [listedTxn]) (fun _ _ => ⟨rfl, rfl⟩) fun _ =>
    sends_readStore (by simp [listedTxn]) (fun _ _ => ⟨rfl, rfl⟩) fun _ =>
    sends_readStore (by simp [listedTxn]) (fun _ _ => ⟨rfl, rfl⟩) fun _ =>
    sends_bind (sends_update fun _ => ⟨rfl, rfl⟩) fun _ => sends_update fun _ => ⟨rfl, rfl⟩

theorem sends_pollReady : Keeps (SendsListed p) pollReady :=
  sends_get fun _ => sends_readStore (by simp [listedTxn]) (fun _ _ => ⟨rfl, rfl⟩) fun _ =>
    sends_bind (sends_get fun _ => sends_pure _) fun _ =>
      .ite (sends_update fun _ => ⟨rfl, rfl⟩) (.ite sends_readSample (sends_pure ()))

theorem sends_poll : Keeps (SendsListed p) poll := sends_get fun _ => .ite sends_pollReady (sends_pure ())

theorem sends_testClear : Keeps (SendsListed p) testClear := by
  intro s a t e
  cases e
  exact .silent rfl rfl

theorem sends_loopIteration : Keeps (SendsListed p) loopIteration :=
  sends_bind sends_testClear fun _ => .ite sends_poll (sends_pure ())

/-- A check's outcome sends nothing. -/
theorem sends_check (ok : State → Bool) (d : DState) (r : Reason) (info : State → List Byte) :
    Keeps (SendsListed p) (update fun s => s.check (ok s) d r (info s)) :=
  sends_update fun s => by cases ok s <;> exact ⟨rfl, rfl⟩

/-- The byte of the laser write-back has a zero low nibble (R169). -/
theorem clearLowNibble_lowNibble (v : Byte) : (clearLowNibble v).extractLsb' 0 4 = 0#4 := by
  revert v
  decide +kernel

/-! ### The action of each Device State -/

/-- What a meaning sends is what its operation sends. -/
theorem SendsListed.of_finish {op : Op α} {result : α → Ret} (hop : ∀ p, Keeps (SendsListed p) op)
    (h : finish op result s = .next t) : SendsListed p s t := by
  obtain ⟨a, u, e, rfl⟩ := finish_inv h
  exact hop p s a u e

/-- A guard sends nothing. -/
theorem sends_guard {ok : DState → Bool} {body : Op Unit} (h : Keeps (SendsListed p) body) :
    Keeps (SendsListed p) (requireState ok >>= fun _ => body) :=
  sends_bind (.require sendsListed_composes _ _) fun _ => h

theorem sends_stReset (p : Params) : Keeps (SendsListed p) stReset :=
  sends_guard <| sends_get fun _ => sends_bind sends_init fun _ => sends_cycle fun _ =>
    sends_bind (sends_writeReg (by simp [listedTxn])) fun _ => sends_update fun _ => ⟨rfl, rfl⟩

theorem sends_stPowerup (p : Params) : Keeps (SendsListed p) stPowerup :=
  sends_guard <| sends_bind (sends_wait (by simp [listedTxn]) (by decide)) fun _ => sends_update fun _ => ⟨rfl, rfl⟩

theorem sends_stDrain (p : Params) : Keeps (SendsListed p) stDrain :=
  sends_guard <| sends_get fun _ =>
    sends_bind (sends_readReg (by simp [listedTxn])) fun _ => sends_bind (sends_readReg (by simp [listedTxn])) fun _ =>
    sends_bind (sends_readReg (by simp [listedTxn])) fun _ => sends_bind (sends_readReg (by simp [listedTxn])) fun _ =>
    sends_bind (sends_readReg (by simp [listedTxn])) fun _ => sends_update fun _ => ⟨rfl, rfl⟩

theorem sends_stFwupload (p : Params) : Keeps (SendsListed p) stFwupload :=
  sends_guard <| sends_bind sends_upload fun _ => sends_update fun _ => ⟨rfl, rfl⟩

theorem sends_stPidcheck (p : Params) : Keeps (SendsListed p) stPidcheck :=
  sends_guard <| sends_get fun _ => sends_readStore (by simp [listedTxn]) (fun _ _ => ⟨rfl, rfl⟩) fun _ =>
    sends_check _ _ _ _

theorem sends_stIpidcheck (p : Params) : Keeps (SendsListed p) stIpidcheck :=
  sends_guard <| sends_get fun _ => sends_readStore (by simp [listedTxn]) (fun _ _ => ⟨rfl, rfl⟩) fun _ =>
    sends_check _ _ _ _

theorem sends_stIntegrity (p : Params) : Keeps (SendsListed p) stIntegrity :=
  sends_guard <| sends_bind sends_verify fun _ => sends_check _ _ _ _

theorem sends_stLasercfg (p : Params) : Keeps (SendsListed p) stLasercfg :=
  sends_guard <| sends_get fun _ => sends_readStore (by simp [listedTxn]) (fun _ _ => ⟨rfl, rfl⟩) fun v =>
    sends_bind (sends_writeReg (by simp [listedTxn, clearLowNibble_lowNibble v])) fun _ => sends_update fun _ => ⟨rfl, rfl⟩

theorem sends_stReady (p : Params) : Keeps (SendsListed p) stReady :=
  sends_guard <| sends_get fun _ => .ite sends_readyDump sends_loopIteration

theorem sends_stFailed (p : Params) : Keeps (SendsListed p) stFailed := sends_guard sends_loopIteration

theorem exec_hardwired_sends {d : DState} (h : exec (hardwired d) s = .next t) : SendsListed p s t := by
  cases d with
  | reset => exact .of_finish sends_stReset h
  | powerUp => exact .of_finish sends_stPowerup h
  | drain => exact .of_finish sends_stDrain h
  | firmwareUpload => exact .of_finish sends_stFwupload h
  | productIdCheck => exact .of_finish sends_stPidcheck h
  | inverseIdCheck => exact .of_finish sends_stIpidcheck h
  | integrityCheck => exact .of_finish sends_stIntegrity h
  | laserConfig => exact .of_finish sends_stLasercfg h
  | ready => exact .of_finish sends_stReady h
  | failed r => exact .of_finish sends_stFailed h

/-- Settles O60: with nothing called, the step is the action of the Device State, and the event source sends nothing. The
lines need no premise, because a frame that runs at all runs from idle lines. -/
theorem blockSendsOnlyTheListedFrames : Obligations.BlockSendsOnlyTheListedFrames := by
  intro s t ⟨hb, _⟩ h
  obtain ⟨-, i, u, v, hf, he, rfl⟩ := step_inv h
  rw [fetch_hardwired hb] at hf
  cases hf
  obtain ⟨-, hts⟩ := exec_hardwired_sends he rfl
  rwa [eventMove_t2]

end Sys2Proof.Machine
end

section
/-! PROOF. The Bus Primitive (40_bus_primitive.md R120 to R129): what its five operations do where their preconditions hold,
the one refusal each has where they do not, and that an operation which begins with a frame has SEL_ASSERT's (R123). -/

namespace Sys2Proof.Machine

variable {α β : Type} {s t : State} {r : Refusal}

/-! ### The preconditions of the lines (R123, R127) -/

/-- An operation whose first part is refused is refused. -/
theorem op_bind_refused {x : Op α} {f : α → Op β} (h : x s = .error r) : (x >>= f) s = .error r := by
  rw [op_bind_apply, h]

/-- The refusal where select is not at the level required. -/
def selectRefusal (level : Bool) : Refusal := if level then .selectNotHigh else .selectNotLow

/-- What an operation that needs select at `level` is refused with: the first unmet condition names it (log entry 22). -/
inductive Misused (level : Bool) (s : State) : Refusal → Prop where
  | lines (hl : s.linesCfg = false) : Misused level s .linesNotConfigured
  | select (hl : s.linesCfg = true) (hs : s.sel ≠ some level) : Misused level s (selectRefusal level)
  | clock (hl : s.linesCfg = true) (hs : s.sel = some level) (hc : s.clk ≠ some false) : Misused level s .clockNotLow

/-- Misuse is a matter of the lines only. -/
theorem Misused.of_lines {level : Bool} (h : Misused level s r) (h1 : t.linesCfg = s.linesCfg) (h2 : t.sel = s.sel)
    (h3 : t.clk = s.clk) : Misused level t r := by
  cases h with
  | lines hl => exact .lines (h1.trans hl)
  | select hl hs => exact .select (h1.trans hl) (h2 ▸ hs)
  | clock hl hs hc => exact .clock (h1.trans hl) (h2.trans hs) (h3 ▸ hc)

theorem requireSel_refuses {level : Bool} (h : s.sel ≠ some level) :
    require (fun s => s.sel == some level) r s = .error r :=
  require_refuses (by simpa using h)

theorem requireClockLow_refuses (h : s.clk ≠ some false) : requireClockLow s = .error .clockNotLow :=
  require_refuses (by simpa using h)

/-- Lines and select are tested first; what follows begins with the test of the clock. -/
theorem preconditions_refuse {level : Bool} {op : Op α} (h : Misused level s r)
    (hop : s.clk ≠ some false → op s = .error .clockNotLow) :
    (requireLines >>= fun _ => require (fun s => s.sel == some level) (selectRefusal level) >>= fun _ => op) s =
      .error r := by
  cases h with
  | lines hl => exact op_bind_refused (require_refuses hl)
  | select hl hs => rw [op_bind_ok (requireLines_ok hl), op_bind_refused (requireSel_refuses hs)]
  | clock hl hs hc => rw [op_bind_ok (requireLines_ok hl), op_bind_ok (requireSel_ok hs), hop hc]

theorem requireIdle_refuses (h : Misused true s r) : requireIdle s = .error r :=
  preconditions_refuse h requireClockLow_refuses

theorem selAssert_refuses (h : Misused true s r) : selAssert s = .error r :=
  op_bind_refused (requireIdle_refuses h)

theorem selDeassert_refuses (h : Misused false s r) : selDeassert s = .error r :=
  preconditions_refuse h fun hc => op_bind_refused (requireClockLow_refuses hc)

theorem xfer_refuses (out : Byte) (h : Misused false s r) : xfer out s = .error r :=
  preconditions_refuse h fun hc => op_bind_refused (requireClockLow_refuses hc)

/-- Settles O3: each clause is one way to misuse the lines. -/
theorem misusedBusPrimitivesAreRefused : Obligations.MisusedBusPrimitivesAreRefused := by
  intro s out
  have assert {r : Refusal} (h : Misused true s r) : exec .selAssert s = .refused r := finish_refused (selAssert_refuses h)
  have inFrame {r : Refusal} (h : Misused false s r) : exec .selDeassert s = .refused r ∧ exec (.xfer out) s = .refused r :=
    ⟨finish_refused (selDeassert_refuses h), finish_refused (xfer_refuses out h)⟩
  exact ⟨fun hl => ⟨assert (.lines hl), inFrame (.lines hl)⟩, fun hl hs => assert (.select hl hs),
    fun hl hs => inFrame (.select hl hs),
    fun hl hc => ⟨fun hs => assert (.clock hl hs hc), fun hs => inFrame (.clock hl hs hc)⟩⟩

/-! ### The five operations in closed form (R120, R121, R122, R124, R128) -/

/-- Settles O1: INIT runs from every state. -/
theorem initConfiguresAndIdlesTheLines : Obligations.InitConfiguresAndIdlesTheLines := fun s =>
  finish_ok (result := fun _ => .none) (busInit_ok s)

/-- Settles O2: the closed forms of the two select operations. -/
theorem selectEdgesMoveSelWithDelays : Obligations.SelectEdgesMoveSelWithDelays :=
  ⟨fun _ hs => finish_ok (selAssert_ok hs), fun _ hs => finish_ok (selDeassert_ok hs)⟩

/-- Bit `7 - j` of the next in byte is sample `j` (R124). -/
theorem inByte_getLsbD (s : State) {j : Nat} (h : j < 8) : (s.inByte 0).getLsbD (7 - j) = s.sampleAt j := by
  have hj : 8 * 0 + (7 - (7 - j)) = j := by omega
  rw [State.inByte, byteIn, byteOf_getLsbD _ _ (by omega), hj, State.sampleAt]

/-- Settles O4: the in byte is the next eight samples, and the line events are those of the eight periods in order. -/
theorem xferExchangesOneByteMsbFirst : Obligations.XferExchangesOneByteMsbFirst := by
  intro s out hs
  refine ⟨s.inByte 0, fun j hj => inByte_getLsbD s hj, (finish_ok (xfer_ok out hs)).trans ?_⟩
  simp [State.afterXfer, State.traced, State.shifted, State.taken, Call.events, hs.2.2]

/-- The trailing delay of a write or read frame belongs to the frame's event (R142, R144). -/
theorem waitTxn_trailing {p : DelayName} (h : p = .tInterTxn ∧ s.JustClosedAccess) : waitTxn s p = [] :=
  if_pos (h.imp_right (endsInAccess_iff s).mpr)

theorem waitTxn_not_trailing {p : DelayName} (h : ¬ (p = .tInterTxn ∧ s.JustClosedAccess)) : waitTxn s p = [.wait p] :=
  if_neg fun hp => h (hp.imp_right (endsInAccess_iff s).mp)

/-- Settles O5: inside a frame the delay joins the frame; outside T2 gains what `waitTxn` says. -/
theorem delayLogsItsParameter : Obligations.DelayLogsItsParameter := by
  intro s p
  have outside (hs : s.sel ≠ some false) : exec (.delay p) s = .next { s.afterDelayOut p with ret := .none } :=
    finish_ok (result := fun _ => .none) (delay_outside p hs)
  refine ⟨fun hs => finish_ok (result := fun _ => .none) (delay_inside p hs), fun hs hp => ?_, fun hs hp => ?_⟩
  · rw [outside hs, State.afterDelayOut, waitTxn_trailing hp, List.append_nil]
    rfl
  · rw [outside hs, State.afterDelayOut, waitTxn_not_trailing hp]
    rfl

/-! ### What the five operations leave unchanged (R129) -/

/-- `s` with the lines, SR, BITCNT, the traces, the samples to come and the result of `b`. -/
def State.withBusOf (s b : State) : State :=
  { s with
    linesCfg := b.linesCfg, sel := b.sel, clk := b.clk, dout := b.dout, sr := b.sr, bitcnt := b.bitcnt,
    t0 := b.t0, t1 := b.t1, t2 := b.t2, frame := b.frame, din := b.din, dinCount := b.dinCount, ret := b.ret }

/-- A Bus Primitive operation that answers a next state changes what belongs to the bus, and nothing else. -/
theorem exec_busPrimitive_inv {i : Instr}
    (hi : i = .init ∨ i = .selAssert ∨ i = .selDeassert ∨ (∃ o, i = .xfer o) ∨ (∃ p, i = .delay p))
    (h : exec i s = .next t) : t = s.withBusOf t := by
  rcases hi with rfl | rfl | rfl | ⟨o, rfl⟩ | ⟨p, rfl⟩
  · cases (initConfiguresAndIdlesTheLines s).symm.trans h
    rfl
  · obtain ⟨_, _, e, rfl⟩ := finish_inv h
    obtain ⟨-, rfl⟩ := selAssert_inv e
    rfl
  · obtain ⟨_, _, e, rfl⟩ := finish_inv h
    obtain ⟨-, rfl⟩ := selDeassert_inv e
    rfl
  · obtain ⟨_, _, e, rfl⟩ := finish_inv h
    obtain ⟨-, rfl, rfl⟩ := xfer_inv e
    rfl
  · obtain ⟨_, _, e, rfl⟩ := finish_inv (op := delay p) (result := fun _ => .none) h
    obtain ⟨-, rfl⟩ | ⟨-, rfl⟩ := delay_inv e <;> rfl

/-- Settles O6: none of the listed registers belongs to the bus, and the flags decode one of them. -/
theorem busPrimitivesTouchOnlyTheBus : Obligations.BusPrimitivesTouchOnlyTheBus := by
  intro i s t hi h
  rw [exec_busPrimitive_inv hi h]
  exact ⟨rfl, rfl, rfl, rfl, rfl, rfl, rfl, rfl, rfl, rfl, rfl, rfl, rfl, rfl, rfl, rfl, rfl, rfl, rfl, rfl, rfl, rfl, rfl,
    rfl⟩

/-! ### Operations that begin with a frame (R90, R123) -/

/-- Where the lines are not idle the operation is refused as SEL_ASSERT is. -/
def AssertFirst (op : Op α) : Prop := ∀ s r, Misused true s r → op s = .error r

theorem AssertFirst.bind {x : Op α} {f : α → Op β} (hx : AssertFirst x) : AssertFirst (x >>= f) := fun s r h =>
  op_bind_refused (hx s r h)

theorem AssertFirst.get {f : State → Op β} (hf : ∀ u, AssertFirst (f u)) : AssertFirst (get >>= f) := fun s r h =>
  (op_bind_ok (op_get_apply s)).trans (hf s s r h)

theorem assertFirst_selAssert : AssertFirst selAssert := fun _ _ => selAssert_refuses

theorem assertFirst_writeReg (a : Addr) (v : Byte) : AssertFirst (writeReg a v) := .bind assertFirst_selAssert

theorem assertFirst_readReg (a : Addr) : AssertFirst (readReg a) := .get fun _ => .bind assertFirst_selAssert

theorem assertFirst_singleRead (a : Addr) (d : Byte) : AssertFirst (singleRead a d) :=
  .bind fun _ _ => requireIdle_refuses

theorem assertFirst_singleReadReg (a : Addr) : AssertFirst (singleReadReg a) := .get fun _ => assertFirst_singleRead a _

theorem assertFirst_selectCycle : AssertFirst selectCycle := .bind assertFirst_selAssert

theorem assertFirst_burstFrame (bytes : List Byte) : AssertFirst (burstFrame bytes) := .bind assertFirst_selAssert

theorem assertFirst_burstImage : AssertFirst burstImage := .get fun _ => assertFirst_burstFrame _

theorem assertFirst_upload : AssertFirst upload := .get fun _ => .bind (assertFirst_writeReg _ _)

theorem assertFirst_verify : AssertFirst verify := .get fun _ => .bind (assertFirst_writeReg _ _)

theorem assertFirst_dump : AssertFirst dump := .get fun _ => .bind (assertFirst_readReg _)

theorem assertFirst_pollReady : AssertFirst pollReady := .get fun _ => .bind (assertFirst_readReg _)

/-- In its own Device State an action is refused as its list is. -/
theorem guarded_refuses_assert {d : DState} {body : Op α} (hb : AssertFirst body) (hd : (s.dstate == d) = true)
    (h : Misused true s r) : (requireState (· == d) >>= fun _ => body) s = .error r :=
  (op_bind_ok (requireState_ok hd)).trans (hb s r h)

theorem poll_refuses (hd : s.dstate = .ready) (h : Misused true s r) : poll s = .error r := by
  unfold poll
  rw [op_bind_ok (op_get_apply s), if_pos hd]
  exact assertFirst_pollReady s r h

/-- A loop iteration of Ready that polls (R180): TESTCLR leaves the lines as they are. -/
theorem loopIteration_refuses (hd : s.dstate = .ready) (hp : s.pend = true) (h : Misused true s r) :
    loopIteration s = .error r := by
  have htest : testClear s = .ok (true, { s with pend := false }) := by rw [← hp]; rfl
  unfold loopIteration
  rw [op_bind_ok htest, if_pos rfl]
  exact poll_refuses hd (h.of_lines rfl rfl rfl)

/-- The dump element of Ready, where it dumps (R170). -/
theorem readyDump_refuses (hdump : (s.cfg.dumpEnable && !s.dumped) = true) (h : Misused true s r) :
    readyDump s = .error r := by
  unfold readyDump
  rw [op_bind_ok (op_get_apply s), if_pos hdump]
  exact op_bind_refused (assertFirst_dump s r h)

theorem stReady_refuses (hi : startsAFrame s .stReady = true) (h : Misused true s r) : stReady s = .error r := by
  obtain ⟨hd, hrun⟩ := Bool.and_eq_true_iff.mp hi
  unfold stReady
  rw [op_bind_ok (requireState_ok hd), op_bind_ok (op_get_apply s)]
  split_ifs at hrun ⊢ with hpos
  · exact readyDump_refuses hrun h
  · exact loopIteration_refuses (eq_of_beq hd) hrun h

theorem exec_refuses_of_startsAFrame {i : Instr} (hi : startsAFrame s i = true) (h : Misused true s r) :
    exec i s = .refused r := by
  cases i with
  | frameW | wrreg | wrPowerUpReset | wrSromLoad | wrSromVerify => exact finish_refused (assertFirst_writeReg _ _ s r h)
  | wrLaserCtrl n =>
    have hw : AssertFirst (writeLaser n) := .get fun _ => assertFirst_writeReg _ _
    exact finish_refused (hw s r h)
  | frameR => exact finish_refused (assertFirst_singleRead _ _ s r h)
  | rdreg | rdMotion | rdDeltaXL | rdDeltaXH | rdDeltaYL | rdDeltaYH | rdProductId | rdInvProductId | rdCodeLo | rdCodeHi
  | rdLaserCtrl | rdRevisionId | rdObservation | rdSromId | rdConfigA | rdConfigB | rdConfigC | rdConfigD =>
    exact finish_refused (assertFirst_singleReadReg _ s r h)
  | frameZ | selCycle => exact finish_refused (assertFirst_selectCycle s r h)
  | frameB => exact finish_refused (assertFirst_burstFrame _ s r h)
  | burstSrom => exact finish_refused (assertFirst_burstImage s r h)
  | upload => exact finish_refused (assertFirst_upload s r h)
  | verify => exact finish_refused (assertFirst_verify s r h)
  | dump => exact finish_refused (assertFirst_dump s r h)
  | poll => exact finish_refused (poll_refuses (eq_of_beq hi) h)
  | stFwupload => exact finish_refused (guarded_refuses_assert (.bind assertFirst_upload) hi h)
  | stDrain | stPidcheck | stIpidcheck | stLasercfg =>
    exact finish_refused (guarded_refuses_assert (.get fun _ => .bind (assertFirst_readReg _)) hi h)
  | stIntegrity => exact finish_refused (guarded_refuses_assert (.bind assertFirst_verify) hi h)
  | stReady => exact finish_refused (stReady_refuses hi h)
  | _ => cases hi

/-- Lines that are not idle are misused by SEL_ASSERT. -/
theorem exists_misused_of_not_idle (h : ¬ s.Idle) : ∃ r, Misused true s r := by
  by_cases hl : s.linesCfg = true
  · by_cases hs : s.sel = some true
    · exact ⟨_, .clock hl hs fun hc => h ⟨hl, hs, hc⟩⟩
    · exact ⟨_, .select hl hs⟩
  · exact ⟨_, .lines (Bool.eq_false_iff.mpr hl)⟩

theorem Misused.name_of_assert (h : Misused true s r) : r = .linesNotConfigured ∨ r = .selectNotHigh ∨ r = .clockNotLow := by
  cases h with
  | lines => exact .inl rfl
  | select => exact .inr (.inl rfl)
  | clock => exact .inr (.inr rfl)

/-- Settles O16: the operation and SEL_ASSERT are refused by the same test of the lines. -/
theorem framesNeedIdleLines : Obligations.FramesNeedIdleLines := by
  intro s i hi hidle
  obtain ⟨r, h⟩ := exists_misused_of_not_idle hidle
  exact ⟨r, h.name_of_assert, exec_refuses_of_startsAFrame hi h, finish_refused (selAssert_refuses h)⟩

end Sys2Proof.Machine
end

section
/-! PROOF. Register access (41_register_access.md R140 to R144): the line events of a W and of an R frame, counted call by
call, and the two frames from idle lines with their whole next state. -/

namespace Sys2Proof.Machine

/-! ### How many line events a call has (R121, R122, R124, R128) -/

@[simp] theorem events_assert_length : Call.assert.events.length = 3 := rfl

@[simp] theorem events_deassert_length : Call.deassert.events.length = 3 := rfl

@[simp] theorem events_delay_length (p : DelayName) : (Call.delay p).events.length = 1 := rfl

/-- Eight clock periods of six events each. -/
@[simp] theorem events_xfer_length (out inn : Byte) : (Call.xfer out inn).events.length = 48 := rfl

theorem eventsOf_writeCalls_length (p : Params) (a : Addr) (v i1 i2 : Byte) :
    (eventsOf (writeCalls p a v i1 i2)).length = 104 := by simp [writeCalls]

theorem eventsOf_readCalls_length (p : Params) (a : Addr) (d i1 v : Byte) :
    (eventsOf (readCalls p a d i1 v)).length = 104 := by simp [readCalls]

/-! ### The two frames from idle lines (R142, R144) -/

/-- Settles O7: the W frame is WRREG, and from idle lines WRREG answers `afterWrite`. -/
theorem writeFrameTrace : Obligations.WriteFrameTrace := by
  intro s a v hs
  have hw : execWrreg a v s = answers (s.afterWrite a v) .none := finish_ok (writeReg_ok a v hs)
  exact ⟨s.inByte 0, s.inByte 1, writeCalls s.cfg a v (s.inByte 0) (s.inByte 1), _, rfl, rfl, rfl,
    eventsOf_writeCalls_length _ _ _ _ _, rfl, hw, hw⟩

/-- Settles O8: where order and status allow the read, the R frame answers `afterReadFrame`, and RDREG is the R frame with
the dummy byte. -/
theorem readFrameTrace : Obligations.ReadFrameTrace := by
  intro s a d hs hr
  have hf : execFrameR a d s = answers (s.afterReadFrame a d) (.byte (s.inByte 1)) := finish_ok (singleRead_ok a d hs hr)
  refine ⟨s.inByte 0, s.inByte 1, readCalls s.cfg a d (s.inByte 0) (s.inByte 1), _, rfl, rfl, rfl,
    eventsOf_readCalls_length _ _ _ _ _, rfl, hf, fun hd => ?_⟩
  subst hd
  exact (execRdreg_eq_execFrameR a s).trans hf

end Sys2Proof.Machine
end

section
/-! PROOF. The firmware loader (42_firmware_loader.md R150 to R156): frames and waits one after the other in closed form, the
bytes a call trace sends, and which two bytes are the integrity code. -/

namespace Sys2Proof.Machine

variable {s : State}

/-! ### Frames one after the other (R40, R142, R144, R152) -/

/-- `s` after whole frames and waits that took `n` in bytes, the last byte out being `o`: the calls `cs`, the
transactions `ts`. -/
def State.afterFrames (s : State) (n : Nat) (o : Byte) (cs : List Call) (ts : List Txn) : State :=
  { (s.shifted n o).traced cs with t2 := s.t2 ++ ts, frame := [] }

theorem afterFrames_inByte (s : State) (n : Nat) (o : Byte) (cs : List Call) (ts : List Txn) (k : Nat) :
    (s.afterFrames n o cs ts).inByte k = s.inByte (n + k) :=
  inByte_taken s n k

theorem afterFrames_cfg (s : State) (n : Nat) (o : Byte) (cs : List Call) (ts : List Txn) :
    (s.afterFrames n o cs ts).cfg = s.cfg := rfl

/-- The bus registers are those of the bytes taken last. -/
theorem shifted_shifted (s : State) (n m : Nat) (o b : Byte) :
    (s.shifted n o).shifted (m + 1) b = s.shifted (n + (m + 1)) b := by
  have htaken : (s.taken (8 * n)).taken (8 * (m + 1)) = s.taken (8 * (n + (m + 1))) := by
    rw [taken_taken, ← Nat.mul_add]
  have hbyte : (s.shifted n o).inByte m = s.inByte (n + m) := inByte_taken s n m
  calc (s.shifted n o).shifted (m + 1) b
      = { (s.taken (8 * n)).taken (8 * (m + 1)) with
          sr := (s.shifted n o).inByte m, bitcnt := 0#4, dout := some (b.getLsbD 0) } := rfl
    _ = s.shifted (n + (m + 1)) b := by rw [htaken, hbyte]; rfl

theorem traced_traced (s : State) (cs ds : List Call) : (s.traced cs).traced ds = s.traced (cs ++ ds) := by
  simp only [State.traced, eventsOf_append, List.append_assoc]

/-- Frames after frames: the later ones take a byte at least, so the last byte out and SR are theirs. -/
theorem afterFrames_afterFrames (n m : Nat) (o b : Byte) (cs ds : List Call) (ts us : List Txn) :
    (s.afterFrames n o cs ts).afterFrames (m + 1) b ds us = s.afterFrames (n + (m + 1)) b (cs ++ ds) (ts ++ us) := by
  rw [State.afterFrames, State.afterFrames, State.afterFrames, ← shifted_shifted s n m o b, ← traced_traced,
    List.append_assoc]
  rfl

/-! Each frame, and a wait, as frames of its own and after frames. -/

theorem afterWrite_eq_afterFrames (a : Addr) (v : Byte) (s : State) :
    s.afterWrite a v = s.afterFrames 2 v (writeCalls s.cfg a v (s.inByte 0) (s.inByte 1)) [Txn.write a v] := rfl

theorem afterRead_eq_afterFrames (a : Addr) (s : State) :
    s.afterRead a =
      s.afterFrames 2 s.cfg.dummyByte (readCalls s.cfg a s.cfg.dummyByte (s.inByte 0) (s.inByte 1))
        [Txn.read a (s.inByte 1)] := rfl

theorem afterBurst_eq_afterFrames (bytes : List Byte) (s : State) :
    s.afterBurst bytes =
      (s.afterFrames (bytes.length + 1) (bytes.getLast?.getD (markW s.cfg s.cfg.addrSromBurst))
        (burstCalls s.cfg s.inByte bytes) [Txn.burst s.cfg.addrSromBurst bytes]).setFwidx bytes.length := rfl

theorem afterFrames_afterWait (n : Nat) (o : Byte) (cs : List Call) (ts : List Txn) (p : DelayName) :
    (s.afterFrames n o cs ts).afterWait p = s.afterFrames n o (cs ++ [Call.delay p]) (ts ++ [Txn.wait p]) := by
  simp only [State.afterWait, State.afterFrames, State.traced, eventsOf_append, List.append_assoc]

theorem afterFrames_afterRead (n : Nat) (o : Byte) (cs : List Call) (ts : List Txn) (a : Addr) :
    (s.afterFrames n o cs ts).afterRead a =
      s.afterFrames (n + 2) s.cfg.dummyByte
        (cs ++ readCalls s.cfg a s.cfg.dummyByte (s.inByte n) (s.inByte (n + 1)))
        (ts ++ [Txn.read a (s.inByte (n + 1))]) := by
  rw [afterRead_eq_afterFrames, afterFrames_afterFrames, afterFrames_inByte, afterFrames_inByte, afterFrames_cfg,
    Nat.add_zero n]

theorem burstDataCalls_offset (inn : Nat → Byte) (n : Nat) (bytes : List Byte) (k : Nat) :
    burstDataCalls (fun j => inn (n + j)) bytes k = burstDataCalls inn bytes (n + k) := by
  induction bytes generalizing k with
  | nil => rfl
  | cons b rest ih => simp only [burstDataCalls, ih, Nat.add_assoc]

theorem afterFrames_afterBurst (n : Nat) (o : Byte) (cs : List Call) (ts : List Txn) (bytes : List Byte) :
    (s.afterFrames n o cs ts).afterBurst bytes =
      (s.afterFrames (n + (bytes.length + 1)) (bytes.getLast?.getD (markW s.cfg s.cfg.addrSromBurst))
        (cs ++ burstCalls s.cfg (fun k => s.inByte (n + k)) bytes)
        (ts ++ [Txn.burst s.cfg.addrSromBurst bytes])).setFwidx bytes.length := by
  rw [afterBurst_eq_afterFrames, afterFrames_afterFrames, afterFrames_cfg, funext (afterFrames_inByte s n o cs ts)]

/-! ### UPLOAD and BURST_SROM (R151 to R153) -/

/-- UPLOAD's calls, with the in bytes to come (R152). -/
def State.uploadCalls (s : State) : List Call :=
  writeCalls s.cfg s.cfg.addrSromEnable s.cfg.cmdSromLoad (s.inByte 0) (s.inByte 1) ++ [Call.delay .tLoadSettle] ++
    [Call.assert, .xfer (markW s.cfg s.cfg.addrSromBurst) (s.inByte 2), .delay .tBurstByte] ++
    burstDataCalls s.inByte s.cfg.fw 3 ++ [Call.deassert]

/-- UPLOAD's transactions (R152). -/
def State.uploadTxns (s : State) : List Txn :=
  [.write s.cfg.addrSromEnable s.cfg.cmdSromLoad, .wait .tLoadSettle, .burst s.cfg.addrSromBurst s.cfg.fw]

theorem afterUpload_eq (s : State) :
    s.afterUpload = (s.afterFrames (3 + s.cfg.fw.length) (s.cfg.fw.getLast?.getD (markW s.cfg s.cfg.addrSromBurst))
      s.uploadCalls s.uploadTxns).setFwidx s.cfg.fw.length := by
  have hcount : 2 + (s.cfg.fw.length + 1) = 3 + s.cfg.fw.length := by omega
  rw [State.afterUpload, afterWrite_eq_afterFrames, afterFrames_afterWait, afterFrames_afterBurst, hcount,
    State.uploadCalls, ← burstDataCalls_offset s.inByte 2 s.cfg.fw 1]
  simp only [burstCalls, List.append_assoc]
  rfl

theorem burstDataCalls_length (inn : Nat → Byte) (bytes : List Byte) (k : Nat) :
    (burstDataCalls inn bytes k).length = 2 * bytes.length := by
  induction bytes generalizing k with
  | nil => rfl
  | cons b rest ih => simp only [burstDataCalls, List.length_cons, ih]; omega

theorem uploadCalls_length (s : State) : s.uploadCalls.length = 11 + 2 * s.cfg.fw.length := by
  simp only [State.uploadCalls, writeCalls, List.length_append, List.length_cons, List.length_nil, burstDataCalls_length]
  omega

/-- Settles O17: the three transactions of UPLOAD one after the other. -/
theorem uploadTrace : Obligations.UploadTrace := fun s hs =>
  ⟨_, s.uploadCalls, finish_ok (upload_ok hs), rfl, uploadCalls_length s, afterUpload_eq s⟩

theorem outBytes_append (cs ds : List Call) : outBytes (cs ++ ds) = outBytes cs ++ outBytes ds :=
  List.filterMap_append

/-- The data bytes of a burst, each sent once, in their order. -/
theorem outBytes_burstDataCalls (inn : Nat → Byte) (bytes : List Byte) (k : Nat) :
    outBytes (burstDataCalls inn bytes k) = bytes := by
  induction bytes generalizing k with
  | nil => rfl
  | cons b rest ih => exact congrArg (b :: ·) (ih (k + 1))

theorem outBytes_burstCalls (p : Params) (inn : Nat → Byte) (bytes : List Byte) :
    outBytes (burstCalls p inn bytes) = markW p p.addrSromBurst :: bytes := by
  rw [burstCalls, outBytes_append, outBytes_append, outBytes_burstDataCalls]
  exact List.append_nil _

theorem outBytes_uploadCalls (s : State) :
    outBytes s.uploadCalls =
      [markW s.cfg s.cfg.addrSromEnable, s.cfg.cmdSromLoad, markW s.cfg s.cfg.addrSromBurst] ++ s.cfg.fw := by
  rw [State.uploadCalls, outBytes_append, outBytes_append, outBytes_burstDataCalls]
  exact List.append_nil _

/-- Settles O15: the bytes out of the two operations' calls. -/
theorem burstSendsTheImageInOrder : Obligations.BurstSendsTheImageInOrder := fun s hs =>
  ⟨fun _ => rfl,
    ⟨_, burstCalls s.cfg s.inByte s.cfg.fw, finish_ok (burstImage_ok hs), rfl, outBytes_burstCalls _ _ _⟩,
    ⟨_, s.uploadCalls, finish_ok (upload_ok hs), congrArg State.t1 (afterUpload_eq s), outBytes_uploadCalls s⟩⟩

/-! ### VERIFY (R154 to R156) -/

/-- VERIFY's calls, with the in bytes to come (R155). -/
def State.verifyCalls (s : State) : List Call :=
  writeCalls s.cfg s.cfg.addrSromEnable s.cfg.cmdSromVerify (s.inByte 0) (s.inByte 1) ++ [Call.delay .tVerifySettle] ++
    readCalls s.cfg s.cfg.addrCodeLo s.cfg.dummyByte (s.inByte 2) s.codeLo ++
    readCalls s.cfg s.cfg.addrCodeHi s.cfg.dummyByte (s.inByte 4) s.codeHi

/-- VERIFY's transactions (R155). -/
def State.verifyTxns (s : State) : List Txn :=
  [.write s.cfg.addrSromEnable s.cfg.cmdSromVerify, .wait .tVerifySettle, .read s.cfg.addrCodeLo s.codeLo,
    .read s.cfg.addrCodeHi s.codeHi]

/-- The store of a code byte between two reads touches no part of the bus. -/
theorem setCodeLo_afterRead (v : Byte) (a : Addr) (s : State) :
    (s.setCodeLo v).afterRead a = (s.afterRead a).setCodeLo v := rfl

theorem afterVerify_eq (s : State) :
    s.afterVerify = ((s.afterFrames 6 s.cfg.dummyByte s.verifyCalls s.verifyTxns).setCodeLo s.codeLo).setCodeHi s.codeHi := by
  rw [State.afterVerify, afterWrite_eq_afterFrames, afterFrames_afterWait, afterFrames_afterRead, setCodeLo_afterRead,
    afterFrames_afterRead]
  rfl

/-- Settles O18: the four transactions of VERIFY one after the other, with both code bytes stored. -/
theorem verifyTraceAndVerdict : Obligations.VerifyTraceAndVerdict := fun s hs =>
  ⟨_, s.verifyCalls, finish_ok (verify_ok hs), rfl, rfl, afterVerify_eq s⟩

/-- A code is its two bytes, no bit of either left out (R154). -/
theorem codeOf_eq_iff {hi lo : Byte} {code : Half} :
    codeOf hi lo = code ↔ lo = code.extractLsb' 0 8 ∧ hi = code.extractLsb' 8 8 := by
  constructor
  · rintro rfl
    exact ⟨BitVec.extractLsb'_append_eq_right.symm, BitVec.extractLsb'_append_eq_left.symm⟩
  · rintro ⟨rfl, rfl⟩
    exact BitVec.extractLsb'_append_extractLsb'

/-- The default expected code (R156). -/
theorem codeOf_beef_iff {hi lo : Byte} : codeOf hi lo = 0xBEEF#16 ↔ lo = 0xEF#8 ∧ hi = 0xBE#8 :=
  codeOf_eq_iff

/-- ST_INTEGRITY in its state, from idle lines: VERIFY, then the check of its verdict (R167). -/
theorem stIntegrity_ok (hd : s.dstate = .integrityCheck) (hs : s.Idle) :
    stIntegrity s = .ok ((), s.afterVerify.check (codeOf s.codeHi s.codeLo == s.cfg.expectedCode) .laserConfig
      .integrityMismatch s.afterVerify.codeBytes) := by
  have hguard : requireState (· == .integrityCheck) s = .ok ((), s) := requireState_ok (beq_iff_eq.mpr hd)
  unfold stIntegrity
  rw [op_bind_ok hguard, op_bind_ok (verify_ok hs), update_apply]

/-- A check that does not hold ends in the failed state (R203). -/
theorem check_dstate_of_false {ok : Bool} (h : ok = false) (d : DState) (reason : Reason) (info : List Byte) (s : State) :
    (s.check ok d reason info).dstate = .failed reason := by
  subst h
  rfl

/-- Settles O19: the code is 0xBEEF for one pair of bytes only, and the check follows the verdict. -/
theorem onlyTheExpectedCodeVerifies : Obligations.OnlyTheExpectedCodeVerifies := by
  intro s hs hcode
  have hverdict : (codeOf s.codeHi s.codeLo == s.cfg.expectedCode) = decide (s.codeLo = 0xEF#8 ∧ s.codeHi = 0xBE#8) := by
    rw [hcode, beq_eq_decide, decide_eq_decide]
    exact codeOf_beef_iff
  refine ⟨⟨s.afterVerify, ?_⟩, fun hd hpair => ⟨_, finish_ok (stIntegrity_ok hd hs), ?_⟩⟩
  · rw [← hverdict]
    exact finish_ok (verify_ok hs)
  · exact check_dstate_of_false (hverdict.trans (decide_eq_false hpair)) _ _ _ _

end Sys2Proof.Machine
end

section
/-! PROOF. The actions of the Device States and the register dump (43_init_state_machine.md R160 to R172): in its own Device
State each ST_ operation answers the state its list leads to, in another it is refused. -/

namespace Sys2Proof.Machine

variable {s : State}

/-! ### What the actions share (R160, R203) -/

/-- In its own Device State an action passes its guard and runs its list. -/
theorem guarded_ok {d : DState} (body : Op Unit) (hd : s.dstate = d) :
    (requireState (· == d) >>= fun _ => body) s = body s :=
  op_bind_ok (guard_ok hd)

/-- An operation without a result that succeeds answers the state it leads to. -/
theorem answers_of_ok {op : Op Unit} {t : State} (h : op s = .ok ((), t)) :
    finish op (fun _ => .none) s = answers t .none :=
  finish_ok h

/-- The two answers of a check (R165 to R167): the entry into the next Device State, and the entry into the failure. -/
theorem answers_check {o : Host.Outcome State Fault Refusal} {t : State} {ok : Bool} {c : Prop} {d : DState}
    {reason : Reason} {info : List Byte} (ho : o = answers (t.check ok d reason info) .none) (hc : ok = true ↔ c) :
    (c → o = .next { t with dstate := d, seqpos := 0, ret := .none }) ∧
    (¬ c → o = .next { t with
      failinfo := some info, out := t.out ++ [.initFailed reason info], dstate := .failed reason, seqpos := 0,
      ret := .none }) := by
  subst ho
  refine ⟨fun h => ?_, fun h => ?_⟩
  · rw [State.check, if_pos (hc.mpr h)]
    rfl
  · rw [State.check, if_neg (mt hc.mp h)]
    rfl

/-- Two bytes differ in every bit exactly when one is the other's complement (R166). -/
theorem xor_eq_ff_iff {v w : Byte} : v ^^^ w = 0xFF#8 ↔ v = ~~~w := by
  rw [xor_eq_iff_left_eq, BitVec.xor_comm, ← BitVec.xor_allOnes]
  rfl

/-! ### From Reset to FirmwareUpload (R161 to R164) -/

/-- A select asserted and deasserted with no call between is the empty select cycle (R94). -/
theorem selDeassert_afterAssert (h : s.Idle) : selDeassert s.afterAssert = .ok ((), s.afterCycle) :=
  (op_bind_ok (selAssert_ok h)).symm.trans (selectCycle_ok h)

/-- Settles O20: INIT leaves idle lines whatever they were, and the select cycle and the write run from there. -/
theorem stResetRunsItsList : Obligations.StResetRunsItsList := by
  intro s hd
  have hi := afterInit_idle s
  refine answers_of_ok ?_
  rw [stReset, guarded_ok _ hd, op_bind_ok (op_get_apply s), op_bind_ok (busInit_ok s), op_bind_ok (selAssert_ok hi),
    op_bind_ok (selDeassert_afterAssert hi), op_bind_ok (writeReg_ok _ _ (afterCycle_idle hi)), update_apply]

/-- ST_POWERUP is its delay, then the move. -/
theorem exec_stPowerup {t : State} (hd : s.dstate = .powerUp) (h : delay .tPowerUp s = .ok ((), t)) :
    exec .stPowerup s = answers (t.goto .drain) .none := by
  refine answers_of_ok ?_
  rw [stPowerup, guarded_ok _ hd, op_bind_ok h, update_apply]

/-- Settles O21: the delay is a `Wait` where select is not asserted, and inside the open frame where it is. -/
theorem stPowerupOnlyWaits : Obligations.StPowerupOnlyWaits := by
  intro s hd
  refine ⟨fun hs => ?_, fun hs => ?_⟩
  · rw [exec_stPowerup hd (delay_wait hs (by decide))]
    simp [State.afterWait, State.goto, State.traced, Call.events]
  · rw [exec_stPowerup hd (delay_inside _ hs)]
    simp [State.afterDelayIn, State.goto, State.traced, Call.events]

/-- Settles O22: five reads from idle lines to idle lines, then the move. -/
theorem stDrainDiscardsFiveReads : Obligations.StDrainDiscardsFiveReads := by
  intro s hd h0
  have h1 := afterRead_idle s.cfg.addrMotion h0
  have h2 := afterRead_idle s.cfg.addrDeltaXL h1
  have h3 := afterRead_idle s.cfg.addrDeltaXH h2
  have h4 := afterRead_idle s.cfg.addrDeltaYL h3
  refine answers_of_ok ?_
  rw [stDrain, guarded_ok _ hd, op_bind_ok (op_get_apply s), op_bind_ok (readReg_ok _ h0), op_bind_ok (readReg_ok _ h1),
    op_bind_ok (readReg_ok _ h2), op_bind_ok (readReg_ok _ h3), op_bind_ok (readReg_ok _ h4), update_apply]

/-- Settles O23: UPLOAD, then the move; no register is looked at. -/
theorem stFwuploadUploadsUnconditionally : Obligations.StFwuploadUploadsUnconditionally := by
  intro s hd hs
  refine answers_of_ok ?_
  rw [stFwupload, guarded_ok _ hd, op_bind_ok (upload_ok hs), update_apply]

/-! ### The three checks (R165 to R167) -/

theorem exec_stPidcheck (hd : s.dstate = .productIdCheck) (hs : s.Idle) :
    exec .stPidcheck s = answers (((s.afterRead s.cfg.addrProductId).setPid (s.inByte 1)).check
      (s.inByte 1 == s.cfg.productIdExpected) .inverseIdCheck .productIdMismatch [s.inByte 1]) .none := by
  refine answers_of_ok ?_
  rw [stPidcheck, guarded_ok _ hd, op_bind_ok (op_get_apply s), op_bind_ok (readReg_ok _ hs),
    op_bind_ok (update_apply _ _), update_apply]

theorem exec_stIpidcheck (hd : s.dstate = .inverseIdCheck) (hs : s.Idle) :
    exec .stIpidcheck s = answers (((s.afterRead s.cfg.addrInvProductId).setIpid (s.inByte 1)).check
      (s.inByte 1 ^^^ s.hPid == 0xFF#8) .integrityCheck .inverseIdMismatch [s.inByte 1]) .none := by
  refine answers_of_ok ?_
  rw [stIpidcheck, guarded_ok _ hd, op_bind_ok (op_get_apply s), op_bind_ok (readReg_ok _ hs),
    op_bind_ok (update_apply _ _), update_apply]
  rfl

theorem afterVerify_out (s : State) : s.afterVerify.out = s.out := by
  rw [afterVerify_eq]
  rfl

theorem exec_stIntegrity (hd : s.dstate = .integrityCheck) (hs : s.Idle) :
    exec .stIntegrity s = answers (s.afterVerify.check (codeOf s.codeHi s.codeLo == s.cfg.expectedCode) .laserConfig
      .integrityMismatch [s.codeLo, s.codeHi]) .none :=
  finish_ok (stIntegrity_ok hd hs)

/-- Settles O24: the check is the comparison of the byte read with the expected id. -/
theorem stPidcheckComparesTheProductId : Obligations.StPidcheckComparesTheProductId := fun _ hd hs =>
  answers_check (exec_stPidcheck hd hs) beq_iff_eq

/-- Settles O25: the check is that the byte read and H_PID differ in every bit. -/
theorem stIpidcheckXorsWithTheProductId : Obligations.StIpidcheckXorsWithTheProductId := by
  intro s hd hs
  obtain ⟨hpass, hfail⟩ := answers_check (exec_stIpidcheck hd hs) beq_iff_eq
  refine ⟨hpass, hfail, fun h => ?_⟩
  rw [h, xor_eq_ff_iff]

/-- Settles O27: the check is VERIFY's verdict, and VERIFY emits nothing. -/
theorem stIntegrityVerifiesTheUpload : Obligations.StIntegrityVerifiesTheUpload := by
  intro s hd hs
  rw [← afterVerify_out s]
  exact answers_check (exec_stIntegrity hd hs) beq_iff_eq

/-! ### LaserConfig (R169) -/

/-- The laser write-back keeps the high nibble (R169). -/
theorem clearLowNibble_highNibble (v : Byte) : (clearLowNibble v).extractLsb' 4 4 = v.extractLsb' 4 4 := by
  revert v
  decide +kernel

theorem exec_stLasercfg (hd : s.dstate = .laserConfig) (hs : s.Idle) :
    exec .stLasercfg s = answers ((((s.afterRead s.cfg.addrLaserCtrl).setLaser (s.inByte 1)).afterWrite
      s.cfg.addrLaserCtrl (clearLowNibble (s.inByte 1))).goto .ready) .none := by
  have hw : ((s.afterRead s.cfg.addrLaserCtrl).setLaser (s.inByte 1)).Idle :=
    afterRead_idle s.cfg.addrLaserCtrl hs
  refine answers_of_ok ?_
  rw [stLasercfg, guarded_ok _ hd, op_bind_ok (op_get_apply s), op_bind_ok (readReg_ok _ hs),
    op_bind_ok (update_apply _ _), op_bind_ok (writeReg_ok _ _ hw), update_apply]

/-- Settles O28: the byte written is the byte read with its low nibble cleared. -/
theorem stLasercfgKeepsTheHighNibble : Obligations.StLasercfgKeepsTheHighNibble := fun s hd hs =>
  ⟨clearLowNibble (s.inByte 1), clearLowNibble_highNibble _, clearLowNibble_lowNibble _, exec_stLasercfg hd hs⟩

/-! ### Ready and Failed (R170 to R172, R180) -/

/-- Settles O29: the dump's loop, unrolled over its nine registers. -/
theorem dumpReportsNineRegisters : Obligations.DumpReportsNineRegisters := fun _ hs => finish_ok (dump_ok hs)

/-- A loop iteration with an event pending clears it and polls (R180). -/
theorem loopIteration_of_pending (h : s.pend = true) : loopIteration s = poll { s with pend := false } := by
  have htest : testClear s = .ok (true, { s with pend := false }) := by rw [← h]; rfl
  rw [loopIteration, op_bind_ok htest, if_pos rfl]

/-- A loop iteration with no event pending changes nothing (R180). -/
theorem loopIteration_of_quiet (h : s.pend = false) : loopIteration s = .ok ((), s) := by
  have htest : testClear s = .ok (false, s) := by
    rw [testClear, h, ← h]
  rw [loopIteration, op_bind_ok htest]
  rfl

/-- Outside Ready POLL does nothing (R184, R214). -/
theorem poll_outside_ready (h : s.dstate ≠ .ready) : poll s = .ok ((), s) := by
  rw [poll, op_bind_ok (op_get_apply s), if_neg h]
  rfl

/-- The dump element of Ready, where it dumps (R170). -/
theorem readyDump_dumps (hen : s.cfg.dumpEnable = true) (hdone : s.dumped = false) (hs : s.Idle) :
    readyDump s = .ok ((), (State.afterDumpReads (dumpList s.cfg) s).setDumped.setSeqpos 1) := by
  have hdump : (s.cfg.dumpEnable && !s.dumped) = true := by rw [hen, hdone]; rfl
  rw [readyDump, op_bind_ok (op_get_apply s), if_pos hdump, op_bind_ok (dump_ok hs), op_bind_ok (update_apply _ _)]
  rfl

/-- The dump element of Ready, disabled or done (R170). -/
theorem readyDump_skips (h : s.cfg.dumpEnable = false ∨ s.dumped = true) : readyDump s = .ok ((), s.setSeqpos 1) := by
  have hdump : ¬ (s.cfg.dumpEnable && !s.dumped) = true := by
    rcases h with h | h <;> simp [h]
  rw [readyDump, op_bind_ok (op_get_apply s), if_neg hdump]
  rfl

/-- In Ready at the start of its list, ST_READY is the dump element (R170). -/
theorem stReady_at_start (hd : s.dstate = .ready) (h : s.seqpos = 0) : stReady s = readyDump s := by
  rw [stReady, guarded_ok _ hd, op_bind_ok (op_get_apply s), if_pos h]

/-- In Ready past the start of its list, ST_READY is an iteration of the loop (R170, R180). -/
theorem stReady_in_loop (hd : s.dstate = .ready) (h : s.seqpos ≠ 0) : stReady s = loopIteration s := by
  rw [stReady, guarded_ok _ hd, op_bind_ok (op_get_apply s), if_neg h]

/-- Settles O30: the dump element or a loop iteration, each in its two cases. -/
theorem stReadyDumpsOnceThenLoops : Obligations.StReadyDumpsOnceThenLoops := by
  intro s hd hs
  refine ⟨fun h0 hen hdone => ⟨_, finish_ok (dump_ok hs), ?_⟩, fun h0 h => ?_, fun h1 hp => ?_, fun h1 hp => ?_⟩
  · exact finish_ok ((stReady_at_start hd h0).trans (readyDump_dumps hen hdone hs))
  · exact finish_ok ((stReady_at_start hd h0).trans (readyDump_skips h))
  · exact finish_ok ((stReady_in_loop hd h1).trans (loopIteration_of_quiet hp))
  · have hop : stReady s = poll { s with pend := false } := (stReady_in_loop hd h1).trans (loopIteration_of_pending hp)
    simp only [exec, execStReady, execPoll, finish, hop]

/-- Settles O31: the iteration clears PEND, and the poll it makes when PEND was set does nothing outside Ready. -/
theorem stFailedOnlyConsumesTheEvent : Obligations.StFailedOnlyConsumesTheEvent := by
  intro s r hd
  have hloop : loopIteration s = .ok ((), { s with pend := false }) := by
    cases hp : s.pend with
    | false => rw [loopIteration_of_quiet hp, ← hp]
    | true => exact (loopIteration_of_pending hp).trans (poll_outside_ready (by simp [hd]))
  have hfailed : stFailed s = .ok ((), { s with pend := false }) := by
    rw [stFailed, op_bind_ok (requireState_ok (by rw [hd]; rfl)), hloop]
  exact answers_of_ok hfailed

/-! ### Outside their own Device State (R160, R204) -/

/-- An action whose guard names one Device State is refused in another. -/
theorem guarded_refuses_outside {d : DState} (body : Unit → Op Unit) (h : hardwired d ≠ hardwired s.dstate) :
    (requireState (· == d) >>= body) s = .error .notInState :=
  guarded_refuses body (beq_eq_false_iff_ne.mpr fun e => h (e ▸ rfl))

/-- ST_FAILED is the action of the Failed states only. -/
theorem isFailed_eq_false_of_hardwired {d : DState} (h : .stFailed ≠ hardwired d) : d.isFailed = false := by
  cases d with
  | failed r => exact absurd rfl h
  | _ => rfl

/-- Settles O32: the guard of each of the ten operations fails. -/
theorem stOperationsRunOnlyInTheirState : Obligations.StOperationsRunOnlyInTheirState := by
  intro s i hi hne
  simp only [List.mem_cons, List.not_mem_nil, or_false] at hi
  rcases hi with rfl | rfl | rfl | rfl | rfl | rfl | rfl | rfl | rfl | rfl
  · exact finish_refused (guarded_refuses_outside (d := .reset) _ hne)
  · exact finish_refused (guarded_refuses_outside (d := .powerUp) _ hne)
  · exact finish_refused (guarded_refuses_outside (d := .drain) _ hne)
  · exact finish_refused (guarded_refuses_outside (d := .firmwareUpload) _ hne)
  · exact finish_refused (guarded_refuses_outside (d := .productIdCheck) _ hne)
  · exact finish_refused (guarded_refuses_outside (d := .inverseIdCheck) _ hne)
  · exact finish_refused (guarded_refuses_outside (d := .integrityCheck) _ hne)
  · exact finish_refused (guarded_refuses_outside (d := .laserConfig) _ hne)
  · exact finish_refused (guarded_refuses_outside (d := .ready) _ hne)
  · exact finish_refused (guarded_refuses _ (isFailed_eq_false_of_hardwired hne))

end Sys2Proof.Machine
end

section
/-! PROOF. The transition table (43_init_state_machine.md R160): a Device State's action leaves it by its move and only so; in
Ready and Failed there is none (60_exceptions.md R204), and in Failed nothing is sent (R171, R202). -/

namespace Sys2Proof.Machine

variable {s t : State}

/-! ### Moves and the table -/

/-- A move ends where the table says (R160). -/
theorem moves_transition {d : DState} {u v : State} (h : Moves d u v) : Transition d v.dstate := by
  cases d with
  | productIdCheck | inverseIdCheck | integrityCheck =>
    obtain rfl | ⟨bs, rfl⟩ := h
    · exact .inl rfl
    · exact .inr rfl
  | ready | failed => exact h.elim
  | _ =>
    obtain rfl := h
    rfl

/-- The Device States the table does not leave (R160). -/
def DState.Terminal (d : DState) : Prop := d = .ready ∨ d.isFailed = true

/-- The table lets a terminal state stay (R160). -/
theorem transition_self {d : DState} (h : d.Terminal) : Transition d d := by
  cases d with
  | ready | failed => rfl
  | _ => obtain h | h := h <;> cases h

theorem not_terminal_of_moves {d : DState} {u v : State} (h : Moves d u v) : ¬ d.Terminal := by
  rintro (rfl | hf)
  · exact h
  · rw [(moves_from_running h).1] at hf
    cases hf

/-- No instruction leaves a terminal Device State. -/
theorem exec_keeps_terminal {i : Instr} (hd : s.dstate.Terminal) (h : exec i s = .next t) : t.dstate = s.dstate := by
  obtain ⟨u, v, r, hu, rfl | ⟨-, hm⟩, rfl⟩ := exec_inv sameBeforeMove_keptByRegs h
  · exact hu.dstate
  · exact absurd hd (not_terminal_of_moves hm)

/-- The action of a Device State makes a transition of the table. -/
theorem exec_hardwired_transition (h : exec (hardwired s.dstate) s = .next t) : Transition s.dstate t.dstate := by
  by_cases hd : s.dstate.Terminal
  · rw [exec_keeps_terminal hd h]
    exact transition_self hd
  · have hready : s.dstate ≠ .ready := fun e => hd (.inl e)
    have hrun : s.dstate.isFailed = false := Bool.eq_false_iff.mpr fun e => hd (.inr e)
    obtain ⟨-, u, v, -, hm, rfl⟩ := exec_action_inv sameBeforeMove_keptByInit hready hrun h
    exact (moves_transition hm : Transition s.dstate v.dstate)

/-- Settles O51: with nothing called the step is the action of the Device State, and the event source leaves DSTATE. -/
theorem deviceStateFollowsTheTable : Obligations.DeviceStateFollowsTheTable := by
  refine ⟨rfl, fun s t hb h => ?_⟩
  obtain ⟨-, i, u, v, hf, he, rfl⟩ := step_inv h
  rw [fetch_hardwired hb] at hf
  cases hf
  rw [eventMove_dstate]
  exact exec_hardwired_transition he

/-- Settles O52: neither the fetch, nor any instruction, nor the event source moves DSTATE there. -/
theorem terminalStatesAreNeverLeft : Obligations.TerminalStatesAreNeverLeft := by
  intro s t hd h
  obtain ⟨-, i, u, v, hf, he, rfl⟩ := step_inv h
  have hu : u.dstate = s.dstate := by
    obtain ⟨-, -, rfl⟩ | ⟨w, rest, -, -, rfl⟩ := fetch_inv hf <;> rfl
  rw [eventMove_dstate, exec_keeps_terminal (hu ▸ hd) he, hu]

/-! ### The event source, and a step in Failed (R208, R171, R202) -/

/-- The event source changes PEND and its own inputs, and reads them and the parameters only, so the result is left. -/
theorem eventMove_of_result (s : State) (r : Ret) :
    State.eventMove { s with ret := r } =
      { s with
        pend := s.eventMove.pend, edges := s.eventMove.edges, edgeCount := s.eventMove.edgeCount, ret := r } := by
  cases h : s.edges <;> simp only [State.eventMove, h]

/-- With nothing called, a step is what the action of the Device State answers, and the event source's move. -/
theorem step_of_action (hwf : s.cfg.wf = true) (hb : s.bench = []) (he : exec (hardwired s.dstate) s = .next t) :
    step s = .next t.eventMove := by
  rw [stepRunsTheHardwiredOperation s hwf hb, he]
  rfl

/-- Settles O57: ST_FAILED clears PEND, and the event source may set it again. -/
theorem failedBlockIsSilent : Obligations.FailedBlockIsSilent := by
  intro s r hwf hb hd
  have he : exec (hardwired s.dstate) s = .next { s with pend := false, ret := .none } :=
    (congrArg (fun d => exec (hardwired d) s) hd).trans (stFailedOnlyConsumesTheEvent s r hd)
  rw [step_of_action hwf hb he]
  exact congrArg Host.Outcome.next (eventMove_of_result { s with pend := false } .none)

end Sys2Proof.Machine
end

section
/-! PROOF. The block's own run, step by step (43_init_state_machine.md R161 to R171): what each frame, and the action of each
Device State, adds to the traces, and the Device State it leads to. -/

namespace Sys2Proof.Machine

variable {s t u : State} {n e m l : Nat} {ts us : List Txn} {d : DState}

/-! ### How many line events and transfers a call trace has -/

theorem xferCount_append (cs ds : List Call) : xferCount (cs ++ ds) = xferCount cs + xferCount ds :=
  List.countP_append

theorem xferCount_burstDataCalls (inn : Nat → Byte) (bytes : List Byte) (k : Nat) :
    xferCount (burstDataCalls inn bytes k) = bytes.length := by
  induction bytes generalizing k with
  | nil => rfl
  | cons b rest ih =>
    have h := xferCount_append [.xfer b (inn k), .delay .tBurstByte] (burstDataCalls inn rest (k + 1))
    rw [ih] at h
    exact h.trans (Nat.add_comm 1 rest.length)

theorem xferCount_burstCalls (p : Params) (inn : Nat → Byte) (bytes : List Byte) :
    xferCount (burstCalls p inn bytes) = 1 + bytes.length := by
  rw [burstCalls, xferCount_append, xferCount_append, xferCount_burstDataCalls]
  rfl

theorem eventsOf_burstDataCalls_length (inn : Nat → Byte) (bytes : List Byte) (k : Nat) :
    (eventsOf (burstDataCalls inn bytes k)).length = 49 * bytes.length := by
  induction bytes generalizing k with
  | nil => rfl
  | cons b rest ih =>
    simp only [burstDataCalls, eventsOf_cons, List.length_append, events_xfer_length, events_delay_length, ih,
      List.length_cons]
    omega

theorem eventsOf_burstCalls_length (p : Params) (inn : Nat → Byte) (bytes : List Byte) :
    (eventsOf (burstCalls p inn bytes)).length = 55 + 49 * bytes.length := by
  simp [burstCalls, eventsOf_append, eventsOf_burstDataCalls_length]
  omega

/-! ### What has been sent since the lifetime's start -/

/-- Since `s`, where the traces were empty, `t` has sent the transactions `ts` by `e` line events and `n` transfers, and so
has taken `n` in bytes. -/
structure Sent (s : State) (n e : Nat) (ts : List Txn) (t : State) : Prop where
  cfg : t.cfg = s.cfg
  inByte : ∀ k, t.inByte k = s.inByte (n + k)
  events : t.t0.length = e
  xfers : xferCount t.t1 = n
  txns : t.t2 = ts

/-- A state whose traces have gone on by the calls `cs`, `m` transfers of `l` line events. -/
theorem Sent.more (h : Sent s n e ts t) (cs : List Call) (hc : u.cfg = t.cfg) (hi : ∀ k, u.inByte k = t.inByte (m + k))
    (h0 : u.t0 = t.t0 ++ eventsOf cs) (hl : (eventsOf cs).length = l) (h1 : u.t1 = t.t1 ++ cs) (hm : xferCount cs = m)
    (h2 : u.t2 = t.t2 ++ us) : Sent s (n + m) (e + l) (ts ++ us) u where
  cfg := hc.trans h.cfg
  inByte k := by rw [hi, h.inByte, Nat.add_assoc]
  events := by rw [h0, List.length_append, h.events, hl]
  xfers := by rw [h1, xferCount_append, h.xfers, hm]
  txns := by rw [h2, h.txns]

/-- A change of registers sends nothing. -/
theorem Sent.of_same (h : Sent s n e ts t) (hc : u.cfg = t.cfg) (hd : u.din = t.din) (hn : u.dinCount = t.dinCount)
    (h0 : u.t0 = t.t0) (h1 : u.t1 = t.t1) (h2 : u.t2 = t.t2) : Sent s n e ts u where
  cfg := hc.trans h.cfg
  inByte k := (inByte_congr hd hn k).trans (h.inByte k)
  events := h0 ▸ h.events
  xfers := h1 ▸ h.xfers
  txns := h2.trans h.txns

/-- INIT and the empty select cycle move no byte. -/
theorem Sent.init (h : Sent s n e ts t) : Sent s n (e + 4) (ts ++ [Txn.init]) t.afterInit :=
  h.more (m := 0) [.init] rfl (fun k => by rw [Nat.zero_add]; rfl) rfl rfl rfl rfl rfl

theorem Sent.cycle (h : Sent s n e ts t) : Sent s n (e + 6) (ts ++ [Txn.selCycle]) t.afterCycle :=
  h.more (m := 0) [.assert, .deassert] rfl (fun k => by rw [Nat.zero_add]; rfl) rfl rfl rfl rfl rfl

theorem Sent.wait (h : Sent s n e ts t) (p : DelayName) : Sent s n (e + 1) (ts ++ [Txn.wait p]) (t.afterWait p) :=
  h.more (m := 0) [.delay p] rfl (fun k => by rw [Nat.zero_add]; rfl) rfl rfl rfl rfl rfl

theorem Sent.write (h : Sent s n e ts t) (a : Addr) (v : Byte) :
    Sent s (n + 2) (e + 104) (ts ++ [Txn.write a v]) (t.afterWrite a v) :=
  h.more (writeCalls t.cfg a v (t.inByte 0) (t.inByte 1)) rfl (inByte_afterWrite t a v) rfl
    (eventsOf_writeCalls_length _ _ _ _ _) rfl rfl rfl

theorem Sent.read (h : Sent s n e ts t) (a : Addr) :
    Sent s (n + 2) (e + 104) (ts ++ [Txn.read a (s.inByte (n + 1))]) (t.afterRead a) := by
  rw [← h.inByte 1]
  exact h.more (readCalls t.cfg a t.cfg.dummyByte (t.inByte 0) (t.inByte 1)) rfl (inByte_afterRead t a) rfl
    (eventsOf_readCalls_length _ _ _ _ _) rfl rfl rfl

theorem Sent.burst (h : Sent s n e ts t) (bytes : List Byte) :
    Sent s (n + (1 + bytes.length)) (e + (55 + 49 * bytes.length)) (ts ++ [Txn.burst s.cfg.addrSromBurst bytes])
      (t.afterBurst bytes) := by
  rw [← h.cfg]
  exact h.more (burstCalls t.cfg t.inByte bytes) rfl
    (fun k => by rw [inByte_afterBurst, Nat.add_comm 1]) rfl
    (eventsOf_burstCalls_length _ _ _) rfl (xferCount_burstCalls _ _ _) rfl

theorem Sent.upload (h : Sent s n e ts t) :
    Sent s (n + 2 + (1 + t.cfg.fw.length)) (e + 104 + 1 + (55 + 49 * t.cfg.fw.length))
      (ts ++ [Txn.write t.cfg.addrSromEnable t.cfg.cmdSromLoad] ++ [Txn.wait .tLoadSettle] ++
        [Txn.burst s.cfg.addrSromBurst t.cfg.fw]) t.afterUpload :=
  ((h.write _ _).wait _).burst _

theorem eventsOf_verifyCalls_length (s : State) : (eventsOf s.verifyCalls).length = 313 := by
  simp [State.verifyCalls, eventsOf_append, eventsOf_writeCalls_length, eventsOf_readCalls_length]

theorem Sent.verify (h : Sent s n e ts t) : Sent s (n + 6) (e + 313) (ts ++ t.verifyTxns) t.afterVerify := by
  rw [afterVerify_eq]
  exact h.more t.verifyCalls rfl (afterFrames_inByte t 6 t.cfg.dummyByte t.verifyCalls t.verifyTxns) rfl
    (eventsOf_verifyCalls_length t) rfl rfl rfl

/-- The reads of the dump, each of some byte (R172). -/
theorem Sent.dumpReads (las : List (DumpLabel × Addr)) (h : Sent s n e ts t) :
    ∃ vs, vs.length = las.length ∧
      Sent s (n + 2 * las.length) (e + 104 * las.length) (ts ++ List.zipWith (fun la v => Txn.read la.2 v) las vs)
        (State.afterDumpReads las t) := by
  induction las generalizing t n e ts with
  | nil => exact ⟨[], rfl, by rw [List.zipWith_nil_left, List.append_nil]; exact h⟩
  | cons la rest ih =>
    have hla : Sent s (n + 2) (e + 104) (ts ++ [Txn.read la.2 (s.inByte (n + 1))]) (t.afterDumpRead la.1 la.2) :=
      (h.read la.2).of_same rfl rfl rfl rfl rfl rfl
    obtain ⟨vs, hlen, hs⟩ := ih hla
    refine ⟨s.inByte (n + 1) :: vs, by rw [List.length_cons, hlen, List.length_cons], ?_⟩
    simpa [State.afterDumpReads, Nat.mul_add, Nat.add_assoc, Nat.add_comm, Nat.add_left_comm] using hs

theorem Sent.event (h : Sent s n e ts t) : Sent s n e ts t.eventMove :=
  h.of_same (eventMove_cfg t) (eventMove_din t) (eventMove_dinCount t) (eventMove_t0 t) (eventMove_t1 t) (eventMove_t2 t)

theorem Sent.check (h : Sent s n e ts t) (ok : Bool) (d : DState) (reason : Reason) (info : List Byte) :
    Sent s n e ts (t.check ok d reason info) := by
  cases ok <;> exact h.of_same rfl rfl rfl rfl rfl rfl

/-! ### One step of the block's own run -/

/-- Since `s` the block on its own has come to `t`, at the start of the list of the Device State `d`, with no dump made. -/
structure Reached (s : State) (d : DState) (n e : Nat) (ts : List Txn) (t : State) : Prop extends Sent s n e ts t where
  own : t.Own
  dstate : t.dstate = d
  seqpos : t.seqpos = 0
  dumped : t.dumped = false

theorem Reached.idle (h : Reached s d n e ts t) (hd : d ≠ .reset) : t.Idle :=
  h.own.2.1 (h.dstate ▸ hd)

/-- The step that runs the action of the Device State reached. -/
theorem Reached.act {d' : DState} {n' e' : Nat} {ts' : List Txn} (hwf : s.cfg.wf = true) (h : Reached s d n e ts t)
    (he : exec (hardwired d) t = answers u .none) (hd : u.dstate = d') (hq : u.seqpos = 0) (hp : u.dumped = false)
    (hs : Sent s n' e' ts' u) : ∃ v, step t = .next v ∧ Reached s d' n' e' ts' v := by
  have hwft : t.cfg.wf = true := h.cfg ▸ hwf
  have hstep : step t = .next (State.eventMove { u with ret := .none }) :=
    step_of_action hwft h.own.1 (h.dstate ▸ he)
  obtain ⟨v, hv, -, hown⟩ := blockNeverStopsOnItsOwn t hwft h.own
  cases hstep.symm.trans hv
  have hs' : Sent s n' e' ts' { u with ret := .none } := hs.of_same rfl rfl rfl rfl rfl rfl
  exact ⟨_, hstep, hs'.event, hown, (eventMove_dstate _).trans hd, (eventMove_seqpos _).trans hq,
    (eventMove_dumped _).trans hp⟩

/-- A step whose action ends in a check, a move or a failure (R160, R203). -/
theorem Reached.act_check {d' : DState} {n' e' : Nat} {ts' : List Txn} {ok : Bool} {reason : Reason} {info : List Byte}
    {c : Prop} [Decidable c] (hwf : s.cfg.wf = true) (h : Reached s d n e ts t)
    (he : exec (hardwired d) t = answers (u.check ok d' reason info) .none) (hp : u.dumped = false)
    (hs : Sent s n' e' ts' u) (hc : ok = true ↔ c) :
    ∃ v, step t = .next v ∧ Reached s (if c then d' else .failed reason) n' e' ts' v := by
  have hif : ok = decide c := by rw [Bool.eq_iff_iff, hc, decide_eq_true_iff]
  subst hif
  refine h.act hwf he ?_ ?_ ?_ (hs.check _ _ _ _) <;> by_cases h : c <;> simp [State.check, h, hp]

/-- A step whose action ends in the entry into another Device State. -/
theorem Reached.act_goto {d' : DState} {n' e' : Nat} {ts' : List Txn} (hwf : s.cfg.wf = true)
    (h : Reached s d n e ts t) (he : exec (hardwired d) t = answers (u.goto d') .none) (hp : u.dumped = false)
    (hs : Sent s n' e' ts' u) : ∃ v, step t = .next v ∧ Reached s d' n' e' ts' v :=
  h.act hwf he rfl rfl hp (hs.of_same rfl rfl rfl rfl rfl rfl)

/-! ### The ten actions -/

section
variable (hwf : s.cfg.wf = true)
include hwf

theorem Reached.stReset (h : Reached s .reset n e ts t) :
    ∃ u, step t = .next u ∧
      Reached s .powerUp (n + 2) (e + 114)
        (ts ++ [Txn.init] ++ [Txn.selCycle] ++ [Txn.write s.cfg.addrPowerUpReset s.cfg.cmdReset]) u := by
  have hs := (h.toSent.init.cycle).write t.cfg.addrPowerUpReset t.cfg.cmdReset
  simpa only [h.cfg] using h.act_goto hwf (stResetRunsItsList t h.dstate) (by simp [h.dumped]) hs

theorem Reached.stPowerup (h : Reached s .powerUp n e ts t) :
    ∃ u, step t = .next u ∧ Reached s .drain n (e + 1) (ts ++ [Txn.wait .tPowerUp]) u := by
  have hsel : t.sel ≠ some false := by rw [(h.idle nofun).2.1]; decide
  exact h.act_goto hwf (exec_stPowerup h.dstate (delay_wait hsel (by decide))) h.dumped (h.toSent.wait _)

theorem Reached.stDrain (h : Reached s .drain n e ts t) :
    ∃ u, step t = .next u ∧
      Reached s .firmwareUpload (n + 10) (e + 520)
        (ts ++ [Txn.read s.cfg.addrMotion (s.inByte (n + 1))] ++ [Txn.read s.cfg.addrDeltaXL (s.inByte (n + 3))] ++
          [Txn.read s.cfg.addrDeltaXH (s.inByte (n + 5))] ++ [Txn.read s.cfg.addrDeltaYL (s.inByte (n + 7))] ++
          [Txn.read s.cfg.addrDeltaYH (s.inByte (n + 9))]) u := by
  have hs := ((((h.toSent.read t.cfg.addrMotion).read t.cfg.addrDeltaXL).read t.cfg.addrDeltaXH).read
    t.cfg.addrDeltaYL).read t.cfg.addrDeltaYH
  simpa only [h.cfg] using h.act_goto hwf (stDrainDiscardsFiveReads t h.dstate (h.idle nofun)) (by simp [h.dumped]) hs

theorem Reached.stFwupload (h : Reached s .firmwareUpload n e ts t) :
    ∃ u, step t = .next u ∧
      Reached s .productIdCheck (n + 2 + (1 + s.cfg.fw.length)) (e + 104 + 1 + (55 + 49 * s.cfg.fw.length))
        (ts ++ [Txn.write s.cfg.addrSromEnable s.cfg.cmdSromLoad] ++ [Txn.wait .tLoadSettle] ++
          [Txn.burst s.cfg.addrSromBurst s.cfg.fw]) u := by
  simpa only [h.cfg] using
    h.act_goto hwf (stFwuploadUploadsUnconditionally t h.dstate (h.idle nofun)) (by simp [State.afterUpload, h.dumped])
      h.toSent.upload

theorem Reached.stPidcheck (h : Reached s .productIdCheck n e ts t) :
    ∃ u, step t = .next u ∧
      Reached s (if s.inByte (n + 1) = s.cfg.productIdExpected then .inverseIdCheck else .failed .productIdMismatch)
        (n + 2) (e + 104) (ts ++ [Txn.read s.cfg.addrProductId (s.inByte (n + 1))]) u := by
  have hs : Sent s _ _ _ ((t.afterRead t.cfg.addrProductId).setPid (t.inByte 1)) :=
    (h.toSent.read _).of_same rfl rfl rfl rfl rfl rfl
  simpa only [h.cfg, h.inByte] using
    h.act_check hwf (exec_stPidcheck h.dstate (h.idle nofun)) (by simp [h.dumped]) hs beq_iff_eq

theorem Reached.stIpidcheck (h : Reached s .inverseIdCheck n e ts t) :
    ∃ u, step t = .next u ∧
      Reached s (if s.inByte (n + 1) ^^^ s.cfg.productIdExpected = 0xFF#8 then .integrityCheck
          else .failed .inverseIdMismatch)
        (n + 2) (e + 104) (ts ++ [Txn.read s.cfg.addrInvProductId (s.inByte (n + 1))]) u := by
  have hpid := h.own.2.2 h.dstate
  have hs : Sent s _ _ _ ((t.afterRead t.cfg.addrInvProductId).setIpid (t.inByte 1)) :=
    (h.toSent.read _).of_same rfl rfl rfl rfl rfl rfl
  simpa only [hpid, h.cfg, h.inByte] using
    h.act_check hwf (exec_stIpidcheck h.dstate (h.idle nofun)) (by simp [h.dumped]) hs beq_iff_eq

theorem Reached.stIntegrity (h : Reached s .integrityCheck n e ts t) :
    ∃ u, step t = .next u ∧
      Reached s (if codeOf (s.inByte (n + 5)) (s.inByte (n + 3)) = s.cfg.expectedCode then .laserConfig
          else .failed .integrityMismatch)
        (n + 6) (e + 313)
        (ts ++ [Txn.write s.cfg.addrSromEnable s.cfg.cmdSromVerify, .wait .tVerifySettle,
          .read s.cfg.addrCodeLo (s.inByte (n + 3)), .read s.cfg.addrCodeHi (s.inByte (n + 5))]) u := by
  simpa only [State.verifyTxns, State.codeLo, State.codeHi, h.cfg, h.inByte] using
    h.act_check hwf (exec_stIntegrity h.dstate (h.idle nofun)) (by simp [State.afterVerify, h.dumped])
      h.toSent.verify beq_iff_eq

theorem Reached.stLasercfg (h : Reached s .laserConfig n e ts t) :
    ∃ u, step t = .next u ∧
      Reached s .ready (n + 4) (e + 208) (ts ++ [Txn.read s.cfg.addrLaserCtrl (s.inByte (n + 1))] ++
        [Txn.write s.cfg.addrLaserCtrl (clearLowNibble (s.inByte (n + 1)))]) u := by
  have hr : Sent s _ _ _ ((t.afterRead t.cfg.addrLaserCtrl).setLaser (t.inByte 1)) :=
    (h.toSent.read _).of_same rfl rfl rfl rfl rfl rfl
  have hs := hr.write t.cfg.addrLaserCtrl (clearLowNibble (t.inByte 1))
  simpa only [h.cfg, h.inByte] using
    h.act_goto hwf (exec_stLasercfg h.dstate (h.idle nofun)) (by simp [h.dumped]) hs

theorem Reached.stFailed {r : Reason} (h : Reached s (.failed r) n e ts t) :
    ∃ u, step t = .next u ∧ Reached s (.failed r) n e ts u :=
  h.act (u := { t with pend := false }) hwf (stFailedOnlyConsumesTheEvent t r h.dstate) h.dstate h.seqpos h.dumped
    (h.toSent.of_same rfl rfl rfl rfl rfl rfl)

/-- A failure once reached stays, silent, however many steps follow (R171). -/
theorem Reached.stays_failed {r : Reason} (k : Nat) (h : Reached s (.failed r) n e ts t) :
    ∃ u, steps k t = .next u ∧ Reached s (.failed r) n e ts u := by
  induction k generalizing t with
  | zero => exact ⟨t, rfl, h⟩
  | succ k ih =>
    obtain ⟨u, hu, h'⟩ := h.stFailed hwf
    rw [steps_succ hu]
    exact ih h'

end

end Sys2Proof.Machine
end

section
/-! PROOF. The end of initialization (43_init_state_machine.md R168, R173, R174): eight steps from reset end as the checks on
the bytes read say, and with the dump enabled Ready goes on with its nine reads (R170, R172). -/

namespace Sys2Proof.Machine

variable {s t : State} {n e : Nat} {ts : List Txn}

/-! ### The transactions of a run, and the outcome of its checks (R168, R173) -/

/-- The transactions before the first check (R173). -/
def State.uploadRunTxns (s : State) : List Txn :=
  [.init, .selCycle, .write s.cfg.addrPowerUpReset s.cfg.cmdReset, .wait .tPowerUp,
   .read s.cfg.addrMotion (s.inByte 3), .read s.cfg.addrDeltaXL (s.inByte 5), .read s.cfg.addrDeltaXH (s.inByte 7),
   .read s.cfg.addrDeltaYL (s.inByte 9), .read s.cfg.addrDeltaYH (s.inByte 11),
   .write s.cfg.addrSromEnable s.cfg.cmdSromLoad, .wait .tLoadSettle, .burst s.cfg.addrSromBurst s.cfg.fw]

/-- The transactions of a run that passes its checks, for an image of `k` bytes, with the bytes read (R173). -/
def State.runTxns (s : State) (k : Nat) : List Txn :=
  s.uploadRunTxns ++
    [Txn.read s.cfg.addrProductId (s.inByte (16 + k)), .read s.cfg.addrInvProductId (s.inByte (18 + k)),
     .write s.cfg.addrSromEnable s.cfg.cmdSromVerify, .wait .tVerifySettle,
     .read s.cfg.addrCodeLo (s.inByte (22 + k)), .read s.cfg.addrCodeHi (s.inByte (24 + k)),
     .read s.cfg.addrLaserCtrl (s.inByte (26 + k)),
     .write s.cfg.addrLaserCtrl (clearLowNibble (s.inByte (26 + k)))]

/-- The checks all hold exactly for the expected id, its complement and the two code bytes (R168). -/
theorem checksOutcome_eq_ready_iff {k : Nat} :
    s.checksOutcome k = .ready ↔
      s.inByte (16 + k) = s.cfg.productIdExpected ∧ s.inByte (18 + k) = ~~~s.cfg.productIdExpected ∧
        s.inByte (22 + k) = s.cfg.expectedCode.extractLsb' 0 8 ∧
        s.inByte (24 + k) = s.cfg.expectedCode.extractLsb' 8 8 := by
  unfold State.checksOutcome
  split_ifs with hpid hinv hcode
  · simp [hpid]
  · rw [not_not] at hpid
    rw [hpid, ne_eq, xor_eq_ff_iff] at hinv
    simp [hinv]
  · rw [ne_eq, codeOf_eq_iff] at hcode
    simp [hcode]
  · rw [not_not] at hpid hinv hcode
    rw [hpid, xor_eq_ff_iff] at hinv
    rw [codeOf_eq_iff] at hcode
    simp [hpid, hinv, hcode]

/-! ### Eight steps from reset (R174) -/

section
variable (hwf : s.cfg.wf = true)
include hwf

/-- The four steps before the first check: reset, power-up, drain and upload, whatever is read (R161 to R164). -/
theorem reaches_productIdCheck {k : Nat} (hk : s.cfg.fw.length = k) (h : Reached s .reset 0 0 [] s) :
    ∃ t, (∀ j, steps (j + 4) s = steps j t) ∧ Reached s .productIdCheck (k + 15) (49 * k + 795) s.uploadRunTxns t := by
  obtain ⟨t1, e1, h1⟩ := h.stReset hwf
  obtain ⟨t2, e2, h2⟩ := h1.stPowerup hwf
  obtain ⟨t3, e3, h3⟩ := h2.stDrain hwf
  obtain ⟨t4, e4, h4⟩ := h3.stFwupload hwf
  refine ⟨t4, fun j => by rw [steps_succ e1, steps_succ e2, steps_succ e3, steps_succ e4], ?_⟩
  have hn : 0 + 2 + 10 + 2 + (1 + s.cfg.fw.length) = k + 15 := by omega
  have he : 0 + 114 + 1 + 520 + 104 + 1 + (55 + 49 * s.cfg.fw.length) = 49 * k + 795 := by omega
  rw [← hn, ← he]
  exact h4

/-- A run that has failed goes on to the end of initialization as it is, and is no run that ends in Ready. -/
theorem Reached.ends_failed {r : Reason} {k n' : Nat} {ts' : List Txn} (j : Nat) (h : Reached s (.failed r) n e ts t)
    (he : e = initEvents k (.failed r)) :
    ∃ u n ts, steps j t = .next u ∧ Reached s (.failed r) n (initEvents k (.failed r)) ts u ∧
      (DState.failed r = .ready → n = n' ∧ ts = ts') := by
  obtain ⟨u, hu, hr⟩ := h.stays_failed hwf j
  exact ⟨u, n, ts, hu, he ▸ hr, nofun⟩

/-- Eight steps from reset end initialization as the checks on the bytes read say (R165 to R169, R174). -/
theorem initialization_ends {k : Nat} (hk : s.cfg.fw.length = k) (h : Reached s .reset 0 0 [] s) :
    ∃ t n ts, steps 8 s = .next t ∧ Reached s (s.checksOutcome k) n (initEvents k (s.checksOutcome k)) ts t ∧
      (s.checksOutcome k = .ready → n = 29 + k ∧ ts = s.runTxns k) := by
  unfold State.checksOutcome State.runTxns
  simp only [Nat.add_comm _ k, ne_eq, ite_not]
  obtain ⟨t4, e4, h4⟩ := reaches_productIdCheck hwf hk h
  obtain ⟨t5, e5, h5⟩ := h4.stPidcheck hwf
  rw [e4 4, steps_succ e5]
  by_cases hpid : s.inByte (k + 16) = s.cfg.productIdExpected
  case neg =>
    rw [if_neg hpid] at h5 ⊢
    exact h5.ends_failed hwf 3 (by rw [initEvents]; omega)
  rw [if_pos hpid] at h5 ⊢
  obtain ⟨t6, e6, h6⟩ := h5.stIpidcheck hwf
  rw [steps_succ e6, hpid]
  by_cases hinv : s.inByte (k + 18) ^^^ s.cfg.productIdExpected = 0xFF#8
  case neg =>
    rw [if_neg hinv] at h6 ⊢
    exact h6.ends_failed hwf 2 (by rw [initEvents]; omega)
  rw [if_pos hinv] at h6 ⊢
  obtain ⟨t7, e7, h7⟩ := h6.stIntegrity hwf
  rw [steps_succ e7]
  by_cases hcode : codeOf (s.inByte (k + 24)) (s.inByte (k + 22)) = s.cfg.expectedCode
  case neg =>
    rw [if_neg hcode] at h7 ⊢
    exact h7.ends_failed hwf 1 (by rw [initEvents]; omega)
  rw [if_pos hcode] at h7 ⊢
  obtain ⟨t8, e8, h8⟩ := h7.stLasercfg hwf
  rw [steps_succ e8]
  have he : 49 * k + 795 + 104 + 104 + 313 + 208 = initEvents k .ready :=
    (by omega : _ = 1524 + 49 * k)
  rw [he] at h8
  refine ⟨t8, _, _, rfl, h8, fun _ => ⟨rfl, ?_⟩⟩
  simp only [hpid, List.append_assoc, List.cons_append, List.nil_append]

end

/-! ### The end of initialization from reset (R168, R173, R174) -/

/-- A lifetime starts with nothing sent. -/
theorem start_reached (p : Params) (din : List Bool) (c : Nat) (edges : List (Option Edge)) (k : Nat) :
    Reached (State.start p din c edges k) .reset 0 0 [] (State.start p din c edges k) where
  cfg := rfl
  inByte j := by rw [Nat.zero_add]
  events := rfl
  xfers := rfl
  txns := rfl
  own := reset_own p
  dstate := rfl
  seqpos := rfl
  dumped := rfl

/-- Settles O58: eight steps end as the checks say, and the line events were counted step by step. -/
theorem initializationEndsByTheChecks : Obligations.InitializationEndsByTheChecks := by
  intro p din c edges n hwf s k
  obtain ⟨t, _, _, hsteps, ht, -⟩ := initialization_ends (s := s) hwf rfl (start_reached p din c edges n)
  refine ⟨t, hsteps, ht.dstate, by rw [ht.dstate]; exact ht.events, ?_⟩
  rw [ht.dstate]
  exact checksOutcome_eq_ready_iff

/-- The transactions of a run that passes its checks are those of R173: the bytes checked are the expected ones. -/
theorem runTxns_eq_initTxns (h : s.checksOutcome s.cfg.fw.length = .ready) : s.runTxns s.cfg.fw.length = initTxns s := by
  obtain ⟨hpid, hinv, hlo, hhi⟩ := checksOutcome_eq_ready_iff.mp h
  rw [State.runTxns, hpid, hinv, hlo, hhi]
  rfl

/-- At the start of its list Ready dumps nine registers, where the dump is enabled (R170, R172). -/
theorem Reached.step_dump (h : Reached s .ready n e ts t) (hwf : s.cfg.wf = true) (hen : s.cfg.dumpEnable = true) :
    ∃ u vs, step t = .next u ∧ vs.length = 9 ∧
      u.t2 = ts ++ List.zipWith (fun la v => Txn.read la.2 v) (dumpList s.cfg) vs ∧ xferCount u.t1 = n + 18 := by
  have hen' : t.cfg.dumpEnable = true := h.cfg ▸ hen
  have he : exec (hardwired t.dstate) t =
      answers ((State.afterDumpReads (dumpList t.cfg) t).setDumped.setSeqpos 1) .none := by
    rw [h.dstate]
    exact answers_of_ok ((stReady_at_start h.dstate h.seqpos).trans (readyDump_dumps hen' h.dumped (h.idle nofun)))
  obtain ⟨vs, hlen, hs⟩ := h.toSent.dumpReads (dumpList t.cfg)
  have hnine : (dumpList t.cfg).length = 9 := rfl
  rw [hnine] at hlen hs
  refine ⟨_, vs, step_of_action (h.cfg ▸ hwf) h.own.1 he, hlen, ?_, ?_⟩
  · rw [eventMove_t2, ← h.cfg]
    exact hs.txns
  · rw [eventMove_t1]
    exact hs.xfers

/-- Settles O59: the transactions and transfers of a run whose checks pass, and those of the dump after it. -/
theorem successfulInitializationTrace : Obligations.SuccessfulInitializationTrace := by
  intro p din c edges n hwf hready
  obtain ⟨t, N, ts, hsteps, ht, hrun⟩ :=
    initialization_ends (s := State.start p din c edges n) (k := p.fw.length) hwf rfl (start_reached p din c edges n)
  obtain ⟨rfl, rfl⟩ := hrun hready
  rw [hready] at ht
  have h2 := ht.txns
  refine ⟨t, hsteps, ht.dstate, h2.trans (runTxns_eq_initTxns hready), ht.xfers, fun hen => ?_⟩
  obtain ⟨u, vs, hu, hlen, hu2, hu1⟩ := ht.step_dump hwf hen
  refine ⟨u, vs, hu, hlen, by rw [hu2, h2]; rfl, hu1.trans ?_⟩
  exact Nat.add_right_comm 29 _ 18

end Sys2Proof.Machine
end

section
/-! PROOF. The Motion Telemetry Decoder (44_motion_decoder.md): TESTCLR takes PEND and clears it, STATUS_DECODE and DELTA16
compute on the bytes given, and POLL reads the status and then acts on it. -/

namespace Sys2Proof.Machine

variable {s : State}

/-! ### TESTCLR (R181) -/

/-- An edge of the configured kind sets PEND, whatever it was (R208, R209). -/
theorem eventMove_of_motEdge {rest : List (Option Edge)} (h : s.edges = some s.cfg.motEdge :: rest) :
    s.eventMove = { s with pend := true, edges := rest } := by
  simp [State.eventMove, h]

/-- Settles O33: the bit tested is the answer, and an edge met after the operation finds PEND cleared and sets it. -/
theorem testclrReturnsAndClearsPend : Obligations.TestclrReturnsAndClearsPend := by
  intro s
  have hrun : exec .testclr s = .next { s with pend := false, ret := .bit s.pend } := rfl
  refine ⟨hrun, fun rest h => ?_, 0#8, 0#8, rfl⟩
  rw [hrun]
  exact congrArg Host.Outcome.next (eventMove_of_motEdge h)

/-! ### STATUS_DECODE (R183) -/

/-- A flag is set exactly when its masked byte is non-zero (R183). -/
theorem flagOf_eq_true_iff {mask v : Byte} : flagOf mask v = true ↔ v &&& mask ≠ 0#8 := bne_iff_ne

theorem flagOf_eq_false_iff {mask v : Byte} : flagOf mask v = false ↔ v &&& mask = 0#8 := bne_eq_false_iff_eq

/-- Settles O34: each flag is its own masked byte, and F_MOT, F_FAULT and F_LPV are the same decode of H_STATUS. -/
theorem statusDecodeMasksThreeFlags : Obligations.StatusDecodeMasksThreeFlags := by
  intro s v
  refine ⟨motOf s.cfg v, faultOf s.cfg v, lpvOf s.cfg v, rfl, flagOf_eq_true_iff, flagOf_eq_true_iff, flagOf_eq_true_iff,
    ?_, v, 0#8, rfl⟩
  rintro rfl
  exact ⟨rfl, rfl, rfl⟩

/-! ### DELTA16 (R186) -/

/-- The OR of the two zero-extended bytes puts one beside the other: no bit of either meets one of the other (R186). -/
theorem delta16_eq_append (lo hi : Byte) : delta16 lo hi = hi ++ lo := by
  rw [delta16, BitVec.or_comm, BitVec.append_def, BitVec.shiftLeftZeroExtend_eq]
  rfl

theorem append_toNat (hi lo : Byte) : (hi ++ lo).toNat = lo.toNat + 256 * hi.toNat := by
  rw [BitVec.toNat_append, ← Nat.shiftLeft_add_eq_or_of_lt lo.isLt, Nat.shiftLeft_eq]
  omega

/-- `toInt16` (R12) is the two's-complement reading. -/
theorem toInt16_eq_toInt (v : Half) : toInt16 v = v.toInt := by
  rw [toInt16, BitVec.toInt_eq_toNat_cond]
  split_ifs <;> omega

/-- Settles O35: the result is the two bytes side by side, read in two's complement. -/
theorem delta16IsTwosComplement : Obligations.Delta16IsTwosComplement := fun _ lo hi =>
  have happend := delta16_eq_append lo hi
  ⟨delta16 lo hi, rfl, happend ▸ append_toNat hi lo, happend, toInt16_eq_toInt _, lo, hi, rfl⟩

/-! ### POLL (R184, R185) -/

/-- The fault test passes exactly with laser power valid and no fault (R184 step 3). -/
theorem faultTest_eq_false_iff {p : Params} {v : Byte} :
    faultTest p v = false ↔ v &&& p.maskLpValid ≠ 0#8 ∧ v &&& p.maskFault = 0#8 := by
  rw [← Bool.not_eq_true, faultTest_iff, not_or, not_not]

/-- The state after steps 2 and 3 of POLL: the status byte read and stored (R184). -/
def State.afterStatus (s : State) : State := (s.afterRead s.cfg.addrMotion).setStatus (s.inByte 1)

theorem afterStatus_idle (h : s.Idle) : s.afterStatus.Idle := h

/-- In Ready, from idle lines, POLL reads the status byte and then takes the branch it names (R184). -/
theorem poll_in_ready (hd : s.dstate = .ready) (hs : s.Idle) :
    poll s =
      (if faultTest s.cfg (s.inByte 1) then update (State.emit (.motionFault (s.inByte 1)))
        else if motOf s.cfg (s.inByte 1) then readSample else pure ()) s.afterStatus := by
  rw [poll, op_bind_ok (op_get_apply s), if_pos hd, pollReady, op_bind_ok (op_get_apply s), op_bind_ok (readReg_ok _ hs)]
  rfl

/-- The fault branch (R185). -/
theorem poll_fault (hd : s.dstate = .ready) (hs : s.Idle) (hf : faultTest s.cfg (s.inByte 1) = true) :
    poll s = .ok ((), s.afterStatus.emit (.motionFault (s.inByte 1))) := by
  rw [poll_in_ready hd hs, if_pos hf, update_apply]

/-- The motion branch (R185). -/
theorem poll_sample (hd : s.dstate = .ready) (hs : s.Idle) (hf : faultTest s.cfg (s.inByte 1) = false)
    (hm : motOf s.cfg (s.inByte 1) = true) : poll s = .ok ((), s.afterStatus.afterSample) := by
  rw [poll_in_ready hd hs, if_neg (Bool.eq_false_iff.mp hf), if_pos hm, readSample_ok (afterStatus_idle hs)]

/-- The branch without motion (R185). -/
theorem poll_no_motion (hd : s.dstate = .ready) (hs : s.Idle) (hf : faultTest s.cfg (s.inByte 1) = false)
    (hm : motOf s.cfg (s.inByte 1) = false) : poll s = .ok ((), s.afterStatus) := by
  rw [poll_in_ready hd hs, if_neg (Bool.eq_false_iff.mp hf), if_neg (Bool.eq_false_iff.mp hm), op_pure_apply]

/-! A store between two reads touches no part of the bus. -/

theorem setDxl_afterRead (v : Byte) (a : Addr) (s : State) : (s.setDxl v).afterRead a = (s.afterRead a).setDxl v := rfl

theorem setDxh_afterRead (v : Byte) (a : Addr) (s : State) : (s.setDxh v).afterRead a = (s.afterRead a).setDxh v := rfl

theorem setDyl_afterRead (v : Byte) (a : Addr) (s : State) : (s.setDyl v).afterRead a = (s.afterRead a).setDyl v := rfl

theorem afterRead_out (a : Addr) (s : State) : (s.afterRead a).out = s.out := rfl

/-- The sample of POLL: the four reads in the fixed order, and all their stores after them (R67, R184 step 4). -/
theorem afterSample_eq (s : State) :
    s.afterSample =
      { (((s.afterRead s.cfg.addrDeltaXL).afterRead s.cfg.addrDeltaXH).afterRead s.cfg.addrDeltaYL).afterRead
          s.cfg.addrDeltaYH with
        hDxl := s.inByte 1, hDxh := s.inByte 3, hDyl := s.inByte 5, hDyh := s.inByte 7,
        dx := s.inByte 3 ++ s.inByte 1, dy := s.inByte 7 ++ s.inByte 5,
        out := s.out ++ [.motionSample (toInt16 (s.inByte 3 ++ s.inByte 1)) (toInt16 (s.inByte 7 ++ s.inByte 5))] } := by
  simp only [State.afterSample, setDxl_afterRead, setDxh_afterRead, setDyl_afterRead, delta16_eq_append]
  simp only [State.emit, State.setDeltas, State.setDxl, State.setDxh, State.setDyl, State.setDyh, afterRead_out]

/-- Settles O36: outside Ready nothing; in Ready the branch that the status byte read names. -/
theorem pollTakesOneOfFourBranches : Obligations.PollTakesOneOfFourBranches := by
  intro s
  refine ⟨fun hd => answers_of_ok (poll_outside_ready hd), fun hd hs => ⟨fun hbad => ?_, fun hlpv hfault hmot => ?_,
    fun hlpv hfault hmot => ?_⟩⟩
  · exact answers_of_ok (poll_fault hd hs (faultTest_iff.mpr hbad))
  · have hpoll := poll_sample hd hs (faultTest_eq_false_iff.mpr ⟨hlpv, hfault⟩) (flagOf_eq_true_iff.mpr hmot)
    rw [afterSample_eq] at hpoll
    exact answers_of_ok hpoll
  · exact answers_of_ok
      (poll_no_motion hd hs (faultTest_eq_false_iff.mpr ⟨hlpv, hfault⟩) (flagOf_eq_false_iff.mpr hmot))

end Sys2Proof.Machine
end

section
/-! PROOF. Steps and the event source (60_exceptions.md R208 to R210): a step ends with the event source's move, an edge of
the configured kind sets PEND, and nothing before Ready clears it. -/

namespace Sys2Proof.Machine

variable {s t : State}

/-! ### A called word's step (R208) -/

/-- With a word called that decodes, the fetch answers its instruction and takes the word off the queue. -/
theorem fetch_called {w : CodeWord} {rest : List CodeWord} {i : Instr} (hb : s.bench = w :: rest)
    (hd : decode s.cfg w = .ok i) : fetch s = .ok (i, { s with bench := rest }) := by
  unfold fetch
  simp only [hb, hd]

/-- Settles O42: the parameters pass, and the fetch answers the instruction of the word called. -/
theorem stepRunsTheDecodedWord : Obligations.StepRunsTheDecodedWord := by
  intro s w rest i hwf hb hd
  unfold step
  rw [if_pos hwf, fetch_called hb hd]

/-! ### The event source's move (R208, R209) -/

/-- Another edge, or none, leaves all but the input taken. -/
theorem eventMove_of_other {e : Option Edge} {rest : List (Option Edge)} (h : s.edges = e :: rest)
    (he : e ≠ some s.cfg.motEdge) : s.eventMove = { s with edges := rest } := by
  simp [State.eventMove, h, he]

/-- Past the queue's end the edge is the free value (log entry 7). -/
theorem eventMove_of_free (h : s.edges = []) :
    s.eventMove =
      { s with
        pend := if Config.motSignal s.edgeCount = some s.cfg.motEdge then true else s.pend
        edgeCount := s.edgeCount + 1 } := by
  by_cases he : Config.motSignal s.edgeCount = some s.cfg.motEdge <;> simp [State.eventMove, h, he]

/-- Settles O54: the edge is the queue's first, of the configured kind or not, or the free value. -/
theorem eventSetsPendAndMerges : Obligations.EventSetsPendAndMerges := fun _ =>
  ⟨fun _ _ h => ⟨fun he => eventMove_of_motEdge (he ▸ h), eventMove_of_other h⟩, eventMove_of_free⟩

/-- The event source never clears PEND. -/
theorem eventMove_keeps_pending (h : s.pend = true) : s.eventMove.pend = true := by
  cases he : s.edges <;> simp [State.eventMove, he, h]

/-! ### Initialization leaves PEND (R210, R180) -/

/-- PEND is the same in both states. -/
def SamePend (s t : State) : Prop := t.pend = s.pend

/-- No bus operation and no register that initialization writes touches PEND. -/
theorem samePend_keptByInit : KeptByInit SamePend where
  refl _ := rfl
  trans h k := Eq.trans k h
  init _ := rfl
  assert _ _ := rfl
  deassert _ _ := rfl
  xfer _ _ _ := rfl
  delayIn _ _ _ := rfl
  delayOut _ _ _ := rfl
  fwidx _ _ := rfl
  pid _ _ _ := rfl
  ipid _ _ := rfl
  codeLo _ _ := rfl
  codeHi _ _ := rfl
  laser _ _ := rfl

/-- Neither the entry into a Device State nor that into a failure touches PEND. -/
theorem moves_samePend {d : DState} (h : Moves d s t) : SamePend s t := by
  obtain ⟨d', rfl⟩ | ⟨r, bs, rfl⟩ := moves_inv h
  · exact goto_pend d' s
  · exact raiseFailed_pend r bs s

/-- The action of an initializing Device State leaves PEND: TESTCLR, which clears it, is in the lists of Ready and Failed
only (R180). -/
theorem exec_action_samePend (hr : s.dstate ≠ .ready) (hf : s.dstate.isFailed = false)
    (h : exec (hardwired s.dstate) s = .next t) : SamePend s t := by
  obtain ⟨-, u, v, hu, hm, rfl⟩ := exec_action_inv samePend_keptByInit hr hf h
  have huv : SamePend s v := samePend_keptByInit.trans hu (moves_samePend hm)
  exact huv

/-- Settles O55: the action leaves PEND, and the event source can only set it. -/
theorem earlyEventStaysPending : Obligations.EarlyEventStaysPending := by
  intro s t hb hr hf hp h
  obtain ⟨-, i, u, v, hfetch, he, rfl⟩ := step_inv h
  rw [fetch_hardwired hb] at hfetch
  cases hfetch
  exact eventMove_keeps_pending ((exec_action_samePend hr hf he).trans hp)

end Sys2Proof.Machine
end

section
/-! PROOF. Quiescence (70_reset_and_hazards.md R238): with no event pending the terminal states' loop iteration changes
nothing, so what a step changes is the event source's. -/

namespace Sys2Proof.Machine

variable {s : State}

/-- The action of every Failed state is ST_FAILED (R160). -/
theorem hardwired_of_isFailed {d : DState} (h : d.isFailed = true) : hardwired d = .stFailed := by
  cases d with
  | failed r => rfl
  | _ => cases h

/-- In a Failed state ST_FAILED is an iteration of the loop (R171). -/
theorem stFailed_in_failed (h : s.dstate.isFailed = true) : stFailed s = loopIteration s :=
  op_bind_ok (requireState_ok h)

/-- In a quiescent state the action of the Device State is a loop iteration without an event: it clears the result only. -/
theorem State.Quiescent.exec_action (h : s.Quiescent) :
    exec (hardwired s.dstate) s = .next { s with ret := .none } := by
  obtain ⟨⟨hready, hpos⟩ | hfailed, hpend, -⟩ := h
  · have hi : hardwired s.dstate = .stReady := congrArg hardwired hready
    rw [hi]
    exact answers_of_ok ((stReady_in_loop hready hpos).trans (loopIteration_of_quiet hpend))
  · rw [hardwired_of_isFailed hfailed]
    exact answers_of_ok ((stFailed_in_failed hfailed).trans (loopIteration_of_quiet hpend))

/-- Settles O56: the action clears the result only, and the event source changes PEND and its own inputs. -/
theorem quiescentStateStays : Obligations.QuiescentStateStays := by
  intro s hwf hq
  have ⟨_, _, hbench⟩ := hq
  rw [step_of_action hwf hbench hq.exec_action]
  exact congrArg Host.Outcome.next (eventMove_of_result s .none)

end Sys2Proof.Machine
end
